-- ==== Sys2Proof/Word.lean ====
section
/-! DEFINITION. The word types of the block and the four-element bank that holds one value per trigger stage. -/

namespace Sys2Proof

/-- Four bits: one channel group, and the unit the sample store is counted in (R5 `CAP_NIBBLES`, R64). -/
abbrev Nibble := BitVec 4

/-- One slot of an instruction memory (R5 `SLOT_W`) and one byte of a command frame (R90). -/
abbrev Byte := BitVec 8

/-- The sampled word, a mask, a value: `W` = 16 bits (R5, R8). -/
abbrev Word := BitVec 16

/-- The parameter of a five-byte command, and the width `CNT_W` of the count registers (R5, R90). -/
abbrev Param := BitVec 32

/-- A trigger stage index, 0..3 (R5 `NSTAGE`). -/
abbrev StageIx := Fin 4

/-- One value for each of the four trigger stages (`REG[i]`, i = 0..3 of R8). -/
structure Four (α : Type) where
  s0 : α
  s1 : α
  s2 : α
  s3 : α
deriving DecidableEq, Repr

/-- Element `i` of a register array. -/
def Four.get {α : Type} (v : Four α) (i : StageIx) : α :=
  match i with
  | 0 => v.s0
  | 1 => v.s1
  | 2 => v.s2
  | 3 => v.s3

/-- The array with element `i` replaced. -/
def Four.set {α : Type} (v : Four α) (i : StageIx) (x : α) : Four α :=
  match i with
  | 0 => { v with s0 := x }
  | 1 => { v with s1 := x }
  | 2 => { v with s2 := x }
  | 3 => { v with s3 := x }

/-- The same value in all four places. -/
def Four.all {α : Type} (x : α) : Four α := ⟨x, x, x, x⟩

end Sys2Proof
end

