-- ==== Sys2Proof/Config.lean ====
section
/-! DEFINITION. The parameters of the block (R5, and the opcode table R91 makes a configuration field), their
legal ranges, their defaults, and the free values: what an unwritten memory cell holds (R282). -/

namespace Sys2Proof

/-- The opcode bytes of the ten commands. R91: "The values below are this spec's defaults; a model takes the table
as a configuration field." -/
structure OpcodeTable where
  reset            : Byte
  run              : Byte
  identify         : Byte
  queryMetadata    : Byte
  setClockDivisor  : Byte
  setSampleCounts  : Byte
  setFlags         : Byte
  setTriggerMask   : Byte
  setTriggerValue  : Byte
  setTriggerConfig : Byte
deriving DecidableEq, Repr

/-- The opcodes of the one-byte commands (format C1, R90). -/
def OpcodeTable.c1 (t : OpcodeTable) : List Byte := [t.reset, t.run, t.identify, t.queryMetadata]

/-- The opcodes of the five-byte commands (format C5, R90). -/
def OpcodeTable.c5 (t : OpcodeTable) : List Byte :=
  [t.setClockDivisor, t.setSampleCounts, t.setFlags, t.setTriggerMask, t.setTriggerValue, t.setTriggerConfig]

/-- The defaults of R91. -/
def OpcodeTable.standard : OpcodeTable where
  reset            := 0x00#8
  run              := 0x01#8
  identify         := 0x02#8
  queryMetadata    := 0x04#8
  setClockDivisor  := 0x80#8
  setSampleCounts  := 0x81#8
  setFlags         := 0x82#8
  setTriggerMask   := 0xC0#8
  setTriggerValue  := 0xC1#8
  setTriggerConfig := 0xC2#8

/-- A table fits the frame shapes when bit 7 of every opcode tells its format (R90), and is unambiguous when no
opcode stands twice. -/
def OpcodeTable.legal (t : OpcodeTable) : Bool :=
  t.c1.all (fun b => !b.getLsbD 7) && t.c5.all (fun b => b.getLsbD 7) && decide (t.c1 ++ t.c5).Nodup

/-- The parameters of R5 that R5 leaves to the implementation, and the opcode table of R91. They are fixed for one
machine: no step changes them. -/
structure Params where
  /-- `LMAX`, the largest literal length of one `MatchRun`, 2..8 -/
  lmax : Nat
  /-- `B`, the slots in each stage's instruction memory, 1..63 -/
  budget : Nat
  /-- `CAP_BYTES`, the capacity of the sample store in bytes, at least 2 -/
  capBytes : Nat
  /-- the command opcodes -/
  opcodes : OpcodeTable
deriving DecidableEq, Repr

/-- The defaults of R5 and R91. -/
def Params.standard : Params where
  lmax := 8
  budget := 32
  capBytes := 204800
  opcodes := OpcodeTable.standard

/-- The ranges R5 states, and a usable opcode table. -/
def Params.legal (P : Params) : Bool :=
  decide (2 ≤ P.lmax) && decide (P.lmax ≤ 8) && decide (1 ≤ P.budget) && decide (P.budget ≤ 63) &&
  decide (2 ≤ P.capBytes) && P.opcodes.legal

/-- `CAP_NIBBLES` = 2 × `CAP_BYTES` (R5). -/
def Params.capNibbles (P : Params) : Nat := 2 * P.capBytes

/-- FREE VALUE: what slot `a` of instruction memory `k` holds when nothing has been written there since the last
power-on reset or `Discard()`; the first argument numbers those erasures (R282, "a model must not assume zero").
Log entry 3. -/
opaque Config.unwrittenSlot : Nat → Nat → Nat → Byte

/-- FREE VALUE: what nibble `q` of the sample store holds when nothing has been written there since the last
power-on reset or `Discard()`; the first argument numbers those erasures (R282). Log entry 3. -/
opaque Config.unwrittenNibble : Nat → Nat → Nibble

/-- FREE VALUE: what a subtraction `a` - `b` on natural numbers gives where `b` > `a`. R8: "All arithmetic is on natural
numbers", so the spec states no result there. Only states that no run reaches meet it. Log entry 9. -/
opaque Config.undefinedDifference : Nat → Nat → Nat

end Sys2Proof
end

