-- ==== Sys2Proof/Syntax.lean ====
section
/-! DEFINITION. The instructions: the three micro-operations and the ten host commands, one constructor per row of
spec/opcode_table.json. -/

namespace Sys2Proof

/-- How a trigger stage compares (R28): `Parallel` = 0, the whole channel word; `Serial` = 1, refused at `Run`. -/
inductive TriggerMode where
  | parallel
  | serial
deriving DecidableEq, Repr

/-- The operands of `SetTriggerConfig` beside the stage index (R92, R230). -/
structure StageFields where
  delay  : BitVec 16
  next   : StageIx
  nextv  : Bool
  starts : Bool
  mode   : TriggerMode
deriving DecidableEq, Repr

/-- The instructions of the block. Operands are decoded: a count is a number, a stage index an index, a parameter
field its own bits. -/
inductive Instr where
  /-- `Skip n`, n in 1..16 (R81, R111) -/
  | skip (n : Nat)
  /-- `MatchSingleBit p` (R82, R112) -/
  | matchSingleBit (p : Bool)
  /-- `MatchRun`: literal length L in 1..`LMAX`, and the literal right-aligned in its slot (R83, R113) -/
  | matchRun (len : Nat) (lit : Byte)
  /-- `Reset` (R221) -/
  | reset
  /-- `Run` (R222) -/
  | run
  /-- `Identify` (R223) -/
  | identify
  /-- `QueryMetadata` (R224) -/
  | queryMetadata
  /-- `SetClockDivisor` (R225) -/
  | setClockDivisor (divisor : BitVec 32)
  /-- `SetSampleCounts` (R226); the arguments have the full register width, which R92 allows a model to offer: "a model
  may offer the decoded operation with full-width arguments" -/
  | setSampleCounts (total post : BitVec 32)
  /-- `SetFlags` (R227) -/
  | setFlags (groups : BitVec 4) (rle : Bool)
  /-- `SetTriggerMask` (R228) -/
  | setTriggerMask (stage : StageIx) (mask : Word)
  /-- `SetTriggerValue` (R229) -/
  | setTriggerValue (stage : StageIx) (value : Word)
  /-- `SetTriggerConfig` (R230) -/
  | setTriggerConfig (stage : StageIx) (fields : StageFields)
deriving DecidableEq, Repr

/-- The micro-operations live in instruction memory; every other instruction is a command frame (R80, R90). -/
def Instr.isMicro : Instr → Bool
  | .skip _ => true
  | .matchSingleBit _ => true
  | .matchRun _ _ => true
  | .reset => false
  | .run => false
  | .identify => false
  | .queryMetadata => false
  | .setClockDivisor _ => false
  | .setSampleCounts _ _ => false
  | .setFlags _ _ => false
  | .setTriggerMask _ _ => false
  | .setTriggerValue _ _ => false
  | .setTriggerConfig _ _ => false

end Sys2Proof
end

