-- ==== Sys2Proof/Machine/State.lean ====
section
/-! DEFINITION. The state of the block as plain data: every register and memory of 10_state.md, its ports, and the
few fields that are the model's own (`params`, `epoch`, `ports.inbox`, `ports.events`, `ports.reply`, `seq`). -/

namespace Sys2Proof.Machine

/-- `STATE` (R33). -/
inductive CtlState where
  | idle
  | armed
  | capturing
  | postTrigger
  | captured
  | streaming
  | fault
deriving DecidableEq, Repr

/-- The 3-bit value of `STATE` (R33). -/
def CtlState.code : CtlState → BitVec 3
  | .idle => 0#3
  | .armed => 1#3
  | .capturing => 2#3
  | .postTrigger => 3#3
  | .captured => 4#3
  | .streaming => 5#3
  | .fault => 6#3

/-- `ERR` (R35, R250). `malformedCommand` is assigned and never written. -/
inductive ErrCode where
  | none
  | compileOverflow
  | invalidConfiguration
  | insufficientHistory
  | malformedCommand
  | hardwareFault
deriving DecidableEq, Repr

/-- The 3-bit value of `ERR` (R35). -/
def ErrCode.code : ErrCode → BitVec 3
  | .none => 0#3
  | .compileOverflow => 1#3
  | .invalidConfiguration => 2#3
  | .insufficientHistory => 3#3
  | .malformedCommand => 4#3
  | .hardwareFault => 5#3

/-- The pulse outputs (R48, R257 to R261). -/
inductive Event where
  | wrap
  | trig
  | done
  | err
deriving DecidableEq, Repr

/-- The result of one evaluation of a program (R49 a, R110). -/
inductive EvalResult where
  | matched
  | noMatch
  | stall
deriving DecidableEq, Repr

/-- One event at the inputs of the block (R6, R48): a sample tick with the pins at it, a whole frame at the command
port, a request at the read port, or power-on reset. -/
inductive Input where
  | tick (pins : Word)
  | frame (bytes : List Byte)
  | beginRead
  | readNext
  | powerOn
deriving DecidableEq, Repr

/-- What the read port returns (R201, R202): the pair (`REMAIN`, `TRUNC`), or a sample of `width` bits, zero-extended
to 16. -/
inductive Reply where
  | window (remain : Nat) (trunc : Bool)
  | sample (width : Nat) (value : Word)
deriving DecidableEq, Repr

/-- A memory of `w`-bit cells: the cells that have been written, as (address, value) pairs with addresses strictly
rising. An address that is not listed has not been written since the last erasure. `Memory 8` is a list of `Host.Cell`. -/
abbrev Memory (w : Nat) := List (Nat × BitVec w)

/-- The configuration of one trigger stage (R26 to R32). -/
structure StageCfg where
  mask   : Word
  value  : Word
  mode   : TriggerMode
  delay  : BitVec 16
  starts : Bool
  nextv  : Bool
  next   : StageIx
  cfgv   : Bool
deriving DecidableEq, Repr

/-- The configuration registers (R21 to R32), ULA's AcquisitionSession. -/
structure Session where
  divisor : BitVec 32
  total   : BitVec 32
  post    : BitVec 32
  groups  : BitVec 4
  rle     : Bool
  stages  : Four StageCfg
deriving DecidableEq, Repr

/-- The controller registers (R33 to R36). -/
structure Controller where
  state : CtlState
  clken : Bool
  err   : ErrCode
  trunc : Bool
deriving DecidableEq, Repr

/-- The stage-chain registers (R37, R38). -/
structure Chain where
  stage  : StageIx
  settle : BitVec 16
deriving DecidableEq, Repr

/-- The sequencer's working registers (R40) and, in `result`, how the current evaluation has ended (R49 a; `none`
while it has not). Nothing reads them from one tick to the next. -/
structure Sequencer where
  sr     : Word
  pos    : Nat
  upc    : Nat
  result : Option EvalResult
deriving DecidableEq, Repr

/-- The sample-buffer registers (R42 to R46). -/
structure Ring where
  wr        : Nat
  fill      : Nat
  trig      : Nat
  trigv     : Bool
  countdown : BitVec 32
  rd        : Nat
  remain    : Nat
deriving DecidableEq, Repr

/-- The ports (R48): the inputs still to come, in the order they reach the block; the pulses of the last step, in
order; what the read port returned in the last step. -/
structure Ports where
  inbox  : List Input
  events : List Event
  reply  : Option Reply
deriving DecidableEq, Repr

/-- The whole machine. -/
structure State where
  /-- the parameters of this block (R5); no step changes them -/
  params : Params
  /-- R21 to R32 -/
  cfg    : Session
  /-- R33 to R36 -/
  ctl    : Controller
  /-- R37, R38 -/
  chain  : Chain
  /-- `IMEM[k]` (R39) -/
  imem   : Four (Memory 8)
  /-- `PLEN[k]` (R39) -/
  plen   : Four Nat
  /-- R40 -/
  seq    : Sequencer
  /-- R42 to R46 -/
  ring   : Ring
  /-- `BUF` (R41) in its physical layout (R64): cell `q` is nibble `q` of the sample store -/
  buf    : Memory 4
  /-- how often the memories have become unspecified (R282); numbers the free values of `Config` -/
  epoch  : Nat
  /-- R48 -/
  ports  : Ports
deriving DecidableEq, Repr

/-- Why the machine stops. Neither reason is ever met by a run from reset (`Sys2Proof.Machine.State.Inv`); both are SAFE:
the model stops where the spec gives no cell to act on. -/
inductive Fault where
  /-- An access to a `BUF` slot at or beyond `CAP_SAMPLES` (R60). Raised by the tick's write, by `BeginRead` when there is
  no slot at all, and by `ReadNext`. -/
  | noBufSlot (slot : Nat)
  /-- An access to an `IMEM` slot at or beyond `B` (R60). Raised by the sequencer's fetch. -/
  | noImemSlot (slot : Nat)
deriving DecidableEq, Repr

/-- Why an instruction has no meaning. -/
inductive Refusal where
  /-- Raised by `exec` for an instruction that has no meaning yet; SAFE. No arm raises it. -/
  | notModelled (mnemonic : String)
deriving DecidableEq, Repr

/-! ### Reset values (R281) -/

/-- R281 for one stage. -/
def StageCfg.reset : StageCfg where
  mask := 0
  value := 0
  mode := .parallel
  delay := 0
  starts := false
  nextv := false
  next := 0
  cfgv := false

/-- R281 for the configuration: all zero but `GROUPS` = `0b1111`. -/
def Session.reset : Session where
  divisor := 0
  total := 0
  post := 0
  groups := 0b1111#4
  rle := false
  stages := Four.all StageCfg.reset

/-- R281 for the controller. -/
def Controller.reset : Controller where
  state := .idle
  clken := false
  err := .none
  trunc := false

/-- R281 for the stage chain. -/
def Chain.reset : Chain where
  stage := 0
  settle := 0

/-- R281 for the sample buffer. -/
def Ring.reset : Ring where
  wr := 0
  fill := 0
  trig := 0
  trigv := false
  countdown := 0
  rd := 0
  remain := 0

/-- The working registers before the first evaluation. R40: they "have no reset value"; zero is a DESIGN CHOICE (log
entry 5), and no step reads it. -/
def Sequencer.initial : Sequencer where
  sr := 0
  pos := 0
  upc := 0
  result := none

/-- The block right after power-on reset, with parameters `P` and no input pending (R280, R281). Nothing is listed in
either memory, so every cell reads as a free value (R282). -/
def State.resetWith (P : Params) : State where
  params := P
  cfg := Session.reset
  ctl := Controller.reset
  chain := Chain.reset
  imem := Four.all []
  plen := Four.all 0
  seq := Sequencer.initial
  ring := Ring.reset
  buf := []
  epoch := 0
  ports := { inbox := [], events := [], reply := none }

/-- The block right after power-on reset with the default parameters of R5 and R91. -/
def State.reset : State := State.resetWith Params.standard

end Sys2Proof.Machine
end

