-- ==== Sys2Proof/WellFormed.lean ====
section
/-! DEFINITION. Which instructions the encodings of 30_encoding.md can express. -/

namespace Sys2Proof

/-- `i` is expressible with the parameters `P`: `Skip` counts 1..16 (R84); a `MatchRun` has L in 1..`LMAX` and no
literal bit at or above L (R84, R86 e, f); the two counts of `SetSampleCounts` fit their 16-bit fields (R92). Every
other operand fills its field. -/
def Instr.wf (P : Params) : Instr → Bool
  | .skip n => decide (1 ≤ n) && decide (n ≤ 16)
  | .matchSingleBit _ => true
  | .matchRun len lit => decide (1 ≤ len) && decide (len ≤ P.lmax) && decide (len ≤ 8) && decide (lit.toNat < 2 ^ len)
  | .reset => true
  | .run => true
  | .identify => true
  | .queryMetadata => true
  | .setClockDivisor _ => true
  | .setSampleCounts total post => decide (total.toNat < 65536) && decide (post.toNat < 65536)
  | .setFlags _ _ => true
  | .setTriggerMask _ _ => true
  | .setTriggerValue _ _ => true
  | .setTriggerConfig _ _ => true

end Sys2Proof
end

