-- ==== Sys2Proof/Decode.lean ====
section
/-! DEFINITION. The decoder, total on any slots and on any frame and rejecting by name, and after it the encoder,
both written from the tables of 30_encoding.md; then the words of spec/opcode_table.json. -/

namespace Sys2Proof

/-- Why the decoder refuses. The first seven are R86; the last two are R93. -/
inductive DecodeError where
  /-- no slot at all -/
  | noSlot
  /-- R86 (a): `op` = `11` -/
  | reservedOp
  /-- R86 (b), (c), (d): a reserved bit of the first slot is 1 -/
  | reservedBits
  /-- R86 (e): L > `LMAX` -/
  | literalTooLong
  /-- R86 (g): the literal slot lies beyond the program -/
  | missingSlot
  /-- R86 (f): the literal slot has a 1 in bits [7:L] -/
  | literalBits
  /-- R93, R231: the opcode is not in the table -/
  | unknownOpcode
  /-- R93, R254: the bytes are not one frame of the shape that bit 7 of the opcode tells -/
  | malformedFrame
deriving DecidableEq, Repr

/-! ### Micro-operations (R80 to R89) -/

/-- Bits [7:6] of a first slot (R85). -/
def opField (b : Byte) : BitVec 2 := b.extractLsb' 6 2

/-- The number of slots an instruction occupies is told by its first slot alone: `op` = `10` means two (R87). -/
def slotCount (b : Byte) : Nat := if opField b = 0b10#2 then 2 else 1

/-- `Skip` from its slot (R81): bits [5:4] are 0, n = zext(`nm1`) + 1 (R84). -/
def decodeSkip (b0 : Byte) : Except DecodeError Instr :=
  if b0.extractLsb' 4 2 = 0#2 then .ok (.skip ((b0.extractLsb' 0 4).toNat + 1)) else .error .reservedBits

/-- `MatchSingleBit` from its slot (R82): bits [5:1] are 0, the polarity is bit 0. -/
def decodeMatchSingleBit (b0 : Byte) : Except DecodeError Instr :=
  if b0.extractLsb' 1 5 = 0#5 then .ok (.matchSingleBit (b0.getLsbD 0)) else .error .reservedBits

/-- `MatchRun` from its first slot and its second, `none` where the program ends before it (R83). The checks stand in
R113's order: reserved bits, L against `LMAX`, the second slot present, its bits [7:L]. -/
def decodeMatchRun (P : Params) (b0 : Byte) (b1 : Option Byte) : Except DecodeError Instr :=
  let len := (b0.extractLsb' 0 3).toNat + 1
  if b0.extractLsb' 3 3 ≠ 0#3 then .error .reservedBits
  else if P.lmax < len then .error .literalTooLong
  else
    match b1 with
    | none => .error .missingSlot
    | some lit => if lit >>> len = 0#8 then .ok (.matchRun len lit) else .error .literalBits

/-- The opcode map of R85, over a first slot and the slot after it (`none` where the program has no such slot). -/
def decodeMicro (P : Params) (b0 : Byte) (b1 : Option Byte) : Except DecodeError Instr :=
  if opField b0 = 0b00#2 then decodeSkip b0
  else if opField b0 = 0b01#2 then decodeMatchSingleBit b0
  else if opField b0 = 0b10#2 then decodeMatchRun P b0 b1
  else .error .reservedOp

/-- The first instruction of a list of slots, and the slots after it (R87: "the first slot of each next instruction is
the slot after the last slot of the previous one"). -/
def decodeSlots (P : Params) (bs : List Byte) : Except DecodeError (Instr × List Byte) :=
  match bs with
  | [] => .error .noSlot
  | b0 :: rest =>
    match decodeMicro P b0 rest.head? with
    | .ok i => .ok (i, rest.drop (slotCount b0 - 1))
    | .error e => .error e

/-! ### Command frames (R90 to R93) -/

/-- The little-endian parameter: `P = b4 ++ b3 ++ b2 ++ b1` (R66). -/
def assembleParam (b1 b2 b3 b4 : Byte) : Param := b4 ++ b3 ++ b2 ++ b1

/-- `P[17:16]`, the stage index of the trigger commands (R92). -/
def stageField (p : Param) : StageIx := (p.extractLsb' 16 2).toFin

/-- The fields of `SetTriggerConfig` other than the stage index (R92). -/
def stageFields (p : Param) : StageFields where
  delay := p.extractLsb' 0 16
  next := (p.extractLsb' 18 2).toFin
  nextv := p.getLsbD 20
  starts := p.getLsbD 21
  mode := if p.getLsbD 22 then .serial else .parallel

/-- A one-byte command (R91). -/
def decodeC1 (P : Params) (op : Byte) : Except DecodeError Instr :=
  if op = P.opcodes.reset then .ok .reset
  else if op = P.opcodes.run then .ok .run
  else if op = P.opcodes.identify then .ok .identify
  else if op = P.opcodes.queryMetadata then .ok .queryMetadata
  else .error .unknownOpcode

/-- A five-byte command with its parameter (R91, R92); parameter bits that no field names are ignored. -/
def decodeC5 (P : Params) (op : Byte) (p : Param) : Except DecodeError Instr :=
  if op = P.opcodes.setClockDivisor then .ok (.setClockDivisor p)
  else if op = P.opcodes.setSampleCounts then
    .ok (.setSampleCounts ((p.extractLsb' 0 16).setWidth 32) ((p.extractLsb' 16 16).setWidth 32))
  else if op = P.opcodes.setFlags then .ok (.setFlags (p.extractLsb' 0 4) (p.getLsbD 4))
  else if op = P.opcodes.setTriggerMask then .ok (.setTriggerMask (stageField p) (p.extractLsb' 0 16))
  else if op = P.opcodes.setTriggerValue then .ok (.setTriggerValue (stageField p) (p.extractLsb' 0 16))
  else if op = P.opcodes.setTriggerConfig then .ok (.setTriggerConfig (stageField p) (stageFields p))
  else .error .unknownOpcode

/-- One whole frame in arrival order. Bit 7 of the opcode tells its shape, of an unknown opcode too (R90, R93). -/
def decodeFrame (P : Params) (frame : List Byte) : Except DecodeError Instr :=
  match frame with
  | [op] => if op.getLsbD 7 then .error .malformedFrame else decodeC1 P op
  | [op, b1, b2, b3, b4] => if op.getLsbD 7 then decodeC5 P op (assembleParam b1 b2 b3 b4) else .error .malformedFrame
  | _ => .error .malformedFrame

/-! ### The encoder -/

/-- The slots of a micro-operation, every reserved bit 0 (R81 to R83, R138). A command has none. -/
def encodeSlots : Instr → List Byte
  | .skip n => [0b0000#4 ++ BitVec.ofNat 4 (n - 1)]
  | .matchSingleBit p => [0b0100000#7 ++ BitVec.ofBool p]
  | .matchRun len lit => [0b10000#5 ++ BitVec.ofNat 3 (len - 1), lit]
  | .reset => []
  | .run => []
  | .identify => []
  | .queryMetadata => []
  | .setClockDivisor _ => []
  | .setSampleCounts _ _ => []
  | .setFlags _ _ => []
  | .setTriggerMask _ _ => []
  | .setTriggerValue _ _ => []
  | .setTriggerConfig _ _ => []

/-- A five-byte frame: the opcode, then the parameter, least significant byte first (R66, R90). -/
def frameC5 (op : Byte) (p : Param) : List Byte :=
  [op, p.extractLsb' 0 8, p.extractLsb' 8 8, p.extractLsb' 16 8, p.extractLsb' 24 8]

/-- A stage index as the two bits `P[17:16]` or `P[19:18]` (R92). -/
def stageBits (i : StageIx) : BitVec 2 := BitVec.ofFin i

/-- Mode bit `P[22]`: 0 Parallel, 1 Serial (R92). -/
def modeBit : TriggerMode → BitVec 1
  | .parallel => 0#1
  | .serial => 1#1

/-- The frame of a command, ignored parameter bits 0 (R91, R92). A micro-operation has none. -/
def encodeFrame (P : Params) : Instr → List Byte
  | .skip _ => []
  | .matchSingleBit _ => []
  | .matchRun _ _ => []
  | .reset => [P.opcodes.reset]
  | .run => [P.opcodes.run]
  | .identify => [P.opcodes.identify]
  | .queryMetadata => [P.opcodes.queryMetadata]
  | .setClockDivisor d => frameC5 P.opcodes.setClockDivisor d
  | .setSampleCounts total post =>
    frameC5 P.opcodes.setSampleCounts (post.extractLsb' 0 16 ++ total.extractLsb' 0 16)
  | .setFlags groups rle => frameC5 P.opcodes.setFlags (0#27 ++ BitVec.ofBool rle ++ groups)
  | .setTriggerMask i mask => frameC5 P.opcodes.setTriggerMask (0#14 ++ stageBits i ++ mask)
  | .setTriggerValue i value => frameC5 P.opcodes.setTriggerValue (0#14 ++ stageBits i ++ value)
  | .setTriggerConfig i f =>
    frameC5 P.opcodes.setTriggerConfig
      (0#9 ++ modeBit f.mode ++ BitVec.ofBool f.starts ++ BitVec.ofBool f.nextv ++ stageBits f.next ++ stageBits i ++
        f.delay)

/-- The bytes of an instruction in its own space: slots for a micro-operation, a frame for a command. -/
def encode (P : Params) (i : Instr) : List Byte :=
  if i.isMicro then encodeSlots i else encodeFrame P i

/-! ### The words of spec/opcode_table.json -/

/-- Where the bits of a table word go: into instruction memory as slots, or to the command port as a frame. -/
inductive TableLayout where
  | slots (bytes : List Byte)
  | frame (bytes : List Byte)
deriving DecidableEq, Repr

/-- The bytes of a table word. The table's 16-bit row (`MatchRun`) has the first slot in bits 15:8 and the second in
bits 7:0; every other row has byte j in bits 8j+7:8j, and a 16-bit word that is not of the `MatchRun` pattern is read so
too. An 8-bit word that is a command's opcode is that command: the words 00, 01, 02 and 04 are also `Skip 1`, `Skip 2`,
`Skip 3` and `Skip 5`, in the other address space, and the table numbers both alike (log entry 10). -/
def tableLayout (P : Params) (nbits w : Nat) : TableLayout :=
  let byte := fun j => BitVec.ofNat 8 (w >>> (8 * j))
  if nbits = 16 then
    if opField (byte 1) = 0b10#2 then .slots [byte 1, byte 0] else .slots [byte 0, byte 1]
  else if byte 0 ∈ P.opcodes.c1 then .frame [byte 0]
  else if byte 0 ∈ P.opcodes.c5 then .frame [byte 0, byte 1, byte 2, byte 3, byte 4]
  else if opField (byte 0) = 0b10#2 then .slots [byte 0, byte 1]
  else .slots [byte 0]

/-- The instruction the decoder reads from a table word, with the default parameters: from slots, the one instruction
that takes all of them. -/
def decodeTableWord (nbits w : Nat) : Option Instr :=
  match tableLayout Params.standard nbits w with
  | .slots bs =>
    match decodeSlots Params.standard bs with
    | .ok (i, []) => some i
    | .ok (_, _ :: _) => none
    | .error _ => none
  | .frame bs => (decodeFrame Params.standard bs).toOption

end Sys2Proof
end

