-- ==== Sys2Proof/Machine/Operands.lean ====
section
/-! DEFINITION. The quantities an operation reads: the derived quantities of R47, subtraction on natural numbers, sample
packing (R65), and the bits of `SR` a micro-operation consumes next (R67). -/

namespace Sys2Proof.Machine

/-- `a` - `b` on natural numbers (R8): the difference where there is one, a free value where `b` > `a` (log entry 9). -/
def minus (a b : Nat) : Nat := if b ≤ a then a - b else Config.undefinedDifference a b

/-- popcount of a 4-bit value (R8). -/
def popcount4 (v : BitVec 4) : Nat :=
  (v.getLsbD 0).toNat + (v.getLsbD 1).toNat + (v.getLsbD 2).toNat + (v.getLsbD 3).toNat

/-- `g`, the number of enabled channel groups (R47). -/
def groupCount (groups : BitVec 4) : Nat := popcount4 groups

/-- `SW` = 4·`g` (R47). -/
def sampleWidth (groups : BitVec 4) : Nat := 4 * groupCount groups

/-- `CAP_SAMPLES` = floor(`CAP_NIBBLES` / `g`) (R47). R47 defines it "only for `g` ≥ 1"; with no group enabled there is no
slot (log entry 8). -/
def capSamples (P : Params) (groups : BitVec 4) : Nat :=
  if groupCount groups = 0 then 0 else P.capNibbles / groupCount groups

/-- `g` of the session. -/
def State.groupCount (s : State) : Nat := Machine.groupCount s.cfg.groups

/-- `CAP_SAMPLES` of the session. -/
def State.cap (s : State) : Nat := capSamples s.params s.cfg.groups

/-- `CFGV` as the four bits R192 compares, stage 0 in bit 0. -/
def State.cfgvBits (s : State) : BitVec 4 :=
  BitVec.ofBool s.cfg.stages.s3.cfgv ++ BitVec.ofBool s.cfg.stages.s2.cfgv ++
    BitVec.ofBool s.cfg.stages.s1.cfgv ++ BitVec.ofBool s.cfg.stages.s0.cfgv

/-- `N` = popcount(`CFGV`), the stage count (R47). -/
def State.stageCount (s : State) : Nat := popcount4 s.cfgvBits

/-- `pre` = `TOTAL` - `POST` (R47). -/
def State.pre (s : State) : Nat := minus s.cfg.total.toNat s.cfg.post.toNat

/-- `effPost` = min(`POST`, max(1, `CAP_SAMPLES` - `pre`)) (R47, R175). Where `pre` exceeds `CAP_SAMPLES` the maximum is 1, as
vector V-B5 computes (log entry 16). -/
def State.effPost (s : State) : Nat := min s.cfg.post.toNat (max 1 (s.cap - s.pre))

/-- The nibbles of `p` that belong to enabled groups, lowest-numbered group first (R65). -/
def enabledNibbles (groups : BitVec 4) (p : Word) : List Nibble :=
  ([0, 1, 2, 3] : List Nat).filterMap fun k =>
    if groups.getLsbD k then some (p.extractLsb' (4 * k) 4) else none

/-- Nibbles as one number, the first in the least significant place. -/
def joinNibbles : List Nibble → Word
  | [] => 0
  | n :: ns => n.setWidth 16 ||| (joinNibbles ns <<< 4)

/-- `pack(p)`, zero-extended from `SW` to 16 bits (R65). -/
def pack (groups : BitVec 4) (p : Word) : Word := joinNibbles (enabledNibbles groups p)

/-- `SR[15-POS : 16-POS-L]`, the next L bits of the sampled word as an L-bit number (R113). -/
def Sequencer.nextBits (q : Sequencer) (len : Nat) : BitVec len := q.sr.extractLsb' (16 - q.pos - len) len

end Sys2Proof.Machine
end

