-- ==== Sys2Proof/Machine/Ops.lean ====
section
/-! DEFINITION. The named operations over memories and registers that the meanings share: the two memories, events and
errors, `Discard()`, the ring buffer's `write` and `markTrigger`, and the sequencer's advance. -/

namespace Sys2Proof.Machine

/-! ### A memory of cells -/

/-- What was last written at `a`; `none` where nothing has been written since the last erasure. -/
def Memory.read? {w : Nat} : Memory w → Nat → Option (BitVec w)
  | [], _ => none
  | (k, v) :: m, a => if a = k then some v else Memory.read? m a

/-- Write `v` at `a`, keeping the addresses strictly rising. -/
def Memory.write {w : Nat} : Memory w → Nat → BitVec w → Memory w
  | [], a, v => [(a, v)]
  | (k, x) :: m, a, v =>
    if a < k then (a, v) :: (k, x) :: m
    else if a = k then (a, v) :: m
    else (k, x) :: Memory.write m a v

/-- The canonical form: addresses strictly rising, each below `limit`, the size of the address space (R60). -/
def Memory.wf {w : Nat} (limit : Nat) (m : Memory w) : Bool :=
  decide ((m.map Prod.fst).Pairwise (· < ·)) && m.all (fun c => decide (c.1 < limit))

/-- Write consecutive cells from `a` upward. -/
def Memory.writeList {w : Nat} : Memory w → Nat → List (BitVec w) → Memory w
  | m, _, [] => m
  | m, a, v :: vs => Memory.writeList (Memory.write m a v) (a + 1) vs

/-! ### The instruction memories (R39, R60, R61) -/

/-- What slot `a` of `IMEM[k]` holds: what was last written there, or a free value (R282). -/
def State.imemSlot (s : State) (k : StageIx) (a : Nat) : Byte :=
  (Memory.read? (s.imem.get k) a).getD (Config.unwrittenSlot s.epoch k.val a)

/-- `MemRead(IMEM[k], a, 1)`, a = 0..`B`-1 (R8, R60). -/
def State.imemRead (s : State) (k : StageIx) (a : Nat) : Except Fault Byte :=
  if a < s.params.budget then .ok (s.imemSlot k a) else .error (.noImemSlot a)

/-- The slots `bytes` written into `IMEM[k]` from slot 0, and `PLEN[k]` set to their number (R138). Slots at and above
`PLEN[k]` keep what they held. -/
def State.loadSlots (s : State) (k : StageIx) (bytes : List Byte) : State :=
  { s with
    imem := s.imem.set k (Memory.writeList (s.imem.get k) 0 bytes)
    plen := s.plen.set k bytes.length }

/-! ### The sample store (R41, R60, R62, R64) -/

/-- Nibble `q` of the sample store: what was last written there, or a free value (R282). -/
def State.nibble (s : State) (q : Nat) : Nibble :=
  (Memory.read? s.buf q).getD (Config.unwrittenNibble s.epoch q)

/-- Byte `a` of the sample store: nibble 2a in bits [3:0], nibble 2a+1 in bits [7:4] (R64). -/
def State.storeByte (s : State) (a : Nat) : Byte := s.nibble (2 * a + 1) ++ s.nibble (2 * a)

/-- The nibbles `base` .. `base` + n - 1 of the sample store, lowest first. -/
def State.nibbles (s : State) (base : Nat) : Nat → List Nibble
  | 0 => []
  | n + 1 => s.nibble base :: State.nibbles s (base + 1) n

/-- What `BUF[slot]` holds, zero-extended from `SW` to 16 bits: nibbles `slot·g` to `slot·g + g - 1`, of which nibble
`slot·g + j` is bits [4j+3:4j] (R64). -/
def State.sampleAt (s : State) (slot : Nat) : Word := joinNibbles (s.nibbles (slot * s.groupCount) s.groupCount)

/-- The first n nibbles of a packed sample, bits [4j+3:4j] for j = 0..n-1 (R64). -/
def splitNibbles (v : Word) : Nat → List Nibble
  | 0 => []
  | n + 1 => v.extractLsb' 0 4 :: splitNibbles (v >>> 4) n

/-- `MemWrite(BUF, slot, 1, v)` (R8, R64). -/
def State.putSample (s : State) (slot : Nat) (v : Word) : State :=
  { s with buf := Memory.writeList s.buf (slot * s.groupCount) (splitNibbles v s.groupCount) }

/-! ### Events, errors and the end of a session -/

/-- `emit EVT_x`: append the pulse to the step's event list (R8, R257). -/
def State.emit (s : State) (e : Event) : State :=
  { s with ports := { s.ports with events := s.ports.events ++ [e] } }

/-- The read port returns `r` (R201, R202). -/
def State.respond (s : State) (r : Reply) : State := { s with ports := { s.ports with reply := some r } }

/-- `STATE` <- `q`. -/
def State.setCtl (s : State) (q : CtlState) : State := { s with ctl := { s.ctl with state := q } }

/-- `raise <Error>`, the block's exception entry: `ERR` <- the code, emit `EVT_ERR` (R250); an error saves nothing and
vectors nowhere (R264). HardwareFault also sets `STATE` <- `Fault`, `CLKEN` <- 0 (R206, R255). -/
def State.raiseError (s : State) (e : ErrCode) : State :=
  let recorded := { s with ctl := { s.ctl with err := e } }.emit .err
  if e = .hardwareFault then { recorded with ctl := { recorded.ctl with state := .fault, clken := false } }
  else recorded

/-- Every register of R281 at its reset value, and both memories unspecified (R282): what power-on reset (R280) and
`Discard()` (R203) have in common (R283). It is the only return from an error that clears `ERR` beside a successful
`Run` (R265). The parameters, the ports and the working registers of R40 are not registers of R281. -/
def State.resetRegisters (s : State) : State :=
  { s with
    cfg := Session.reset
    ctl := Controller.reset
    chain := Chain.reset
    imem := Four.all []
    plen := Four.all 0
    ring := Ring.reset
    buf := []
    epoch := s.epoch + 1 }

/-- `Discard()` (R203). It emits no event. -/
def State.discardSession (s : State) : State := s.resetRegisters

/-- Power-on reset (R280): the reset values from any state, `Fault` included; no event. -/
def State.powerOnReset (s : State) : State := s.resetRegisters

/-! ### The ring buffer's write side (R171 to R174) -/

/-- `write(v)`: the store, `WR` <- (`WR` + 1) mod `CAP_SAMPLES`, `EVT_WRAP` when that is 0, `FILL` counting up to
`CAP_SAMPLES` (R171 to R173). -/
def State.writeSample (s : State) (v : Word) : State :=
  let stored := s.putSample s.ring.wr v
  let moved := { stored with
    ring := { stored.ring with wr := (s.ring.wr + 1) % s.cap, fill := min (s.ring.fill + 1) s.cap } }
  if moved.ring.wr = 0 then moved.emit .wrap else moved

/-- `markTrigger()`: `TRIG` <- `WR`, `TRIGV` <- 1 (R174). -/
def State.markTrigger (s : State) : State :=
  { s with ring := { s.ring with trig := s.ring.wr, trigv := true } }

/-! ### The sequencer's working registers (R40, R110) -/

/-- The start of an evaluation: `SR` <- the word, `POS` <- 0, `UPC` <- 0 (R110). -/
def State.startEval (s : State) (w : Word) : State :=
  { s with seq := { sr := w, pos := 0, upc := 0, result := none } }

/-- `POS` <- `POS` + `bits`; `UPC` <- `UPC` + `slots`. -/
def State.advance (s : State) (bits slots : Nat) : State :=
  { s with seq := { s.seq with pos := s.seq.pos + bits, upc := s.seq.upc + slots } }

/-- The evaluation ends with `r`; `POS` and `UPC` stay at the instruction that ended it. -/
def State.endEval (s : State) (r : EvalResult) : State := { s with seq := { s.seq with result := some r } }

/-! ### Configuration writes (R51) -/

/-- A configuration command acts only in `Idle` and is discarded in every other state (R51, R220). -/
def State.configure (s : State) (f : Session → Session) : State :=
  if s.ctl.state = .idle then { s with cfg := f s.cfg } else s

/-- The configuration with stage `i` changed by `f`. -/
def Session.updateStage (c : Session) (i : StageIx) (f : StageCfg → StageCfg) : Session :=
  { c with stages := c.stages.set i (f (c.stages.get i)) }

/-! ### Outcomes in sequence -/

/-- Go on with `f` from a next state; a fault or a refusal ends the step. -/
def andThen (o : Host.Outcome State Fault Refusal) (f : State → Host.Outcome State Fault Refusal) :
    Host.Outcome State Fault Refusal :=
  match o with
  | .next s => f s
  | .fault r => .fault r
  | .refused r => .refused r

end Sys2Proof.Machine
end

