-- ==== Sys2Proof/Machine/Configure.lean ====
section
/-! DEFINITION. The configuration commands (R225 to R230), each over the one operation that writes the configuration
(R51). -/

namespace Sys2Proof.Machine

/-- `SetClockDivisor` (R225). -/
def execSetClockDivisor (divisor : BitVec 32) (s : State) : Host.Outcome State Fault Refusal :=
  .next (s.configure fun c => { c with divisor := divisor })

/-- `SetSampleCounts` (R226): both registers together. -/
def execSetSampleCounts (total post : BitVec 32) (s : State) : Host.Outcome State Fault Refusal :=
  .next (s.configure fun c => { c with total := total, post := post })

/-- `SetFlags` (R227). -/
def execSetFlags (groups : BitVec 4) (rle : Bool) (s : State) : Host.Outcome State Fault Refusal :=
  .next (s.configure fun c => { c with groups := groups, rle := rle })

/-- `SetTriggerMask` (R228); it does not set `CFGV`. -/
def execSetTriggerMask (stage : StageIx) (mask : Word) (s : State) : Host.Outcome State Fault Refusal :=
  .next (s.configure fun c => c.updateStage stage fun st => { st with mask := mask })

/-- `SetTriggerValue` (R229); it does not set `CFGV`. -/
def execSetTriggerValue (stage : StageIx) (value : Word) (s : State) : Host.Outcome State Fault Refusal :=
  .next (s.configure fun c => c.updateStage stage fun st => { st with value := value })

/-- `SetTriggerConfig` (R230); it sets `CFGV` of its stage. -/
def execSetTriggerConfig (stage : StageIx) (f : StageFields) (s : State) : Host.Outcome State Fault Refusal :=
  .next (s.configure fun c => c.updateStage stage fun st =>
    { st with delay := f.delay, next := f.next, nextv := f.nextv, starts := f.starts, mode := f.mode, cfgv := true })

end Sys2Proof.Machine
end

