-- ==== Sys2Proof/Machine/Compiler.lean ====
section
/-! DEFINITION. The BitPatternCompiler and the loader (41_compiler.md), and the assembler's lines (30_encoding.md).
Positions are counted as `r`, the number of bits still to be scanned, so the bit at hand is bit r - 1. -/

namespace Sys2Proof.Machine

/-- The length of the maximal run of positions r-1, r-2, ... whose mask bit is `b` (R132). -/
def runLength (mask : Word) (b : Bool) : Nat → Nat
  | 0 => 0
  | r + 1 => if mask.getLsbD r = b then runLength mask b r + 1 else 0

/-- A run of n compared bits from position r-1 down: pieces of `LMAX` from the most significant end, a last piece of one
bit as `MatchSingleBit` (R134, R135). `fuel` bounds the number of pieces; n is enough. -/
def compileCompared (lmax : Nat) (value : Word) : (fuel r n : Nat) → List Instr
  | 0, _, _ => []
  | fuel + 1, r, n =>
    if n = 0 then []
    else if n = 1 then [.matchSingleBit (value.getLsbD (r - 1))]
    else
      let len := min n lmax
      .matchRun len ((value.extractLsb' (r - len) len).setWidth 8) :: compileCompared lmax value fuel (r - len) (n - len)

/-- The scan of R132 from position r-1 down to bit 0, one maximal run after another. `fuel` bounds the number of runs; r
is enough. -/
def compileFrom (lmax : Nat) (mask value : Word) : (fuel r : Nat) → List Instr
  | 0, _ => []
  | fuel + 1, r =>
    if r = 0 then []
    else
      let n := runLength mask (mask.getLsbD (r - 1)) r
      if mask.getLsbD (r - 1) then compileCompared lmax value n r n ++ compileFrom lmax mask value fuel (r - n)
      else .skip n :: compileFrom lmax mask value fuel (r - n)

/-- `compile(mask, value)` (R130 to R135): the empty program for an all-zero mask (R131), else the scan from bit 15. -/
def compile (lmax : Nat) (mask value : Word) : List Instr :=
  if mask = 0#16 then [] else compileFrom lmax mask value 16 16

/-- The cost of one micro-operation in slots (R136); a command is never in a program. -/
def opCost : Instr → Nat
  | .skip _ => 1
  | .matchSingleBit _ => 1
  | .matchRun _ _ => 2
  | .reset => 0
  | .run => 0
  | .identify => 0
  | .queryMetadata => 0
  | .setClockDivisor _ => 0
  | .setSampleCounts _ _ => 0
  | .setFlags _ _ => 0
  | .setTriggerMask _ _ => 0
  | .setTriggerValue _ _ => 0
  | .setTriggerConfig _ _ => 0

/-- The cost of a program in slots (R136). -/
def cost : List Instr → Nat
  | [] => 0
  | op :: ops => opCost op + cost ops

/-- The bits of the sampled word one micro-operation consumes (R137 a). -/
def bitsConsumed : Instr → Nat
  | .skip n => n
  | .matchSingleBit _ => 1
  | .matchRun len _ => len
  | .reset => 0
  | .run => 0
  | .identify => 0
  | .queryMetadata => 0
  | .setClockDivisor _ => 0
  | .setSampleCounts _ _ => 0
  | .setFlags _ _ => 0
  | .setTriggerMask _ _ => 0
  | .setTriggerValue _ _ => 0
  | .setTriggerConfig _ _ => 0

/-- The slots of a program, each instruction encoded by R81 to R83 (R138). -/
def assemble : List Instr → List Byte
  | [] => []
  | op :: ops => encodeSlots op ++ assemble ops

/-- `load(k, ops)` (R138). -/
def State.load (s : State) (k : StageIx) (ops : List Instr) : State := s.loadSlots k (assemble ops)

/-! ### The assembler's lines (R94, R95) -/

/-- One line of assembler text: a micro-operation, or the pseudo-instruction `Trigger mask, value`. The characters of a
`MatchRun` string stand in the order they are compared. -/
inductive AsmLine where
  | skip (n : Nat)
  | matchSingleBit (p : Bool)
  | matchRun (bits : List Bool)
  | trigger (mask value : Word)
deriving DecidableEq, Repr

/-- A string of binary digits read as a number, the first the most significant (R94). -/
def bitsNumber (bits : List Bool) : Nat := bits.foldl (fun n b => 2 * n + b.toNat) 0

/-- The instructions a line stands for; `Trigger` stands for `compile(mask, value)` (R95). -/
def assembleLine (lmax : Nat) : AsmLine → List Instr
  | .skip n => [.skip n]
  | .matchSingleBit p => [.matchSingleBit p]
  | .matchRun bits => [.matchRun bits.length (BitVec.ofNat 8 (bitsNumber bits))]
  | .trigger mask value => compile lmax mask value

/-- A binary digit as text. -/
def digitText (b : Bool) : String := if b then "1" else "0"

/-- The text of a line (R94, R95). -/
def lineText : AsmLine → String
  | .skip n => "Skip " ++ toString n
  | .matchSingleBit p => "MatchSingleBit " ++ digitText p
  | .matchRun bits => "MatchRun \"" ++ String.join (bits.map digitText) ++ "\""
  | .trigger mask value => "Trigger " ++ toString mask.toNat ++ ", " ++ toString value.toNat

/-- A host command as text: its mnemonic with its fields by name (R94); `none` for a micro-operation. The field names are
those of R94's example and R92's registers (log entry 22). -/
def commandText : Instr → Option String
  | .skip _ => none
  | .matchSingleBit _ => none
  | .matchRun _ _ => none
  | .reset => some "Reset"
  | .run => some "Run"
  | .identify => some "Identify"
  | .queryMetadata => some "QueryMetadata"
  | .setClockDivisor d => some ("SetClockDivisor divisor=" ++ toString d.toNat)
  | .setSampleCounts total post =>
    some ("SetSampleCounts total=" ++ toString total.toNat ++ " post=" ++ toString post.toNat)
  | .setFlags groups rle => some ("SetFlags groups=" ++ toString groups.toNat ++ " rle=" ++ digitText rle)
  | .setTriggerMask i mask => some ("SetTriggerMask stage=" ++ toString i.val ++ " mask=" ++ toString mask.toNat)
  | .setTriggerValue i value => some ("SetTriggerValue stage=" ++ toString i.val ++ " value=" ++ toString value.toNat)
  | .setTriggerConfig i f =>
    some ("SetTriggerConfig stage=" ++ toString i.val ++ " delay=" ++ toString f.delay.toNat ++
      " next=" ++ (if f.nextv then toString f.next.val else "none") ++ " starts=" ++ digitText f.starts ++
      " mode=" ++ (match f.mode with | .parallel => "parallel" | .serial => "serial"))

end Sys2Proof.Machine
end

