-- ==== Sys2Proof/Machine/Control.lean ====
section
/-! DEFINITION. The one-byte commands: `Reset`, `Run`, `Identify`, `QueryMetadata` (R221 to R224), with the validation,
compilation and arming of `Run` (R192 to R194). -/

namespace Sys2Proof.Machine

/-! ### `Run` (R192 to R194) -/

/-- The walk of R192 (d) from stage i: it succeeds at a stage with `STARTS` = 1; from any other it goes on to i + 1, which
must be the stage's valid successor and below `N`. `fuel` bounds the number of stages; 4 is enough. -/
def captureReachable (c : Session) (n : Nat) : (fuel : Nat) → StageIx → Bool
  | 0, _ => false
  | fuel + 1, i =>
    let st := c.stages.get i
    if st.starts then true
    else if !st.nextv then false
    else if st.next.val ≠ i.val + 1 ∨ n ≤ st.next.val then false
    else captureReachable c n fuel st.next

/-- `MODE[i]` = 0 for every i < `N` (R192 c). -/
def parallelBelow (c : Session) (n : Nat) : Bool :=
  ([0, 1, 2, 3] : List StageIx).all fun i => decide (n ≤ i.val) || decide ((c.stages.get i).mode = .parallel)

/-- `Validate()` (R192), its checks in R192's order (a) to (h). -/
def State.validate (s : State) : Bool :=
  if s.groupCount = 0 then false
  else if s.stageCount = 0 then false
  else if s.cfgvBits.toNat ≠ 2 ^ s.stageCount - 1 then false
  else if !parallelBelow s.cfg s.stageCount then false
  else if !captureReachable s.cfg s.stageCount 4 0 then false
  else if s.cfg.total.toNat = 0 ∨ s.cfg.post.toNat = 0 then false
  else if s.cfg.total.toNat < s.cfg.post.toNat then false
  else if s.cap < s.cfg.post.toNat then false
  else true

/-- `ops_i` = `compile(MASK[i], VALUE[i])` (R193). -/
def State.stageProgram (s : State) (i : StageIx) : List Instr :=
  compile s.params.lmax (s.cfg.stages.get i).mask (s.cfg.stages.get i).value

/-- Some configured stage costs more than `B` slots (R193). -/
def State.overBudget (s : State) : Bool :=
  ([0, 1, 2, 3] : List StageIx).any fun i =>
    decide (i.val < s.stageCount) && decide (s.params.budget < cost (s.stageProgram i))

/-- `load(i, ops_i)` for the configured stages among `is` (R194). -/
def State.loadStages (s : State) : List StageIx → State
  | [] => s
  | i :: is =>
    if i.val < s.stageCount then State.loadStages (s.load i (s.stageProgram i)) is
    else State.loadStages s is

/-- Arming (R194), after the programs are loaded. -/
def State.arm (s : State) : State :=
  { s with
    ctl := { state := .armed, clken := true, err := .none, trunc := false }
    chain := { stage := 0, settle := 0 }
    ring := { s.ring with wr := 0, fill := 0, trigv := false } }

/-- `Run` in `Idle`: validate, compile, arm (R192 to R194). -/
def State.runSession (s : State) : State :=
  if !s.validate then s.raiseError .invalidConfiguration
  else if s.overBudget then s.raiseError .compileOverflow
  else (s.loadStages [0, 1, 2, 3]).arm

/-! ### The commands -/

/-- `Reset` (R204, R221): `Discard()` in every state but `Fault`, where it is discarded. -/
def execReset (s : State) : Host.Outcome State Fault Refusal :=
  if s.ctl.state = .fault then .next s else .next s.discardSession

/-- `Run` (R222): it acts only in `Idle` and is discarded in every other state (R192). -/
def execRun (s : State) : Host.Outcome State Fault Refusal :=
  if s.ctl.state = .idle then .next s.runSession else .next s

/-- `Identify` (R223): no effect on the block, in every state. -/
def execIdentify (s : State) : Host.Outcome State Fault Refusal := .next s

/-- `QueryMetadata` (R224): no effect on the block, in every state. -/
def execQueryMetadata (s : State) : Host.Outcome State Fault Refusal := .next s

end Sys2Proof.Machine
end

