-- ==== Sys2Proof/Machine/Flags.lean ====
section
/-! DEFINITION. The flag computations of the block: whether a compare fails (R112, R113), whether an instruction would
consume past bit 0 (R114), `TRUNC` (R177), and the level outputs (R48). -/

namespace Sys2Proof.Machine

/-- The instruction would consume bits beyond the 16th: `POS` + n > 16 (R111 to R114). -/
def Sequencer.overrun (q : Sequencer) (n : Nat) : Bool := decide (16 < q.pos + n)

/-- `SR[15-POS]` differs from `p` (R112). -/
def Sequencer.bitDiffers (q : Sequencer) (p : Bool) : Bool := q.sr.getLsbD (15 - q.pos) != p

/-- The next L bits of `SR` differ from the literal in some position (R113). -/
def Sequencer.runDiffers (q : Sequencer) (len : Nat) (lit : Byte) : Bool := q.nextBits len != lit.setWidth len

/-- `TRUNC` after `BeginRead`: fewer than `TOTAL` samples will be delivered (R36, R177). -/
def truncFlag (remain total : Nat) : Bool := decide (remain < total)

/-- The level outputs, "each the current value of the register of the same name" (R48). -/
structure LevelOutputs where
  state   : BitVec 3
  clken   : Bool
  divisor : BitVec 32
  err     : BitVec 3
  trunc   : Bool
  rle     : Bool
  groups  : BitVec 4
deriving DecidableEq, Repr

/-- What stands on the level outputs in state `s` (R48), with the encodings of R33 and R35. -/
def State.levelOutputs (s : State) : LevelOutputs where
  state := s.ctl.state.code
  clken := s.ctl.clken
  divisor := s.cfg.divisor
  err := s.ctl.err.code
  trunc := s.ctl.trunc
  rle := s.cfg.rle
  groups := s.cfg.groups

end Sys2Proof.Machine
end

