-- ==== Sys2Proof/Machine/Sequencer.lean ====
section
/-! DEFINITION. The three micro-operations (R111 to R113). Each acts on the working registers alone; the encodings that
stall are refused by the decoder (R86), the stall of over-consumption is here (R114). A stall, like a mismatch, ends the
evaluation; the tick rule turns it into HardwareFault (R114, R196). -/

namespace Sys2Proof.Machine

/-- `Skip n` (R111). -/
def execSkip (n : Nat) (s : State) : Host.Outcome State Fault Refusal :=
  if s.seq.overrun n then .next (s.endEval .stall)
  else .next (s.advance n 1)

/-- `MatchSingleBit p` (R112). -/
def execMatchSingleBit (p : Bool) (s : State) : Host.Outcome State Fault Refusal :=
  if s.seq.overrun 1 then .next (s.endEval .stall)
  else if s.seq.bitDiffers p then .next (s.endEval .noMatch)
  else .next (s.advance 1 1)

/-- `MatchRun`, L bits against the literal (R113). -/
def execMatchRun (len : Nat) (lit : Byte) (s : State) : Host.Outcome State Fault Refusal :=
  if s.seq.overrun len then .next (s.endEval .stall)
  else if s.seq.runDiffers len lit then .next (s.endEval .noMatch)
  else .next (s.advance len 2)

end Sys2Proof.Machine
end

