-- ==== Sys2Proof/Machine/Dispatch.lean ====
section
/-! DEFINITION. One arm per instruction. -/

namespace Sys2Proof.Machine

/-- The effect of one instruction on the block. -/
def exec (i : Instr) (s : State) : Host.Outcome State Fault Refusal :=
  match i with
  | .skip n => Sys2Proof.Machine.execSkip n s
  | .matchSingleBit p => Sys2Proof.Machine.execMatchSingleBit p s
  | .matchRun len lit => Sys2Proof.Machine.execMatchRun len lit s
  | .reset => Sys2Proof.Machine.execReset s
  | .run => Sys2Proof.Machine.execRun s
  | .identify => Sys2Proof.Machine.execIdentify s
  | .queryMetadata => Sys2Proof.Machine.execQueryMetadata s
  | .setClockDivisor divisor => Sys2Proof.Machine.execSetClockDivisor divisor s
  | .setSampleCounts total post => Sys2Proof.Machine.execSetSampleCounts total post s
  | .setFlags groups rle => Sys2Proof.Machine.execSetFlags groups rle s
  | .setTriggerMask stage mask => Sys2Proof.Machine.execSetTriggerMask stage mask s
  | .setTriggerValue stage value => Sys2Proof.Machine.execSetTriggerValue stage value s
  | .setTriggerConfig stage f => Sys2Proof.Machine.execSetTriggerConfig stage f s

end Sys2Proof.Machine
end

