-- ==== Sys2Proof/Machine/ReadPort.lean ====
section
/-! DEFINITION. The read port: `BeginRead` (R176, R177, R201, R232) and `ReadNext` (R178, R202, R233). -/

namespace Sys2Proof.Machine

/-- `d` = min(`pre`, `FILL` - `p`), the pretrigger samples that are delivered (R176). -/
def State.historyCount (s : State) : Nat := min s.pre (minus s.ring.fill s.effPost)

/-- The window of R176: `RD` <- (`TRIG` - `d`) mod `CAP_SAMPLES` with R8's mod, `REMAIN` <- `d` + `p`. -/
def State.openWindow (s : State) : State :=
  { s with
    ring := { s.ring with
      rd := (((s.ring.trig : Int) - (s.historyCount : Int)) % (s.cap : Int)).toNat
      remain := s.historyCount + s.effPost } }

/-- `TRUNC`, and InsufficientHistory where it is 1 (R177, R253); the readback proceeds either way. -/
def State.flagTruncation (s : State) : State :=
  let short := truncFlag s.ring.remain s.cfg.total.toNat
  let flagged := { s with ctl := { s.ctl with trunc := short } }
  if short then flagged.raiseError .insufficientHistory else flagged

/-- `BeginRead` (R201): in `Captured` the window is computed, `STATE` <- `Streaming`, and (`REMAIN`, `TRUNC`) is returned;
discarded in every other state. With no slot in `BUF` there is no window (log entry 8). -/
def beginRead (s : State) : Host.Outcome State Fault Refusal :=
  if s.ctl.state = .captured then
    if s.cap = 0 then .fault (.noBufSlot s.ring.trig)
    else
      let opened := s.openWindow.flagTruncation.setCtl .streaming
      .next (opened.respond (.window opened.ring.remain opened.ctl.trunc))
  else .next s

/-- The cursor's part of `readNext()`: `RD` <- (`RD` + 1) mod `CAP_SAMPLES`, `REMAIN` <- `REMAIN` - 1 (R178). -/
def State.stepCursor (s : State) : State :=
  { s with ring := { s.ring with rd := (s.ring.rd + 1) % s.cap, remain := minus s.ring.remain 1 } }

/-- `ReadNext` (R202): in `Streaming` the sample at `RD` is returned and the cursor steps; when `REMAIN` is then 0 the
session ends by `Discard()`. Discarded in every other state. -/
def readNext (s : State) : Host.Outcome State Fault Refusal :=
  if s.ctl.state = .streaming then
    if s.ring.rd < s.cap then
      let stepped := s.stepCursor
      let ended := if stepped.ring.remain = 0 then stepped.discardSession else stepped
      .next (ended.respond (.sample (sampleWidth s.cfg.groups) (s.sampleAt s.ring.rd)))
    else .fault (.noBufSlot s.ring.rd)
  else .next s

end Sys2Proof.Machine
end

