-- ==== Sys2Proof/Machine/Tick.lean ====
section
/-! DEFINITION. The sample tick (R195 to R198, R205): fetch and evaluation of the active stage's program (R110), the
stage chain (R152 to R158), the buffer write and the countdown. -/

namespace Sys2Proof.Machine

/-! ### Program evaluation (R110) -/

/-- Fetch and decode the instruction at `UPC` of stage k. The slot after the first is read only for an instruction that
has one (R87) and only where the program has one (R113); `.ok none` is an illegal encoding (R86, R114). -/
def State.fetchMicro (s : State) (k : StageIx) : Except Fault (Option Instr) :=
  match s.imemRead k s.seq.upc with
  | .error e => .error e
  | .ok b0 =>
    if slotCount b0 = 2 ∧ s.seq.upc + 1 < s.plen.get k then
      match s.imemRead k (s.seq.upc + 1) with
      | .error e => .error e
      | .ok b1 => .ok (decodeMicro s.params b0 (some b1)).toOption
    else .ok (decodeMicro s.params b0 none).toOption

/-- The loop of R110 from the current `UPC`: the end of the program is a match; an illegal encoding stalls; otherwise the
instruction runs by `exec` and the loop goes on while it has not ended the evaluation. `fuel` bounds the number of
instructions; every one advances `UPC`, so `PLEN` + 1 is enough (log entry 15). -/
def evalLoop (k : StageIx) : (fuel : Nat) → State → Host.Outcome State Fault Refusal
  | 0, s => .next (s.endEval .stall)
  | fuel + 1, s =>
    if s.plen.get k ≤ s.seq.upc then .next (s.endEval .matched)
    else
      match s.fetchMicro k with
      | .error e => .fault e
      | .ok none => .next (s.endEval .stall)
      | .ok (some i) => andThen (exec i s) fun s' => if s'.seq.result = none then evalLoop k fuel s' else .next s'

/-- `Eval(k, w)` (R110, R115): from `POS` = 0 and `UPC` = 0 on the word `w`; `seq.result` of the next state is the result. -/
def evalStage (k : StageIx) (w : Word) (s : State) : Host.Outcome State Fault Refusal :=
  evalLoop k (s.plen.get k + 1) (s.startEval w)

/-! ### The stage chain (R152 to R158) -/

/-- What the chain tells the controller at a tick. -/
inductive ChainSignal where
  | quiet
  | fire
  | stall
deriving DecidableEq, Repr

/-- The chain's step on a match (R154 to R156, R158). -/
def State.chainMatched (s : State) : State × ChainSignal :=
  let st := s.cfg.stages.get s.chain.stage
  if s.chain.settle < st.delay then
    ({ s with chain := { s.chain with settle := s.chain.settle + 1 } }, .quiet)
  else if st.starts then (s, .fire)
  else if st.nextv then ({ s with chain := { stage := st.next, settle := 0 } }, .quiet)
  else (s, .quiet)

/-- The chain's step on the result of the evaluation (R153 to R158); an evaluation that has no result is none. -/
def State.chainDecide (s : State) : State × ChainSignal :=
  match s.seq.result with
  | some .matched => s.chainMatched
  | some .noMatch => (s, .quiet)
  | some .stall => (s, .stall)
  | none => (s, .stall)

/-! ### The tick rule (R196) -/

/-- Step (5) of R196, with R198: the countdown and the entry to `Captured`. -/
def State.countDown (s : State) : State :=
  if s.ctl.state = .postTrigger then
    let counted := { s with
      ring := { s.ring with countdown := BitVec.ofNat 32 (minus s.ring.countdown.toNat 1) } }
    if counted.ring.countdown = 0#32 then
      { counted with ctl := { counted.ctl with state := .captured, clken := false } }.emit .done
    else counted
  else s

/-- Steps (4) and (5) of R196: `write(pack(p))`, then the countdown. A slot at or beyond `CAP_SAMPLES` does not exist
(R60). -/
def storeSample (p : Word) (s : State) : Host.Outcome State Fault Refusal :=
  if s.ring.wr < s.cap then .next (s.writeSample (pack s.cfg.groups p)).countDown
  else .fault (.noBufSlot s.ring.wr)

/-- The chain fires: `markTrigger()`, `COUNTDOWN` <- `effPost`, `STATE` <- `PostTrigger`, `EVT_TRIG` (R197). -/
def State.fire (s : State) : State :=
  let marked := s.markTrigger
  (({ marked with ring := { marked.ring with countdown := BitVec.ofNat 32 s.effPost } }).setCtl .postTrigger).emit .trig

/-- Step (3) of R196 in `Capturing`, then steps (4) and (5); a stall ends the step without writing the sample. -/
def captureTick (p : Word) (s : State) : Host.Outcome State Fault Refusal :=
  andThen (evalStage s.chain.stage p s) fun evaluated =>
    match evaluated.chainDecide with
    | (s', .stall) => .next (s'.raiseError .hardwareFault)
    | (s', .fire) => storeSample p s'.fire
    | (s', .quiet) => storeSample p s'

/-- A tick is taken with `CLKEN` = 1 in `Armed`, `Capturing` and `PostTrigger`; any other is discarded (R205, R209). -/
def State.sampling (s : State) : Bool :=
  s.ctl.clken &&
    (decide (s.ctl.state = .armed) || decide (s.ctl.state = .capturing) || decide (s.ctl.state = .postTrigger))

/-- The tick rule (R195, R196). -/
def tick (p : Word) (s : State) : Host.Outcome State Fault Refusal :=
  if s.sampling then
    if s.ctl.state = .postTrigger then storeSample p s else captureTick p (s.setCtl .capturing)
  else .next s

end Sys2Proof.Machine
end

