-- ==== Sys2Proof/Machine/Inputs.lean ====
section
/-! DEFINITION. How an input reaches the block: the command port decodes a frame and runs it (R220, R231), a tick, the
read port and power-on reset go to their rules (R6); and where a word of the opcode table is placed so that the next step
runs it. -/

namespace Sys2Proof.Machine

/-- The start of a step: the pulses and the read-port result of the step before are gone (R257, R262). -/
def State.clearOutputs (s : State) : State := { s with ports := { s.ports with events := [], reply := none } }

/-- The start of a step that takes an input: the input leaves the queue. -/
def State.takeInput (s : State) : State :=
  { s with ports := { inbox := s.ports.inbox.tail, events := [], reply := none } }

/-- A frame at the command port (R220): decoded and run; unknown and malformed ones are discarded (R231, R254). -/
def command (bytes : List Byte) (s : State) : Host.Outcome State Fault Refusal :=
  match decodeFrame s.params bytes with
  | .ok i => exec i s
  | .error _ => .next s

/-- One step of an agent (R6). -/
def receive (i : Input) (s : State) : Host.Outcome State Fault Refusal :=
  match i with
  | .tick pins => tick pins s
  | .frame bytes => command bytes s
  | .beginRead => beginRead s
  | .readNext => readNext s
  | .powerOn => .next s.powerOnReset

/-- One step of the machine: the first pending input is taken; with none pending nothing happens (log entry 2). -/
def stepInput (s : State) : Host.Outcome State Fault Refusal :=
  match s.ports.inbox with
  | [] => .next s.clearOutputs
  | i :: _ => receive i s.takeInput

/-- `bytes` as the program of the active stage, with a tick pending that takes the block into an evaluation of it (log
entry 11). -/
def State.placeSlots (s : State) (bytes : List Byte) : State :=
  { s.loadSlots s.chain.stage bytes with
    ctl := { s.ctl with state := .capturing, clken := true }
    ports := { s.ports with inbox := .tick 0#16 :: s.ports.inbox } }

/-- `bytes` as the next frame at the command port. -/
def State.placeFrame (s : State) (bytes : List Byte) : State :=
  { s with ports := { s.ports with inbox := .frame bytes :: s.ports.inbox } }

/-- A word of the opcode table where the next step takes it from. -/
def State.placeTableWord (s : State) (nbits w : Nat) : State :=
  match tableLayout s.params nbits w with
  | .slots bytes => s.placeSlots bytes
  | .frame bytes => s.placeFrame bytes

end Sys2Proof.Machine
end

