-- ==== Sys2Proof/Machine/Step.lean ====
section
/-! DEFINITION. The step of the machine, and the placement of a table word for it to run next. -/

namespace Sys2Proof.Machine

/-- One step: one atomic step of one agent (R6), the one whose input is first in the queue. -/
def step (s : State) : Host.Outcome State Fault Refusal := stepInput s

/-- `s` with the instruction of a word of spec/opcode_table.json placed where the next step takes it from: a
micro-operation as the active stage's program with a tick pending, a command as the pending frame (log entries 10, 11). -/
def State.withFetchWord (s : State) (nbits w : Nat) : State := s.placeTableWord nbits w

end Sys2Proof.Machine
end

