-- ==== Sys2Proof/Safety.lean ====
section
/-! DEFINITION. What counts as a safe run: the invariant of every state a run from reset reaches, the weaker one that
holds of every state with its registers in step with each other, the samples a session has recorded, and what a host
sees of several steps. -/

namespace Sys2Proof.Machine

/-! ### The invariants -/

/-- The sampler's states: `CLKEN` = 1 exactly in these (R34). -/
def CtlState.clocked : CtlState → Bool
  | .armed => true
  | .capturing => true
  | .postTrigger => true
  | .idle => false
  | .captured => false
  | .streaming => false
  | .fault => false

/-- Both memories are in canonical form and within their address spaces (R60). -/
def State.MemoryOk (s : State) : Prop :=
  (∀ k, Memory.wf s.params.budget (s.imem.get k) = true) ∧ Memory.wf s.params.capNibbles s.buf = true

/-- What the controller registers keep between them in every state, `Fault` included: `CLKEN` (R34), the values `ERR` never
holds (R35) and when it holds 5 (R206), `TRUNC` (R36). -/
structure State.Consistent (s : State) : Prop where
  legal : s.params.legal = true
  memory : s.MemoryOk
  clock : s.ctl.clken = s.ctl.state.clocked
  malformed : s.ctl.err ≠ .malformedCommand
  faultCode : s.ctl.state = .fault ↔ s.ctl.err = .hardwareFault
  truncated : s.ctl.trunc = true → s.ctl.state = .streaming

/-- Stage i's instruction memory holds the program compiled from its mask and value, within the budget (R138, R193). -/
def State.StageLoaded (s : State) (i : StageIx) : Prop :=
  s.plen.get i = (assemble (s.stageProgram i)).length ∧ (assemble (s.stageProgram i)).length ≤ s.params.budget ∧
    ∀ a b, (assemble (s.stageProgram i))[a]? = some b → Memory.read? (s.imem.get i) a = some b

/-- The slots `FILL` counts have been written since arming (R173, R183). -/
def State.FilledWritten (s : State) : Prop :=
  ∀ slot j, slot < s.ring.fill → j < s.groupCount → (Memory.read? s.buf (slot * s.groupCount + j)).isSome

/-- What holds of an armed session, from `Run` to the return to `Idle`: the configuration that `Run` validated (R207), its
programs, an active stage from which the walk reaches a capture stage (R158), `SETTLE` within `DELAY` (R38), the cursors
within the buffer (R42, R43). -/
structure State.SessionOk (s : State) : Prop where
  valid : s.validate = true
  loaded : ∀ i : StageIx, i.val < s.stageCount → s.StageLoaded i
  stage : s.chain.stage.val < s.stageCount
  reach : ∃ fuel, captureReachable s.cfg s.stageCount fuel s.chain.stage = true
  settle : s.chain.settle ≤ (s.cfg.stages.get s.chain.stage).delay
  cursor : s.ring.wr < s.cap
  filled : s.ring.fill ≤ s.cap
  unwrapped : s.ring.fill < s.cap → s.ring.wr = s.ring.fill
  written : s.FilledWritten

/-- What holds of the registers in each state of the controller, beside `SessionOk`. -/
def State.PhaseOk (s : State) : Prop :=
  match s.ctl.state with
  | .idle => s.chain = Chain.reset ∧ s.ring = Ring.reset ∧ s.plen = Four.all 0
  | .armed => s.chain = Chain.reset ∧ s.ring.wr = 0 ∧ s.ring.fill = 0 ∧ s.ring.trigv = false ∧ s.ctl.err = .none
  | .capturing => s.ring.trigv = false ∧ s.ctl.err = .none
  | .postTrigger =>
    s.ring.trigv = true ∧ s.ring.trig < s.cap ∧ s.ctl.err = .none ∧
      1 ≤ s.ring.countdown.toNat ∧ s.ring.countdown.toNat ≤ s.effPost ∧
      s.effPost ≤ s.ring.fill + s.ring.countdown.toNat ∧
      (s.ring.fill < s.cap → s.ring.trig + s.effPost = s.ring.fill + s.ring.countdown.toNat)
  | .captured =>
    s.ring.trigv = true ∧ s.ring.trig < s.cap ∧ s.ctl.err = .none ∧
      s.effPost ≤ s.ring.fill ∧ (s.ring.fill < s.cap → s.ring.trig + s.effPost = s.ring.fill)
  | .streaming =>
    s.ring.trigv = true ∧ (s.ctl.err = .insufficientHistory ↔ s.ctl.trunc = true) ∧
      1 ≤ s.ring.remain ∧ s.ring.remain ≤ s.ring.fill ∧ s.ring.rd < s.cap ∧
      (s.ring.fill < s.cap → s.ring.rd + s.ring.remain = s.ring.fill)
  | .fault => False

/-- The invariant of every run from reset. It excludes `Fault`: with programs the loader wrote, no evaluation stalls
(R114, R255). -/
structure State.Inv (s : State) : Prop where
  consistent : s.Consistent
  plenFits : ∀ k, s.plen.get k ≤ s.params.budget
  session : s.ctl.state ≠ .idle → s.SessionOk
  phase : s.PhaseOk

/-! ### What a session has recorded -/

/-- `h` is the list of packed samples written since arming, by absolute index (43_ring_buffer.md): the cursor and the fill
count say how many (R171, R173), and sample n stands in slot n mod `CAP_SAMPLES` until sample n + `CAP_SAMPLES`
overwrites it (R171, R181). -/
def State.Holds (s : State) (h : List Word) : Prop :=
  s.ring.wr = h.length % s.cap ∧ s.ring.fill = min h.length s.cap ∧
    ∀ n v, h.length ≤ n + s.cap → h[n]? = some v → s.sampleAt (n % s.cap) = v

/-- `h` is what the session has recorded so far, and from the trigger on, `K` is the absolute index of the trigger sample
(R174) and the countdown says how many samples are still to come (R175, R198). -/
def State.Recorded (s : State) (h : List Word) (K : Nat) : Prop :=
  s.Holds h ∧
    match s.ctl.state with
    | .armed => h = []
    | .capturing => True
    | .postTrigger =>
      s.ring.trig = K % s.cap ∧ K < h.length ∧ 1 ≤ s.ring.countdown.toNat ∧
        h.length + s.ring.countdown.toNat = K + s.effPost
    | .captured => s.ring.trig = K % s.cap ∧ h.length = K + s.effPost
    | .idle => False
    | .streaming => False
    | .fault => False

/-- `t` is `s` after the write of the sample of the pins `p` (R171 to R173): the slot at `WR` holds the packed sample, no
nibble outside that slot's has changed, the cursor and the fill count have moved; parameters, configuration, programs and
what is still to come at the inputs are as before. -/
structure State.Wrote (p : Word) (s t : State) : Prop where
  stored : t.sampleAt s.ring.wr = pack s.cfg.groups p
  others : ∀ q, q < s.ring.wr * s.groupCount ∨ s.ring.wr * s.groupCount + s.groupCount ≤ q → t.nibble q = s.nibble q
  cursor : t.ring.wr = (s.ring.wr + 1) % s.cap
  filled : t.ring.fill = min (s.ring.fill + 1) s.cap
  params : t.params = s.params
  cfg : t.cfg = s.cfg
  imem : t.imem = s.imem
  plen : t.plen = s.plen
  epoch : t.epoch = s.epoch
  rd : t.ring.rd = s.ring.rd
  remain : t.ring.remain = s.ring.remain
  inbox : t.ports.inbox = s.ports.inbox
  reply : t.ports.reply = s.ports.reply

/-- `EVT_WRAP` of the write at `WR` (R172). -/
def State.wrapEvents (s : State) : List Event := if (s.ring.wr + 1) % s.cap = 0 then [.wrap] else []

/-! ### What a compiled program looks like -/

/-- The list is what R132 to R135 emit for the positions r-1 down to 0: every `Skip` is one whole maximal run of
don't-care bits (R133), every compared run is cut greedily from its most significant end into pieces of `LMAX`, and a
last piece of one bit is a `MatchSingleBit` (R134, R135). -/
def Scans (lmax : Nat) (mask value : Word) : Nat → List Instr → Prop
  | r, [] => r = 0
  | r, .skip n :: ops =>
    1 ≤ n ∧ n ≤ r ∧ (∀ j, j < n → mask.getLsbD (r - 1 - j) = false) ∧
      (r = n ∨ mask.getLsbD (r - n - 1) = true) ∧ Scans lmax mask value (r - n) ops
  | r, .matchSingleBit p :: ops =>
    1 ≤ r ∧ mask.getLsbD (r - 1) = true ∧ p = value.getLsbD (r - 1) ∧
      (r = 1 ∨ mask.getLsbD (r - 2) = false) ∧ Scans lmax mask value (r - 1) ops
  | r, .matchRun len lit :: ops =>
    2 ≤ len ∧ len ≤ lmax ∧ len ≤ r ∧ (∀ j, j < len → mask.getLsbD (r - 1 - j) = true) ∧
      (∀ j, j < len → lit.getLsbD (len - 1 - j) = value.getLsbD (r - 1 - j)) ∧ lit.toNat < 2 ^ len ∧
      (len = lmax ∨ r = len ∨ mask.getLsbD (r - len - 1) = false) ∧ Scans lmax mask value (r - len) ops
  | _, _ => False

/-! ### What a host sees -/

/-- The replies of `n` steps in order, and the state after them; `none` when a step is a fault or a refusal. -/
def runReplies : Nat → State → Option (List Reply × State)
  | 0, s => some ([], s)
  | n + 1, s =>
    match step s with
    | .next t => (runReplies n t).map fun r => (t.ports.reply.toList ++ r.1, r.2)
    | .fault _ => none
    | .refused _ => none

end Sys2Proof.Machine
end

