-- ==== Sys2Proof/Certificates/Slice0/Obligations.lean ====
section
/-! DEFINITION. The statements for the provers, in the order of the spec's files: encoding, step, micro-operations, loader,
commands, tick, read port, invariants. -/

open Sys2Proof Sys2Proof.Machine

/-! ### Encoding (30_encoding.md) -/

/-- R81 to R84, R87: the slots of every well-formed micro-operation, followed by any slots, decode to it and leave the
slots after it. -/
def Obligations.MicroOpDecodesFromItsSlots : Prop :=
  ∀ (P : Params) (i : Instr) (rest : List Byte), i.isMicro = true → i.wf P = true →
    decodeSlots P (encode P i ++ rest) = .ok (i, rest)

/-- R90 to R92: with any legal parameters, opcode table included, the frame of every well-formed command decodes to it. -/
def Obligations.CommandDecodesFromItsFrame : Prop :=
  ∀ (P : Params) (i : Instr), P.legal = true → i.isMicro = false → i.wf P = true → decodeFrame P (encode P i) = .ok i

/-- R81 to R83, R86: slots decode to nothing but a well-formed micro-operation whose encoding they begin with: no two
encodings mean the same. -/
def Obligations.DecodedSlotsAreTheEncoding : Prop :=
  ∀ (P : Params) (bs rest : List Byte) (i : Instr), decodeSlots P bs = .ok (i, rest) →
    i.isMicro = true ∧ i.wf P = true ∧ bs = encode P i ++ rest

/-- R86 (a) to (g): which slots at `UPC` are illegal, by the byte ranges R86 lists. -/
def Obligations.IllegalSlotsAreRefused : Prop :=
  ∀ (P : Params) (b0 : Byte) (rest : List Byte),
    (∃ e, decodeSlots P (b0 :: rest) = .error e) ↔
      (0xC0 ≤ b0.toNat ∨ (0x10 ≤ b0.toNat ∧ b0.toNat ≤ 0x3F) ∨ (0x42 ≤ b0.toNat ∧ b0.toNat ≤ 0x7F) ∨
        (0x88 ≤ b0.toNat ∧ b0.toNat ≤ 0xBF)) ∨
      (0x80 ≤ b0.toNat ∧ b0.toNat ≤ 0x87 ∧
        (P.lmax < b0.toNat - 0x80 + 1 ∨ rest = [] ∨
          ∃ lit tail, rest = lit :: tail ∧ 2 ^ (b0.toNat - 0x80 + 1) ≤ lit.toNat))

/-- R81 to R83, R91, R92: slots and frames written out from the tables decode to what they stand for. -/
def Obligations.SampleWordsDecode : Prop :=
  decodeSlots Params.standard [0x0B#8] = .ok (.skip 12, []) ∧
  decodeSlots Params.standard [0x41#8, 0x00#8] = .ok (.matchSingleBit true, [0x00#8]) ∧
  decodeSlots Params.standard [0x87#8, 0xAA#8] = .ok (.matchRun 8 0xAA#8, []) ∧
  decodeFrame Params.standard [0x01#8] = .ok .run ∧
  decodeFrame Params.standard [0x82#8, 0x13#8, 0#8, 0#8, 0#8] = .ok (.setFlags 0b0011#4 true) ∧
  decodeFrame Params.standard [0xC2#8, 0x02#8, 0x00#8, 0x14#8, 0x00#8] =
    .ok (.setTriggerConfig 0 { delay := 2, next := 1, nextv := true, starts := false, mode := .parallel })

/-- R231 (and R93, R254): a frame that the decoder refuses changes no register and emits no event, in every state. It
refuses every frame with an opcode that the table has not, whatever follows it, and every list of bytes that is no frame of
the shape bit 7 of its first byte tells; that such a list is malformed is the model's choice (log entry 12). -/
def Obligations.UnknownOpcodeIsDiscarded : Prop :=
  (∀ (s : State) (bytes : List Byte) (rest : List Input) (e : DecodeError),
    s.ports.inbox = .frame bytes :: rest → decodeFrame s.params bytes = .error e →
    step s = .next { s with ports := { inbox := rest, events := [], reply := none } }) ∧
  (∀ (s : State) (op : Byte) (ps : List Byte) (rest : List Input),
    s.ports.inbox = .frame (op :: ps) :: rest →
    op ∉ s.params.opcodes.c1 → op ∉ s.params.opcodes.c5 →
    step s = .next { s with ports := { inbox := rest, events := [], reply := none } }) ∧
  (∀ (P : Params) (op : Byte) (ps : List Byte), ps.length ≠ (if op.getLsbD 7 then 4 else 0) →
    decodeFrame P (op :: ps) = .error .malformedFrame) ∧
  (∀ P : Params, decodeFrame P [] = .error .malformedFrame) ∧
  (∀ (s : State) (rest : List Input), s.params.opcodes = OpcodeTable.standard →
    (s.ports.inbox = .frame [0x05#8] :: rest ∨ s.ports.inbox = .frame [0x83#8, 0x01#8, 0x02#8, 0x03#8, 0x04#8] :: rest) →
    step s = .next { s with ports := { inbox := rest, events := [], reply := none } })

/-! ### The step (00_scope.md, 45_host_commands.md, 40_microops.md) -/

/-- R220: when the frame at the command port decodes to an instruction, the step is that instruction's effect on the state
from which the frame has been taken and the outputs of the step before have gone. -/
def Obligations.StepRunsTheDecodedCommand : Prop :=
  ∀ (s : State) (bytes : List Byte) (rest : List Input) (i : Instr),
    s.ports.inbox = .frame bytes :: rest → decodeFrame s.params bytes = .ok i →
    step s = exec i { s with ports := { inbox := rest, events := [], reply := none } }

/-- R6: a step takes the first pending input: a tick goes to the tick rule, a request to the read port; with no input
pending the step clears the outputs of the step before and nothing else (the queue of inputs is the model's choice, log
entry 2). -/
def Obligations.StepTakesTheNextInput : Prop :=
  ∀ (s : State) (rest : List Input),
    (∀ p, s.ports.inbox = .tick p :: rest → step s = tick p { s with ports := { inbox := rest, events := [], reply := none } }) ∧
    (s.ports.inbox = .beginRead :: rest → step s = beginRead { s with ports := { inbox := rest, events := [], reply := none } }) ∧
    (s.ports.inbox = .readNext :: rest → step s = readNext { s with ports := { inbox := rest, events := [], reply := none } }) ∧
    (s.ports.inbox = [] → step s = .next { s with ports := { inbox := [], events := [], reply := none } })

/-- R110, R63: when the slots at `UPC` of the active program are the encoding of a well-formed micro-operation, the
evaluation runs it by `exec` and goes on from the state it leaves while it has not ended the evaluation. -/
def Obligations.EvaluationRunsTheFetchedInstruction : Prop :=
  ∀ (k : StageIx) (fuel : Nat) (s : State) (i : Instr), i.isMicro = true → i.wf s.params = true →
    (∀ j b, (encode s.params i)[j]? = some b →
      s.seq.upc + j < s.plen.get k ∧ s.seq.upc + j < s.params.budget ∧
        Memory.read? (s.imem.get k) (s.seq.upc + j) = some b) →
    evalLoop k (fuel + 1) s =
      andThen (exec i s) fun t => if t.seq.result = none then evalLoop k fuel t else .next t

/-! ### Micro-operations (40_microops.md) -/

/-- R111, with its fields (R81, R84): a slot with `op` = `00` is `Skip n` and stalls when a reserved bit is 1; `Skip n`
advances `POS` by n and `UPC` by 1, or stalls when it would consume past the 16th bit; nothing else changes. -/
def Obligations.SkipAdvancesOrStalls : Prop :=
  (∀ (k : StageIx) (fuel : Nat) (s : State) (b0 : Byte), s.seq.upc < s.plen.get k → s.plen.get k ≤ s.params.budget →
    s.imemSlot k s.seq.upc = b0 → b0.extractLsb' 6 2 = 0b00#2 →
    evalLoop k (fuel + 1) s =
      if b0.extractLsb' 4 2 = 0#2 then
        andThen (exec (.skip ((b0.extractLsb' 0 4).toNat + 1)) s) fun t =>
          if t.seq.result = none then evalLoop k fuel t else .next t
      else .next { s with seq := { s.seq with result := some .stall } }) ∧
  (∀ (n : Nat) (s : State), s.seq.pos + n ≤ 16 →
    exec (.skip n) s = .next { s with seq := { s.seq with pos := s.seq.pos + n, upc := s.seq.upc + 1 } }) ∧
  (∀ (n : Nat) (s : State), 16 < s.seq.pos + n →
    exec (.skip n) s = .next { s with seq := { s.seq with result := some .stall } })

/-- R112, with its field (R82): a slot with `op` = `01` is `MatchSingleBit p` and stalls when a reserved bit is 1, whatever
the bit compared; `MatchSingleBit p` compares `SR[15-POS]` with p. -/
def Obligations.MatchSingleBitCompares : Prop :=
  (∀ (k : StageIx) (fuel : Nat) (s : State) (b0 : Byte), s.seq.upc < s.plen.get k → s.plen.get k ≤ s.params.budget →
    s.imemSlot k s.seq.upc = b0 → b0.extractLsb' 6 2 = 0b01#2 →
    evalLoop k (fuel + 1) s =
      if b0.extractLsb' 1 5 = 0#5 then
        andThen (exec (.matchSingleBit (b0.getLsbD 0)) s) fun t =>
          if t.seq.result = none then evalLoop k fuel t else .next t
      else .next { s with seq := { s.seq with result := some .stall } }) ∧
  (∀ (p : Bool) (s : State), s.seq.pos + 1 ≤ 16 → s.seq.sr.getLsbD (15 - s.seq.pos) = p →
    exec (.matchSingleBit p) s =
      .next { s with seq := { s.seq with pos := s.seq.pos + 1, upc := s.seq.upc + 1 } }) ∧
  (∀ (p : Bool) (s : State), s.seq.pos + 1 ≤ 16 → s.seq.sr.getLsbD (15 - s.seq.pos) ≠ p →
    exec (.matchSingleBit p) s = .next { s with seq := { s.seq with result := some .noMatch } }) ∧
  (∀ (p : Bool) (s : State), 16 < s.seq.pos + 1 →
    exec (.matchSingleBit p) s = .next { s with seq := { s.seq with result := some .stall } })

/-- R113, R67, with the fields of R83, R84: slots with `op` = `10` are `MatchRun` and stall when a reserved bit is 1, L
exceeds `LMAX`, the second slot is absent or has a 1 in bits [7:L]; said bit by bit, `MatchRun` compares the next L bits
of `SR`, the most significant first, with the literal's bits L-1 down to 0. -/
def Obligations.MatchRunComparesBitByBit : Prop :=
  (∀ (k : StageIx) (fuel : Nat) (s : State) (b0 b1 : Byte), s.seq.upc < s.plen.get k →
    s.plen.get k ≤ s.params.budget → s.imemSlot k s.seq.upc = b0 → s.imemSlot k (s.seq.upc + 1) = b1 →
    b0.extractLsb' 6 2 = 0b10#2 →
    evalLoop k (fuel + 1) s =
      if b0.extractLsb' 3 3 = 0#3 ∧ (b0.extractLsb' 0 3).toNat + 1 ≤ s.params.lmax ∧ s.seq.upc + 1 < s.plen.get k ∧
          b1.toNat < 2 ^ ((b0.extractLsb' 0 3).toNat + 1) then
        andThen (exec (.matchRun ((b0.extractLsb' 0 3).toNat + 1) b1) s) fun t =>
          if t.seq.result = none then evalLoop k fuel t else .next t
      else .next { s with seq := { s.seq with result := some .stall } }) ∧
  (∀ (len : Nat) (lit : Byte) (s : State), s.seq.pos + len ≤ 16 →
    (∀ j, j < len → s.seq.sr.getLsbD (15 - s.seq.pos - j) = lit.getLsbD (len - 1 - j)) →
    exec (.matchRun len lit) s =
      .next { s with seq := { s.seq with pos := s.seq.pos + len, upc := s.seq.upc + 2 } }) ∧
  (∀ (len : Nat) (lit : Byte) (s : State), s.seq.pos + len ≤ 16 →
    (∃ j, j < len ∧ s.seq.sr.getLsbD (15 - s.seq.pos - j) ≠ lit.getLsbD (len - 1 - j)) →
    exec (.matchRun len lit) s = .next { s with seq := { s.seq with result := some .noMatch } }) ∧
  (∀ (len : Nat) (lit : Byte) (s : State), 16 < s.seq.pos + len →
    exec (.matchRun len lit) s = .next { s with seq := { s.seq with result := some .stall } })

/-- R110, R115: an evaluation always ends, with a result, within the program; it writes nothing but the working registers;
more fuel changes nothing; the empty program matches at once. -/
def Obligations.EvaluationEndsAndWritesOnlyWorkingRegisters : Prop :=
  (∀ (k : StageIx) (w : Word) (s : State), s.plen.get k ≤ s.params.budget →
    ∃ q r, evalStage k w s = .next { s with seq := q } ∧ q.result = some r ∧ q.sr = w ∧ q.pos ≤ 16 ∧ q.upc ≤ s.plen.get k ∧
      ∀ fuel, s.plen.get k < fuel → evalLoop k fuel (s.startEval w) = evalStage k w s) ∧
  (∀ (k : StageIx) (w : Word) (s : State), s.plen.get k = 0 →
    evalStage k w s = .next { s with seq := { sr := w, pos := 0, upc := 0, result := some .matched } })

/-- R115: "Eval(k, s) is a pure function of IMEM[k], PLEN[k] and s": two states that agree on the parameters, on bank k and
its length and on what unwritten slots hold evaluate a word alike, whatever else differs, the working registers an
earlier evaluation left included. -/
def Obligations.EvaluationDependsOnItsProgramAlone : Prop :=
  ∀ (k : StageIx) (w : Word) (s t : State), s.params = t.params → s.imem.get k = t.imem.get k →
    s.plen.get k = t.plen.get k → s.epoch = t.epoch →
    (∃ e, evalStage k w s = .fault e ∧ evalStage k w t = .fault e) ∨
      (∃ q, evalStage k w s = .next { s with seq := q } ∧ evalStage k w t = .next { t with seq := q })

/-! ### The compiler and the loader (41_compiler.md) -/

/-- R132 to R135: for a non-zero mask the program is the scan of bits 15 down to 0 in maximal runs, compared runs cut
greedily. -/
def Obligations.CompilerScansMaximalRuns : Prop :=
  ∀ (lmax : Nat) (mask value : Word), 2 ≤ lmax → lmax ≤ 8 → mask ≠ 0#16 →
    Scans lmax mask value 16 (compile lmax mask value)

/-- R137: the bits consumed add up to 16 (0 for the all-zero mask, R131), the cost is at most 16 slots and `0x5555` reaches
it, every operation is encodable, no `MatchRun` has length 1, no two `Skip`s are neighbours. -/
def Obligations.CompiledProgramsKeepTheirBounds : Prop :=
  ∀ (P : Params) (mask value : Word), 2 ≤ P.lmax → P.lmax ≤ 8 →
    ((compile P.lmax mask value).map bitsConsumed).sum = (if mask = 0#16 then 0 else 16) ∧
    cost (compile P.lmax mask value) ≤ 16 ∧ cost (compile P.lmax 0x5555#16 value) = 16 ∧
    (∀ op, op ∈ compile P.lmax mask value → op.isMicro = true ∧ op.wf P = true ∧ ∀ lit, op ≠ .matchRun 1 lit) ∧
    (∀ j n m, (compile P.lmax mask value)[j]? = some (.skip n) → (compile P.lmax mask value)[j + 1]? ≠ some (.skip m))

/-- R130: "Bits of `value` where `mask` is 0 do not influence the result." -/
def Obligations.DontCareBitsDoNotInfluenceTheProgram : Prop :=
  ∀ (lmax : Nat) (mask value value' : Word), value &&& mask = value' &&& mask →
    compile lmax mask value = compile lmax mask value'

/-- R138: after `load` the program's slots stand in order from slot 0, `PLEN` is the program's cost, and slots from there
on, the other banks and every other register are as before. -/
def Obligations.LoadWritesTheProgram : Prop :=
  ∀ (s : State) (k : StageIx) (ops : List Instr), (∀ op, op ∈ ops → op.isMicro = true) →
    (assemble ops).length = cost ops ∧
    (∀ a b, (assemble ops)[a]? = some b → (s.load k ops).imemSlot k a = b) ∧
    (∀ a, cost ops ≤ a → (s.load k ops).imemSlot k a = s.imemSlot k a) ∧
    (∀ k' a, k' ≠ k → (s.load k ops).imemSlot k' a = s.imemSlot k' a) ∧
    (s.load k ops).plen = s.plen.set k (cost ops) ∧
    { s.load k ops with imem := s.imem, plen := s.plen } = s

/-- R116, R139, over the sequencer: a bank that holds the program compiled from (mask, value) evaluates to `Match` on a
word exactly when the word agrees with the value under the mask, and to `NoMatch` otherwise; it never stalls. -/
def Obligations.CompiledProgramIsMaskedEquality : Prop :=
  ∀ (s : State) (k : StageIx) (mask value w : Word), s.params.legal = true →
    s.plen.get k = (assemble (compile s.params.lmax mask value)).length → s.plen.get k ≤ s.params.budget →
    (∀ a b, (assemble (compile s.params.lmax mask value))[a]? = some b → Memory.read? (s.imem.get k) a = some b) →
    ∃ t, evalStage k w s = .next t ∧
      t.seq.result = some (if w &&& mask = value &&& mask then .matched else .noMatch)

/-- R116, over the whole machine: after a `Run` that armed the block, every configured stage evaluates as masked equality
with the mask and value the host wrote. -/
def Obligations.ArmedStagesImplementMaskedEquality : Prop :=
  ∀ (s t : State) (i : StageIx) (w : Word), s.params.legal = true → s.ctl.state = .idle →
    exec .run s = .next t → t.ctl.state = .armed → i.val < s.stageCount →
    ∃ u, evalStage i w t = .next u ∧
      u.seq.result = some (if w &&& (s.cfg.stages.get i).mask = (s.cfg.stages.get i).value &&& (s.cfg.stages.get i).mask
        then .matched else .noMatch)

/-! ### `Run` (44_controller.md) -/

/-- R192: what `Validate()` accepts, without its loop: groups enabled; stages 0..N-1 configured and parallel; a capture
stage below N that every stage before it leads to step by step; 1 ≤ `POST` ≤ `TOTAL`; `POST` ≤ `CAP_SAMPLES`. -/
def Obligations.ValidationAcceptsExactly : Prop :=
  ∀ s : State, s.validate = true ↔
    s.cfg.groups ≠ 0#4 ∧
    (∃ n, 1 ≤ n ∧ n ≤ 4 ∧ (∀ i : StageIx, (s.cfg.stages.get i).cfgv = decide (i.val < n)) ∧
      (∀ i : StageIx, i.val < n → (s.cfg.stages.get i).mode = .parallel) ∧
      ∃ c : StageIx, c.val < n ∧ (s.cfg.stages.get c).starts = true ∧
        ∀ i : StageIx, i.val < c.val → (s.cfg.stages.get i).starts = false ∧ (s.cfg.stages.get i).nextv = true ∧
          (s.cfg.stages.get i).next.val = i.val + 1) ∧
    1 ≤ s.cfg.total.toNat ∧ 1 ≤ s.cfg.post.toNat ∧ s.cfg.post.toNat ≤ s.cfg.total.toNat ∧ s.cfg.post.toNat ≤ s.cap

/-- R252: a configuration that fails validation is refused at `Run`: `ERR` <- 2 and `EVT_ERR`, nothing else. -/
def Obligations.RunRefusesAnInvalidConfiguration : Prop :=
  ∀ s : State, s.ctl.state = .idle → s.validate = false →
    exec .run s = .next { s with
      ctl := { s.ctl with err := .invalidConfiguration }
      ports := { s.ports with events := s.ports.events ++ [.err] } }

/-- R251: a valid configuration with a stage over budget is refused at `Run`: `ERR` <- 1 and `EVT_ERR`, nothing else; with
the default parameters no program is over budget. -/
def Obligations.RunRefusesAnOverBudgetProgram : Prop :=
  (∀ mask value : Word, cost (compile Params.standard.lmax mask value) ≤ Params.standard.budget) ∧
  ∀ (s : State) (i : StageIx), s.ctl.state = .idle → s.validate = true → i.val < s.stageCount →
    s.params.budget < cost (compile s.params.lmax (s.cfg.stages.get i).mask (s.cfg.stages.get i).value) →
    exec .run s = .next { s with
      ctl := { s.ctl with err := .compileOverflow }
      ports := { s.ports with events := s.ports.events ++ [.err] } }

/-- R194: a valid configuration within budget is armed: every configured stage loaded, the chain and the cursors reset, the
clock enabled, no event; the registers R194 does not name keep their values. -/
def Obligations.RunArmsAValidConfiguration : Prop :=
  ∀ s : State, s.ctl.state = .idle → s.validate = true →
    (∀ i : StageIx, i.val < s.stageCount →
      cost (compile s.params.lmax (s.cfg.stages.get i).mask (s.cfg.stages.get i).value) ≤ s.params.budget) →
    ∃ t, exec .run s = .next t ∧
      t = { s with
        ctl := { state := .armed, clken := true, err := .none, trunc := false }
        chain := { stage := 0, settle := 0 }
        ring := { s.ring with wr := 0, fill := 0, trigv := false }
        imem := t.imem
        plen := t.plen } ∧
      (∀ i : StageIx, i.val < s.stageCount →
        t.plen.get i = cost (s.stageProgram i) ∧
        (∀ a b, (assemble (s.stageProgram i))[a]? = some b → t.imemSlot i a = b) ∧
        ∀ a, cost (s.stageProgram i) ≤ a → t.imemSlot i a = s.imemSlot i a) ∧
      (∀ i : StageIx, s.stageCount ≤ i.val → t.plen.get i = s.plen.get i ∧ t.imem.get i = s.imem.get i)

/-- R137 (b), R251: with at least 16 slots per stage CompileOverflow cannot occur: a valid configuration always arms. -/
def Obligations.SixteenSlotsNeverOverflow : Prop :=
  ∀ s : State, s.params.legal = true → 16 ≤ s.params.budget → s.ctl.state = .idle → s.validate = true →
    ∃ t, exec .run s = .next t ∧ t.ctl.state = .armed ∧ t.ctl.err = .none

/-- R51, R192, R220: `Run` and the configuration commands are discarded outside `Idle`. -/
def Obligations.CommandsAreDiscardedOutsideIdle : Prop :=
  ∀ (s : State) (i : Instr), s.ctl.state ≠ .idle → i.isMicro = false → i ≠ .reset → exec i s = .next s

/-! ### Commands (45_host_commands.md) -/

/-- R225: `SetClockDivisor`, opcode and operand, its effect in `Idle` and nowhere else, and its example. -/
def Obligations.SetClockDivisorWritesDivisor : Prop :=
  (∀ (P : Params) (b1 b2 b3 b4 : Byte), P.legal = true →
    decodeFrame P [P.opcodes.setClockDivisor, b1, b2, b3, b4] = .ok (.setClockDivisor (b4 ++ b3 ++ b2 ++ b1))) ∧
  (∀ (s : State) (d : BitVec 32), s.ctl.state = .idle →
    exec (.setClockDivisor d) s = .next { s with cfg := { s.cfg with divisor := d } }) ∧
  (∀ (s : State) (d : BitVec 32), s.ctl.state ≠ .idle → exec (.setClockDivisor d) s = .next s) ∧
  decodeFrame Params.standard [0x80#8, 0x63#8, 0#8, 0#8, 0#8] = .ok (.setClockDivisor 99)

/-- R226: `SetSampleCounts`. -/
def Obligations.SetSampleCountsWritesBothCounts : Prop :=
  (∀ (P : Params) (b1 b2 b3 b4 : Byte), P.legal = true →
    decodeFrame P [P.opcodes.setSampleCounts, b1, b2, b3, b4] =
      .ok (.setSampleCounts ((b2 ++ b1).setWidth 32) ((b4 ++ b3).setWidth 32))) ∧
  (∀ (s : State) (total post : BitVec 32), s.ctl.state = .idle →
    exec (.setSampleCounts total post) s = .next { s with cfg := { s.cfg with total := total, post := post } }) ∧
  (∀ (s : State) (total post : BitVec 32), s.ctl.state ≠ .idle → exec (.setSampleCounts total post) s = .next s) ∧
  decodeFrame Params.standard [0x81#8, 0x46#8, 0x00#8, 0x14#8, 0x00#8] = .ok (.setSampleCounts 70 20)

/-- R227: `SetFlags` writes both registers together; no group enabled is refused at `Run`. -/
def Obligations.SetFlagsWritesGroupsAndRle : Prop :=
  (∀ (P : Params) (b1 b2 b3 b4 : Byte), P.legal = true →
    decodeFrame P [P.opcodes.setFlags, b1, b2, b3, b4] = .ok (.setFlags (b1.extractLsb' 0 4) (b1.getLsbD 4))) ∧
  (∀ (s : State) (groups : BitVec 4) (rle : Bool), s.ctl.state = .idle →
    exec (.setFlags groups rle) s = .next { s with cfg := { s.cfg with groups := groups, rle := rle } }) ∧
  (∀ (s : State) (groups : BitVec 4) (rle : Bool), s.ctl.state ≠ .idle → exec (.setFlags groups rle) s = .next s) ∧
  (∀ s : State, s.cfg.groups = 0#4 → s.validate = false) ∧ sampleWidth 0b0011#4 = 8 ∧
  decodeFrame Params.standard [0x82#8, 0x03#8, 0#8, 0#8, 0#8] = .ok (.setFlags 0b0011#4 false)

/-- R228: `SetTriggerMask` writes the mask of its stage, and not `CFGV`. -/
def Obligations.SetTriggerMaskWritesOneMask : Prop :=
  (∀ (P : Params) (b1 b2 b3 b4 : Byte), P.legal = true →
    ∃ i : StageIx, i.val = b3.toNat % 4 ∧
      decodeFrame P [P.opcodes.setTriggerMask, b1, b2, b3, b4] = .ok (.setTriggerMask i (b2 ++ b1))) ∧
  (∀ (s : State) (i : StageIx) (mask : Word), s.ctl.state = .idle →
    ∃ t, exec (.setTriggerMask i mask) s = .next t ∧ { t with cfg := s.cfg } = s ∧
      { t.cfg with stages := s.cfg.stages } = s.cfg ∧
      t.cfg.stages.get i = { s.cfg.stages.get i with mask := mask } ∧
      ∀ j, j ≠ i → t.cfg.stages.get j = s.cfg.stages.get j) ∧
  (∀ (s : State) (i : StageIx) (mask : Word), s.ctl.state ≠ .idle → exec (.setTriggerMask i mask) s = .next s) ∧
  decodeFrame Params.standard [0xC0#8, 0x0B#8, 0#8, 0#8, 0#8] = .ok (.setTriggerMask 0 0x000B#16) ∧
  decodeFrame Params.standard [0xC0#8, 0x01#8, 0x80#8, 0x01#8, 0x00#8] = .ok (.setTriggerMask 1 0x8001#16)

/-- R229: `SetTriggerValue` writes the value of its stage, and not `CFGV`. -/
def Obligations.SetTriggerValueWritesOneValue : Prop :=
  (∀ (P : Params) (b1 b2 b3 b4 : Byte), P.legal = true →
    ∃ i : StageIx, i.val = b3.toNat % 4 ∧
      decodeFrame P [P.opcodes.setTriggerValue, b1, b2, b3, b4] = .ok (.setTriggerValue i (b2 ++ b1))) ∧
  (∀ (s : State) (i : StageIx) (value : Word), s.ctl.state = .idle →
    ∃ t, exec (.setTriggerValue i value) s = .next t ∧ { t with cfg := s.cfg } = s ∧
      { t.cfg with stages := s.cfg.stages } = s.cfg ∧
      t.cfg.stages.get i = { s.cfg.stages.get i with value := value } ∧
      ∀ j, j ≠ i → t.cfg.stages.get j = s.cfg.stages.get j) ∧
  (∀ (s : State) (i : StageIx) (value : Word), s.ctl.state ≠ .idle → exec (.setTriggerValue i value) s = .next s) ∧
  decodeFrame Params.standard [0xC1#8, 0x09#8, 0#8, 0#8, 0#8] = .ok (.setTriggerValue 0 0x0009#16)

/-- R230: `SetTriggerConfig` writes the five fields of its stage and sets `CFGV`, which no command but `Reset` clears. -/
def Obligations.SetTriggerConfigWritesOneStage : Prop :=
  (∀ (P : Params) (b1 b2 b3 b4 : Byte), P.legal = true →
    ∃ i j : StageIx, i.val = b3.toNat % 4 ∧ j.val = b3.toNat / 4 % 4 ∧
      decodeFrame P [P.opcodes.setTriggerConfig, b1, b2, b3, b4] =
        .ok (.setTriggerConfig i { delay := b2 ++ b1, next := j, nextv := b3.getLsbD 4, starts := b3.getLsbD 5,
                                   mode := if b3.getLsbD 6 then .serial else .parallel })) ∧
  (∀ (s : State) (i : StageIx) (f : StageFields), s.ctl.state = .idle →
    ∃ t, exec (.setTriggerConfig i f) s = .next t ∧ { t with cfg := s.cfg } = s ∧
      { t.cfg with stages := s.cfg.stages } = s.cfg ∧
      t.cfg.stages.get i = { mask := (s.cfg.stages.get i).mask, value := (s.cfg.stages.get i).value, delay := f.delay,
                             next := f.next, nextv := f.nextv, starts := f.starts, mode := f.mode, cfgv := true } ∧
      ∀ j, j ≠ i → t.cfg.stages.get j = s.cfg.stages.get j) ∧
  (∀ (s : State) (i : StageIx) (f : StageFields), s.ctl.state ≠ .idle → exec (.setTriggerConfig i f) s = .next s) ∧
  (∀ (s t : State) (c : Instr) (i : StageIx), c ≠ .reset → exec c s = .next t →
    (s.cfg.stages.get i).cfgv = true → (t.cfg.stages.get i).cfgv = true) ∧
  decodeFrame Params.standard [0xC2#8, 0#8, 0#8, 0x20#8, 0#8] =
    .ok (.setTriggerConfig 0 { delay := 0, next := 0, nextv := false, starts := true, mode := .parallel }) ∧
  decodeFrame Params.standard [0xC2#8, 0x02#8, 0#8, 0x14#8, 0#8] =
    .ok (.setTriggerConfig 0 { delay := 2, next := 1, nextv := true, starts := false, mode := .parallel }) ∧
  decodeFrame Params.standard [0xC2#8, 0#8, 0#8, 0x21#8, 0#8] =
    .ok (.setTriggerConfig 1 { delay := 0, next := 0, nextv := false, starts := true, mode := .parallel })

/-- R223, R224: `Identify` and `QueryMetadata` neither read nor write a register, in any state. -/
def Obligations.IdentifyAndMetadataChangeNothing : Prop :=
  (∀ P : Params, P.legal = true → decodeFrame P [P.opcodes.identify] = .ok .identify ∧
    decodeFrame P [P.opcodes.queryMetadata] = .ok .queryMetadata) ∧
  decodeFrame Params.standard [0x02#8] = .ok .identify ∧ decodeFrame Params.standard [0x04#8] = .ok .queryMetadata ∧
  (∀ s : State, exec .identify s = .next s ∧ exec .queryMetadata s = .next s)

/-- R221, R204, R203: `Reset` gives `Idle` with every register at its reset value and both memories unspecified, from every
state but `Fault`; in `Fault` it is discarded; a `ReadNext` after it is discarded. -/
def Obligations.ResetDiscardsTheSession : Prop :=
  (∀ P : Params, P.legal = true → decodeFrame P [P.opcodes.reset] = .ok .reset) ∧
  decodeFrame Params.standard [0x00#8] = .ok .reset ∧
  (∀ s : State, s.ctl.state ≠ .fault →
    ∃ t, exec .reset s = .next t ∧
      t = { s with
        cfg := Session.reset, ctl := Controller.reset, chain := Chain.reset, ring := Ring.reset
        plen := Four.all 0, imem := t.imem, buf := t.buf, epoch := t.epoch, seq := t.seq } ∧
      (∀ k a, t.imemSlot k a = Config.unwrittenSlot t.epoch k.val a) ∧
      (∀ q, t.nibble q = Config.unwrittenNibble t.epoch q) ∧ t.epoch ≠ s.epoch ∧
      readNext t = .next t) ∧
  (∀ s : State, s.ctl.state = .fault → exec .reset s = .next s)

/-- R281, R282: the reset value of every register, and that no cell of either memory has a value of its own: it reads as
the free value numbered by the model's own field `epoch`, whatever that is at reset (log entry 3). -/
def Obligations.ResetStateHasTheResetValues : Prop :=
  State.reset.cfg.divisor = 0 ∧ State.reset.cfg.total = 0 ∧ State.reset.cfg.post = 0 ∧
  State.reset.cfg.groups = 0b1111#4 ∧ State.reset.cfg.rle = false ∧
  (∀ i, State.reset.cfg.stages.get i =
    { mask := 0, value := 0, mode := .parallel, delay := 0, starts := false, nextv := false, next := 0, cfgv := false }) ∧
  State.reset.ctl.state.code = 0#3 ∧ State.reset.ctl.clken = false ∧ State.reset.ctl.err.code = 0#3 ∧
  State.reset.ctl.trunc = false ∧ State.reset.chain.stage = 0 ∧ State.reset.chain.settle = 0 ∧
  (∀ k, State.reset.plen.get k = 0) ∧ State.reset.ring.wr = 0 ∧ State.reset.ring.fill = 0 ∧
  State.reset.ring.trig = 0 ∧ State.reset.ring.trigv = false ∧ State.reset.ring.countdown = 0 ∧
  State.reset.ring.rd = 0 ∧ State.reset.ring.remain = 0 ∧
  (∀ k a, State.reset.imemSlot k a = Config.unwrittenSlot State.reset.epoch k.val a) ∧
  (∀ q, State.reset.nibble q = Config.unwrittenNibble State.reset.epoch q) ∧
  State.reset.levelOutputs =
    { state := 0, clken := false, divisor := 0, err := 0, trunc := false, rle := false, groups := 0b1111#4 }

/-- R280: power-on reset gives the reset values from any state, `Fault` included, both memories unspecified, without an
event. -/
def Obligations.PowerOnResetsEveryState : Prop :=
  ∀ (s : State) (rest : List Input), s.ports.inbox = .powerOn :: rest →
    ∃ t, step s = .next t ∧
      t = { State.resetWith s.params with
        seq := t.seq, epoch := t.epoch, ports := { inbox := rest, events := [], reply := none } } ∧
      (∀ k a, t.imemSlot k a = Config.unwrittenSlot t.epoch k.val a) ∧
      (∀ q, t.nibble q = Config.unwrittenNibble t.epoch q) ∧ t.epoch ≠ s.epoch

/-- R206, R266: in `Fault` every command, every read-port operation and every tick is discarded: only power-on reset
leaves it. -/
def Obligations.FaultAbsorbsEverythingButPowerOn : Prop :=
  ∀ (s : State) (i : Input) (rest : List Input), s.ctl.state = .fault → s.ports.inbox = i :: rest → i ≠ .powerOn →
    step s = .next { s with ports := { inbox := rest, events := [], reply := none } }

/-! ### The tick (44_controller.md, 42_stage_chain.md, 43_ring_buffer.md, 20_memory.md) -/

/-- R205: a tick without the clock is discarded, that is, when the registers are consistent, a tick in `Idle`, `Captured`,
`Streaming` or `Fault`. -/
def Obligations.TickWithoutClockIsDiscarded : Prop :=
  (∀ (s : State) (p : Word), s.ctl.clken = false → tick p s = .next s) ∧
  (∀ (s : State) (p : Word), s.Consistent →
    s.ctl.state = .idle ∨ s.ctl.state = .captured ∨ s.ctl.state = .streaming ∨ s.ctl.state = .fault → tick p s = .next s)

/-- R153, R195, R196: no match: the chain keeps its registers, `Armed` becomes `Capturing`, the sample is written. -/
def Obligations.TickWithoutMatchOnlyWrites : Prop :=
  ∀ (s u : State) (p : Word), s.ctl.clken = true → s.ctl.state = .armed ∨ s.ctl.state = .capturing →
    evalStage s.chain.stage p (s.setCtl .capturing) = .next u → u.seq.result = some .noMatch → s.ring.wr < s.cap →
    ∃ t, tick p s = .next t ∧ State.Wrote p s t ∧ t.ctl = { s.ctl with state := .capturing } ∧ t.chain = s.chain ∧
      t.ring.trig = s.ring.trig ∧ t.ring.trigv = s.ring.trigv ∧ t.ring.countdown = s.ring.countdown ∧
      t.ports.events = s.ports.events ++ s.wrapEvents

/-- R154: a match with `SETTLE` < `DELAY` counts and stays; R155: a settled stage that does not start capture hands over to
its successor, which this tick does not evaluate; R158: without a successor nothing changes. -/
def Obligations.TickWithMatchSettlesOrAdvances : Prop :=
  ∀ (s u : State) (p : Word), s.ctl.clken = true → s.ctl.state = .armed ∨ s.ctl.state = .capturing →
    evalStage s.chain.stage p (s.setCtl .capturing) = .next u → u.seq.result = some .matched → s.ring.wr < s.cap →
    s.chain.settle < (s.cfg.stages.get s.chain.stage).delay ∨
      (s.chain.settle = (s.cfg.stages.get s.chain.stage).delay ∧ (s.cfg.stages.get s.chain.stage).starts = false) →
    ∃ t, tick p s = .next t ∧ State.Wrote p s t ∧ t.ctl = { s.ctl with state := .capturing } ∧
      t.chain =
        (if s.chain.settle < (s.cfg.stages.get s.chain.stage).delay then
          { stage := s.chain.stage, settle := s.chain.settle + 1 }
        else if (s.cfg.stages.get s.chain.stage).nextv = true then
          { stage := (s.cfg.stages.get s.chain.stage).next, settle := 0 }
        else s.chain) ∧
      t.ring.trig = s.ring.trig ∧ t.ring.trigv = s.ring.trigv ∧ t.ring.countdown = s.ring.countdown ∧
      t.ports.events = s.ports.events ++ s.wrapEvents

/-- R156, R174, R175, R197, R198: a match of a settled capture stage fires: `TRIG` is the slot the trigger sample goes into,
the countdown, loaded with `effPost` (R175, spelt out where the buffer can hold the pretrigger samples), has counted it, and
with `effPost` = 1 the capture is complete in the same tick; the events in R196's order. -/
def Obligations.TickFiresTheTrigger : Prop :=
  ∀ (s u : State) (p : Word), s.ctl.clken = true → s.ctl.state = .armed ∨ s.ctl.state = .capturing →
    evalStage s.chain.stage p (s.setCtl .capturing) = .next u → u.seq.result = some .matched → s.ring.wr < s.cap →
    s.chain.settle = (s.cfg.stages.get s.chain.stage).delay → (s.cfg.stages.get s.chain.stage).starts = true →
    1 ≤ s.effPost →
    ∃ t, tick p s = .next t ∧ State.Wrote p s t ∧ t.chain = s.chain ∧
      t.ring.trig = s.ring.wr ∧ t.ring.trigv = true ∧ t.ring.countdown.toNat = s.effPost - 1 ∧
      (s.cfg.post.toNat ≤ s.cfg.total.toNat → s.cfg.total.toNat - s.cfg.post.toNat ≤ s.cap →
        t.ring.countdown.toNat + 1 =
          min s.cfg.post.toNat (max 1 (s.cap - (s.cfg.total.toNat - s.cfg.post.toNat)))) ∧
      t.ctl = (if s.effPost = 1 then { s.ctl with state := .captured, clken := false }
        else { s.ctl with state := .postTrigger }) ∧
      t.ports.events =
        s.ports.events ++ [.trig] ++ s.wrapEvents ++ (if s.effPost = 1 then [.done] else [])

/-- R114, R206, R255: a stall raises HardwareFault: `STATE` <- `Fault`, `CLKEN` <- 0, `ERR` <- 5, `EVT_ERR`; the sample is not
written and everything else but the working registers keeps its value. -/
def Obligations.StallRaisesHardwareFault : Prop :=
  ∀ (s u : State) (p : Word), s.ctl.clken = true → s.ctl.state = .armed ∨ s.ctl.state = .capturing →
    evalStage s.chain.stage p (s.setCtl .capturing) = .next u → u.seq.result = some .stall →
    tick p s = .next { s with
      seq := u.seq
      ctl := { s.ctl with state := .fault, clken := false, err := .hardwareFault }
      ports := { s.ports with events := s.ports.events ++ [.err] } }

/-- R196, R198: a tick in `PostTrigger` evaluates nothing, writes the sample and counts down; at 0 the block is `Captured`
with the clock off. -/
def Obligations.PostTriggerTickCountsDown : Prop :=
  ∀ (s : State) (p : Word), s.ctl.clken = true → s.ctl.state = .postTrigger → s.ring.wr < s.cap →
    1 ≤ s.ring.countdown.toNat →
    ∃ t, tick p s = .next t ∧ State.Wrote p s t ∧ t.chain = s.chain ∧ t.seq = s.seq ∧
      t.ring.trig = s.ring.trig ∧ t.ring.trigv = s.ring.trigv ∧ t.ring.countdown.toNat = s.ring.countdown.toNat - 1 ∧
      t.ctl = (if s.ring.countdown.toNat = 1 then { s.ctl with state := .captured, clken := false } else s.ctl) ∧
      t.ports.events = s.ports.events ++ s.wrapEvents ++ (if s.ring.countdown.toNat = 1 then [.done] else [])

/-- R65: each enabled group k lands in nibble j, j the number of enabled groups below k; the packed sample has no other
bits; and R65's four examples. -/
def Obligations.PackPutsEnabledGroupsInOrder : Prop :=
  (∀ (groups : BitVec 4) (p : Word) (k : Nat), k < 4 → groups.getLsbD k = true →
    (pack groups p).extractLsb' (4 * popcount4 (groups &&& BitVec.ofNat 4 (2 ^ k - 1))) 4 = p.extractLsb' (4 * k) 4) ∧
  (∀ (groups : BitVec 4) (p : Word), (pack groups p).toNat < 2 ^ sampleWidth groups) ∧
  pack 0b1111#4 0xABCD#16 = 0xABCD#16 ∧ pack 0b1101#4 0xABCD#16 = 0x0ABD#16 ∧
  pack 0b0110#4 0xABCD#16 = 0x00BC#16 ∧ pack 0b1000#4 0xABCD#16 = 0x000A#16

/-- R64: nibble q of the store is half of byte q/2; slot s occupies nibbles s·g to s·g+g-1, nibble s·g+j holding bits
[4j+3:4j] of the sample; the slots of the buffer lie within the store and leave fewer than g nibbles of it unused. -/
def Obligations.SampleStoreLayout : Prop :=
  (∀ (s : State) (q : Nat), s.nibble q = (s.storeByte (q / 2)).extractLsb' (if q % 2 = 0 then 0 else 4) 4) ∧
  (∀ (s : State) (slot j : Nat), j < s.groupCount →
    (s.sampleAt slot).extractLsb' (4 * j) 4 = s.nibble (slot * s.groupCount + j)) ∧
  (∀ (s : State) (slot j : Nat), slot < s.cap → j < s.groupCount →
    slot * s.groupCount + j < s.cap * s.groupCount ∧ s.cap * s.groupCount ≤ s.params.capNibbles) ∧
  (∀ s : State, 1 ≤ s.groupCount → s.params.capNibbles < s.cap * s.groupCount + s.groupCount)

/-- R171, R173, R174, R181: from the record of what a session has written, a tick that does not stall gives the record with
the packed sample added; a tick that fires makes it the trigger sample. -/
def Obligations.TickExtendsTheRecord : Prop :=
  ∀ (s t : State) (p : Word) (h : List Word) (K : Nat), s.sampling = true → s.Recorded h K → 1 ≤ s.cfg.post.toNat →
    tick p s = .next t → t.ctl.state ≠ .fault →
    t.Recorded (h ++ [pack s.cfg.groups p]) (if s.ctl.state = .postTrigger then K else h.length)

/-! ### The read port (43_ring_buffer.md, 45_host_commands.md) -/

/-- R176, R177, R201, R253: `BeginRead` in `Captured`: with p the effective post count, the window starts `d` samples before
the trigger sample, holds `d` + p samples, and is flagged truncated (`ERR` 3, `EVT_ERR`) exactly when that is fewer than
`TOTAL`; in every other state it is discarded and returns nothing. Where `TOTAL` - `POST` exceeds `CAP_SAMPLES` the difference
in p is 0 here and p is 1: the model's reading, log entry 16. -/
def Obligations.BeginReadOpensTheWindow : Prop :=
  (∀ (s : State) (rest : List Input), s.ports.inbox = .beginRead :: rest → s.ctl.state ≠ .captured →
    step s = .next { s with ports := { inbox := rest, events := [], reply := none } }) ∧
  ∀ (s : State) (rest : List Input) (p d : Nat), s.ports.inbox = .beginRead :: rest → s.ctl.state = .captured →
    1 ≤ s.cap → s.cfg.post.toNat ≤ s.cfg.total.toNat →
    p = min s.cfg.post.toNat (max 1 (s.cap - (s.cfg.total.toNat - s.cfg.post.toNat))) → p ≤ s.ring.fill →
    d = min (s.cfg.total.toNat - s.cfg.post.toNat) (s.ring.fill - p) →
    ∃ t, step s = .next t ∧ t.ring.rd < s.cap ∧ (t.ring.rd + d) % s.cap = s.ring.trig % s.cap ∧
      t.ring.remain = d + p ∧
      t = { s with
        ring := { s.ring with rd := t.ring.rd, remain := t.ring.remain }
        ctl :=
          (if d + p < s.cfg.total.toNat then
            { s.ctl with state := .streaming, trunc := true, err := .insufficientHistory }
          else { s.ctl with state := .streaming, trunc := false })
        ports := {
          inbox := rest
          events := (if d + p < s.cfg.total.toNat then [.err] else [])
          reply := some (.window (d + p) (decide (d + p < s.cfg.total.toNat))) } }

/-- R202: `ReadNext` in `Streaming` returns the sample at `RD` and steps the cursor; with one sample left it ends the
session by `Discard()`; in every other state it is discarded and returns nothing. -/
def Obligations.ReadNextDeliversOneSample : Prop :=
  (∀ (s : State) (rest : List Input), s.ports.inbox = .readNext :: rest → s.ctl.state ≠ .streaming →
    step s = .next { s with ports := { inbox := rest, events := [], reply := none } }) ∧
  (∀ (s : State) (rest : List Input), s.ports.inbox = .readNext :: rest → s.ctl.state = .streaming →
    s.ring.rd < s.cap → 1 < s.ring.remain →
    step s = .next { s with
      ring := { s.ring with rd := (s.ring.rd + 1) % s.cap, remain := s.ring.remain - 1 }
      ports := {
        inbox := rest, events := []
        reply := some (.sample (4 * groupCount s.cfg.groups) (s.sampleAt s.ring.rd)) } }) ∧
  (∀ (s : State) (rest : List Input), s.ports.inbox = .readNext :: rest → s.ctl.state = .streaming →
    s.ring.rd < s.cap → s.ring.remain = 1 →
    ∃ t, step s = .next t ∧
      t = { State.resetWith s.params with
        seq := t.seq, epoch := t.epoch
        ports := {
          inbox := rest, events := []
          reply := some (.sample (4 * groupCount s.cfg.groups) (s.sampleAt s.ring.rd)) } } ∧
      (∀ k a, t.imemSlot k a = Config.unwrittenSlot t.epoch k.val a) ∧
      (∀ q, t.nibble q = Config.unwrittenNibble t.epoch q) ∧ t.epoch ≠ s.epoch)

/-- R176, R178, R182, R202, R234: the whole readback of a captured session: with `h` what was written, `K` the absolute index
of the trigger sample and p the effective post count, `BeginRead` and then `REMAIN` times `ReadNext` deliver the samples
K-d .. K+p-1 in capture order and end in `Idle` with the configuration cleared. Where `TOTAL` - `POST` exceeds `CAP_SAMPLES`
the difference in p is 0 here and p is 1: the model's reading, log entry 16. -/
def Obligations.ReadbackDeliversTheWindow : Prop :=
  ∀ (s : State) (h : List Word) (K p d : Nat) (rest : List Input), s.ctl.state = .captured → s.Recorded h K →
    1 ≤ s.cap → 1 ≤ s.cfg.post.toNat → s.cfg.post.toNat ≤ s.cfg.total.toNat →
    p = min s.cfg.post.toNat (max 1 (s.cap - (s.cfg.total.toNat - s.cfg.post.toNat))) →
    d = min (s.cfg.total.toNat - s.cfg.post.toNat) (min h.length s.cap - p) →
    s.ports.inbox = .beginRead :: (List.replicate (d + p) .readNext ++ rest) →
    d ≤ K ∧ ∃ t, runReplies (d + p + 1) s =
        some (.window (d + p) (decide (d + p < s.cfg.total.toNat)) ::
          ((h.drop (K - d)).take (d + p)).map (fun v => Reply.sample (sampleWidth s.cfg.groups) v), t) ∧
      t.ctl = Controller.reset ∧ t.cfg = Session.reset ∧ t.ring = Ring.reset ∧ t.ports.inbox = rest

/-- R183, R282: in a run's streaming state a `ReadNext` step returns the sample of a slot within the `FILL` written ones, each
nibble of it the value last written there in this session and no bit beyond them; with any other unspecified contents of
the memories (another `epoch`) it would return the same. -/
def Obligations.ReadbackNeverTouchesUnwrittenCells : Prop :=
  ∀ (s : State) (rest : List Input), s.Inv → s.ctl.state = .streaming → s.ports.inbox = .readNext :: rest →
    ∃ t v, step s = .next t ∧ t.ports.reply = some (.sample (sampleWidth s.cfg.groups) v) ∧
      v.toNat < 2 ^ sampleWidth s.cfg.groups ∧ s.ring.rd < s.ring.fill ∧
      (∀ j, j < s.groupCount →
        Memory.read? s.buf (s.ring.rd * s.groupCount + j) = some (v.extractLsb' (4 * j) 4)) ∧
      ∀ e, ∃ u, step { s with epoch := e } = .next u ∧ u.ports.reply = t.ports.reply

/-! ### Invariants and whole-machine rules -/

/-- R34, R35, R36, R206, R60: from every consistent state, `Fault` included, every step gives a consistent state. -/
def Obligations.EveryStepKeepsTheRegistersConsistent : Prop :=
  ∀ s t : State, s.Consistent → step s = .next t → t.Consistent

/-- The invariant holds right after reset, with any legal parameters, and with the default ones. -/
def Obligations.ResetSatisfiesTheInvariant : Prop :=
  (∀ P : Params, P.legal = true → (State.resetWith P).Inv) ∧ State.reset.Inv

/-- R38, R42, R43, R114, R158, R183, R207 and the rest of `State.Inv`: every step keeps the invariant. -/
def Obligations.EveryStepKeepsTheInvariant : Prop :=
  ∀ s t : State, s.Inv → step s = .next t → t.Inv

/-- R7, R114: from a state with the invariant every step completes, whatever the input: the machine never stops, and since
the invariant excludes `Fault`, it never faults. -/
def Obligations.EveryStepCompletes : Prop :=
  ∀ s : State, s.Inv → ∃ t, step s = .next t ∧ t.ctl.state ≠ .fault

/-- R209: the arcs of the controller: every step stays, or takes an arc of the transition table. -/
def Obligations.ControllerFollowsTheTransitionTable : Prop :=
  ∀ s t : State, step s = .next t →
    t.ctl.state = s.ctl.state ∨ t.ctl.state = .idle ∨
    (s.ctl.state = .idle ∧ t.ctl.state = .armed) ∨
    (s.ctl.state = .armed ∧
      (t.ctl.state = .capturing ∨ t.ctl.state = .postTrigger ∨ t.ctl.state = .captured ∨ t.ctl.state = .fault)) ∨
    (s.ctl.state = .capturing ∧ (t.ctl.state = .postTrigger ∨ t.ctl.state = .captured ∨ t.ctl.state = .fault)) ∨
    (s.ctl.state = .postTrigger ∧ t.ctl.state = .captured) ∨
    (s.ctl.state = .captured ∧ t.ctl.state = .streaming)

/-- R51, R207: outside `Idle` no step writes a configuration register, but for the return of all of them to their reset
values; and every frame but `Reset` is discarded there. -/
def Obligations.ConfigurationIsFrozenOutsideIdle : Prop :=
  (∀ s t : State, s.ctl.state ≠ .idle → step s = .next t →
    t.cfg = s.cfg ∨ (t.cfg = Session.reset ∧ t.ctl = Controller.reset)) ∧
  (∀ (s : State) (bytes : List Byte) (rest : List Input), s.ctl.state ≠ .idle →
    s.ports.inbox = .frame bytes :: rest → decodeFrame s.params bytes ≠ .ok .reset →
    step s = .next { s with ports := { inbox := rest, events := [], reply := none } })

/-- R61, R62, R74, R282: a step leaves both memories and `PLEN` as they are, or it is one of three. A tick in `Armed`,
`Capturing` or `PostTrigger` may change the slot of the sample store at `WR`, and no other nibble. A `Run` frame in `Idle`
that arms may change instruction memories and `PLEN`, of the configured stages only. Power-on reset, a `Reset` frame outside
`Fault` and a `ReadNext` in `Streaming` may make both memories unspecified as a whole. -/
def Obligations.MemoriesHaveOneWriterEach : Prop :=
  ∀ s t : State, step s = .next t →
    (t.buf = s.buf ∧ t.imem = s.imem ∧ t.plen = s.plen ∧ t.epoch = s.epoch) ∨
    (∃ p rest, s.ports.inbox = .tick p :: rest ∧ s.sampling = true ∧
      t.imem = s.imem ∧ t.plen = s.plen ∧ t.epoch = s.epoch ∧
      ∀ q, q < s.ring.wr * s.groupCount ∨ s.ring.wr * s.groupCount + s.groupCount ≤ q → t.nibble q = s.nibble q) ∨
    (∃ bytes rest, s.ports.inbox = .frame bytes :: rest ∧ decodeFrame s.params bytes = .ok .run ∧
      s.ctl.state = .idle ∧ t.ctl.state = .armed ∧ t.buf = s.buf ∧ t.epoch = s.epoch ∧
      ∀ i : StageIx, s.stageCount ≤ i.val → t.imem.get i = s.imem.get i ∧ t.plen.get i = s.plen.get i) ∨
    (∃ rest, (s.ports.inbox = .powerOn :: rest ∨
        (s.ports.inbox = .readNext :: rest ∧ s.ctl.state = .streaming) ∨
        ∃ bytes, s.ports.inbox = .frame bytes :: rest ∧ decodeFrame s.params bytes = .ok .reset ∧ s.ctl.state ≠ .fault) ∧
      t.buf = [] ∧ t.imem = Four.all [] ∧ t.plen = Four.all 0 ∧ t.epoch = s.epoch + 1)

/-- R257 to R261, R263: the pulses of one step are in R196's order, or `EVT_ERR` alone, and each tells what the step did. -/
def Obligations.EventsTellWhatTheStepDid : Prop :=
  ∀ s t : State, step s = .next t →
    (t.ports.events = [.err] ∨ t.ports.events.Sublist [.trig, .wrap, .done]) ∧
    (.trig ∈ t.ports.events → (s.ctl.state = .armed ∨ s.ctl.state = .capturing) ∧
      (t.ctl.state = .postTrigger ∨ t.ctl.state = .captured)) ∧
    (.wrap ∈ t.ports.events → s.sampling = true ∧ t.ring.wr = 0) ∧
    (.done ∈ t.ports.events ↔ s.sampling = true ∧ t.ctl.state = .captured) ∧
    (.err ∈ t.ports.events → t.ctl.err ≠ .none ∧ t.ctl.err ≠ .malformedCommand)

/-- R34, R270: the clock is enabled only by a `Run` that arms, and disabled only on entry to `Captured`, `Idle` or `Fault`. -/
def Obligations.ClockChangesOnlyOnItsArcs : Prop :=
  ∀ s t : State, step s = .next t →
    (s.ctl.clken = false → t.ctl.clken = true → s.ctl.state = .idle ∧ t.ctl.state = .armed) ∧
    (s.ctl.clken = true → t.ctl.clken = false →
      t.ctl.state = .captured ∨ t.ctl.state = .idle ∨ t.ctl.state = .fault)

/-! ### The level outputs and the record of an error (10_state.md, 60_exceptions.md) -/

/-- R48, R33, R35, R250: in every state the level outputs show the registers, with the codes of the seven states and of the
errors; and raising an error records its code and emits `EVT_ERR`. -/
def Obligations.LevelOutputsShowTheRegisters : Prop :=
  (∀ s : State, s.levelOutputs =
    { state := s.ctl.state.code, clken := s.ctl.clken, divisor := s.cfg.divisor, err := s.ctl.err.code,
      trunc := s.ctl.trunc, rle := s.cfg.rle, groups := s.cfg.groups }) ∧
  (CtlState.code .idle = 0#3 ∧ CtlState.code .armed = 1#3 ∧ CtlState.code .capturing = 2#3 ∧
    CtlState.code .postTrigger = 3#3 ∧ CtlState.code .captured = 4#3 ∧ CtlState.code .streaming = 5#3 ∧
    CtlState.code .fault = 6#3 ∧ ∀ q : CtlState, q.code ≠ 7#3) ∧
  (ErrCode.code .none = 0#3 ∧ ErrCode.code .compileOverflow = 1#3 ∧ ErrCode.code .invalidConfiguration = 2#3 ∧
    ErrCode.code .insufficientHistory = 3#3 ∧ ErrCode.code .malformedCommand = 4#3 ∧
    ErrCode.code .hardwareFault = 5#3 ∧ ∀ e : ErrCode, e.code ≠ 6#3 ∧ e.code ≠ 7#3) ∧
  (∀ (s : State) (e : ErrCode), (s.raiseError e).levelOutputs.err = e.code ∧
    (s.raiseError e).ports.events = s.ports.events ++ [.err])
end

