-- ==== Sys2Proof/Laws/State.lean ====
section
/-! SUPPORT. What each update of the state leaves in each field, so that no proof unfolds a record update. -/

namespace Sys2Proof.Machine

variable (s : State)

/-! ### `emit` -/

@[simp] theorem State.emit_params (e : Event) : (s.emit e).params = s.params := rfl
@[simp] theorem State.emit_cfg (e : Event) : (s.emit e).cfg = s.cfg := rfl
@[simp] theorem State.emit_ctl (e : Event) : (s.emit e).ctl = s.ctl := rfl
@[simp] theorem State.emit_chain (e : Event) : (s.emit e).chain = s.chain := rfl
@[simp] theorem State.emit_imem (e : Event) : (s.emit e).imem = s.imem := rfl
@[simp] theorem State.emit_plen (e : Event) : (s.emit e).plen = s.plen := rfl
@[simp] theorem State.emit_seq (e : Event) : (s.emit e).seq = s.seq := rfl
@[simp] theorem State.emit_ring (e : Event) : (s.emit e).ring = s.ring := rfl
@[simp] theorem State.emit_buf (e : Event) : (s.emit e).buf = s.buf := rfl
@[simp] theorem State.emit_epoch (e : Event) : (s.emit e).epoch = s.epoch := rfl
@[simp] theorem State.emit_ports (e : Event) :
    (s.emit e).ports = { s.ports with events := s.ports.events ++ [e] } := rfl

/-! ### `respond` -/

@[simp] theorem State.respond_params (r : Reply) : (s.respond r).params = s.params := rfl
@[simp] theorem State.respond_cfg (r : Reply) : (s.respond r).cfg = s.cfg := rfl
@[simp] theorem State.respond_ctl (r : Reply) : (s.respond r).ctl = s.ctl := rfl
@[simp] theorem State.respond_chain (r : Reply) : (s.respond r).chain = s.chain := rfl
@[simp] theorem State.respond_imem (r : Reply) : (s.respond r).imem = s.imem := rfl
@[simp] theorem State.respond_plen (r : Reply) : (s.respond r).plen = s.plen := rfl
@[simp] theorem State.respond_seq (r : Reply) : (s.respond r).seq = s.seq := rfl
@[simp] theorem State.respond_ring (r : Reply) : (s.respond r).ring = s.ring := rfl
@[simp] theorem State.respond_buf (r : Reply) : (s.respond r).buf = s.buf := rfl
@[simp] theorem State.respond_epoch (r : Reply) : (s.respond r).epoch = s.epoch := rfl
@[simp] theorem State.respond_ports (r : Reply) : (s.respond r).ports = { s.ports with reply := some r } := rfl

/-! ### `setCtl` -/

@[simp] theorem State.setCtl_params (q : CtlState) : (s.setCtl q).params = s.params := rfl
@[simp] theorem State.setCtl_cfg (q : CtlState) : (s.setCtl q).cfg = s.cfg := rfl
@[simp] theorem State.setCtl_ctl (q : CtlState) : (s.setCtl q).ctl = { s.ctl with state := q } := rfl
@[simp] theorem State.setCtl_chain (q : CtlState) : (s.setCtl q).chain = s.chain := rfl
@[simp] theorem State.setCtl_imem (q : CtlState) : (s.setCtl q).imem = s.imem := rfl
@[simp] theorem State.setCtl_plen (q : CtlState) : (s.setCtl q).plen = s.plen := rfl
@[simp] theorem State.setCtl_seq (q : CtlState) : (s.setCtl q).seq = s.seq := rfl
@[simp] theorem State.setCtl_ring (q : CtlState) : (s.setCtl q).ring = s.ring := rfl
@[simp] theorem State.setCtl_buf (q : CtlState) : (s.setCtl q).buf = s.buf := rfl
@[simp] theorem State.setCtl_epoch (q : CtlState) : (s.setCtl q).epoch = s.epoch := rfl
@[simp] theorem State.setCtl_ports (q : CtlState) : (s.setCtl q).ports = s.ports := rfl

/-! ### `raiseError` -/

@[simp] theorem State.raiseError_params (e : ErrCode) :
    (s.raiseError e).params = s.params := by unfold State.raiseError; dsimp only; split <;> rfl
@[simp] theorem State.raiseError_cfg (e : ErrCode) :
    (s.raiseError e).cfg = s.cfg := by unfold State.raiseError; dsimp only; split <;> rfl
@[simp] theorem State.raiseError_chain (e : ErrCode) :
    (s.raiseError e).chain = s.chain := by unfold State.raiseError; dsimp only; split <;> rfl
@[simp] theorem State.raiseError_imem (e : ErrCode) :
    (s.raiseError e).imem = s.imem := by unfold State.raiseError; dsimp only; split <;> rfl
@[simp] theorem State.raiseError_plen (e : ErrCode) :
    (s.raiseError e).plen = s.plen := by unfold State.raiseError; dsimp only; split <;> rfl
@[simp] theorem State.raiseError_seq (e : ErrCode) :
    (s.raiseError e).seq = s.seq := by unfold State.raiseError; dsimp only; split <;> rfl
@[simp] theorem State.raiseError_ring (e : ErrCode) :
    (s.raiseError e).ring = s.ring := by unfold State.raiseError; dsimp only; split <;> rfl
@[simp] theorem State.raiseError_buf (e : ErrCode) :
    (s.raiseError e).buf = s.buf := by unfold State.raiseError; dsimp only; split <;> rfl
@[simp] theorem State.raiseError_epoch (e : ErrCode) :
    (s.raiseError e).epoch = s.epoch := by unfold State.raiseError; dsimp only; split <;> rfl
@[simp] theorem State.raiseError_ports (e : ErrCode) :
    (s.raiseError e).ports = { s.ports with events := s.ports.events ++ [.err] } := by unfold State.raiseError; dsimp only; split <;> rfl

/-! ### `resetRegisters` -/

@[simp] theorem State.resetRegisters_params : (s.resetRegisters).params = s.params := rfl
@[simp] theorem State.resetRegisters_cfg : (s.resetRegisters).cfg = Session.reset := rfl
@[simp] theorem State.resetRegisters_ctl : (s.resetRegisters).ctl = Controller.reset := rfl
@[simp] theorem State.resetRegisters_chain : (s.resetRegisters).chain = Chain.reset := rfl
@[simp] theorem State.resetRegisters_imem : (s.resetRegisters).imem = Four.all [] := rfl
@[simp] theorem State.resetRegisters_plen : (s.resetRegisters).plen = Four.all 0 := rfl
@[simp] theorem State.resetRegisters_seq : (s.resetRegisters).seq = s.seq := rfl
@[simp] theorem State.resetRegisters_ring : (s.resetRegisters).ring = Ring.reset := rfl
@[simp] theorem State.resetRegisters_buf : (s.resetRegisters).buf = [] := rfl
@[simp] theorem State.resetRegisters_epoch : (s.resetRegisters).epoch = s.epoch + 1 := rfl
@[simp] theorem State.resetRegisters_ports : (s.resetRegisters).ports = s.ports := rfl

/-! ### `discardSession` -/

@[simp] theorem State.discardSession_params : (s.discardSession).params = s.params := rfl
@[simp] theorem State.discardSession_cfg : (s.discardSession).cfg = Session.reset := rfl
@[simp] theorem State.discardSession_ctl : (s.discardSession).ctl = Controller.reset := rfl
@[simp] theorem State.discardSession_chain : (s.discardSession).chain = Chain.reset := rfl
@[simp] theorem State.discardSession_imem : (s.discardSession).imem = Four.all [] := rfl
@[simp] theorem State.discardSession_plen : (s.discardSession).plen = Four.all 0 := rfl
@[simp] theorem State.discardSession_seq : (s.discardSession).seq = s.seq := rfl
@[simp] theorem State.discardSession_ring : (s.discardSession).ring = Ring.reset := rfl
@[simp] theorem State.discardSession_buf : (s.discardSession).buf = [] := rfl
@[simp] theorem State.discardSession_epoch : (s.discardSession).epoch = s.epoch + 1 := rfl
@[simp] theorem State.discardSession_ports : (s.discardSession).ports = s.ports := rfl

/-! ### `powerOnReset` -/

@[simp] theorem State.powerOnReset_params : (s.powerOnReset).params = s.params := rfl
@[simp] theorem State.powerOnReset_cfg : (s.powerOnReset).cfg = Session.reset := rfl
@[simp] theorem State.powerOnReset_ctl : (s.powerOnReset).ctl = Controller.reset := rfl
@[simp] theorem State.powerOnReset_chain : (s.powerOnReset).chain = Chain.reset := rfl
@[simp] theorem State.powerOnReset_imem : (s.powerOnReset).imem = Four.all [] := rfl
@[simp] theorem State.powerOnReset_plen : (s.powerOnReset).plen = Four.all 0 := rfl
@[simp] theorem State.powerOnReset_seq : (s.powerOnReset).seq = s.seq := rfl
@[simp] theorem State.powerOnReset_ring : (s.powerOnReset).ring = Ring.reset := rfl
@[simp] theorem State.powerOnReset_buf : (s.powerOnReset).buf = [] := rfl
@[simp] theorem State.powerOnReset_epoch : (s.powerOnReset).epoch = s.epoch + 1 := rfl
@[simp] theorem State.powerOnReset_ports : (s.powerOnReset).ports = s.ports := rfl

/-! ### `markTrigger` -/

@[simp] theorem State.markTrigger_params : (s.markTrigger).params = s.params := rfl
@[simp] theorem State.markTrigger_cfg : (s.markTrigger).cfg = s.cfg := rfl
@[simp] theorem State.markTrigger_ctl : (s.markTrigger).ctl = s.ctl := rfl
@[simp] theorem State.markTrigger_chain : (s.markTrigger).chain = s.chain := rfl
@[simp] theorem State.markTrigger_imem : (s.markTrigger).imem = s.imem := rfl
@[simp] theorem State.markTrigger_plen : (s.markTrigger).plen = s.plen := rfl
@[simp] theorem State.markTrigger_seq : (s.markTrigger).seq = s.seq := rfl
@[simp] theorem State.markTrigger_ring :
    (s.markTrigger).ring = { s.ring with trig := s.ring.wr, trigv := true } := rfl
@[simp] theorem State.markTrigger_buf : (s.markTrigger).buf = s.buf := rfl
@[simp] theorem State.markTrigger_epoch : (s.markTrigger).epoch = s.epoch := rfl
@[simp] theorem State.markTrigger_ports : (s.markTrigger).ports = s.ports := rfl

/-! ### `startEval` -/

@[simp] theorem State.startEval_params (w : Word) : (s.startEval w).params = s.params := rfl
@[simp] theorem State.startEval_cfg (w : Word) : (s.startEval w).cfg = s.cfg := rfl
@[simp] theorem State.startEval_ctl (w : Word) : (s.startEval w).ctl = s.ctl := rfl
@[simp] theorem State.startEval_chain (w : Word) : (s.startEval w).chain = s.chain := rfl
@[simp] theorem State.startEval_imem (w : Word) : (s.startEval w).imem = s.imem := rfl
@[simp] theorem State.startEval_plen (w : Word) : (s.startEval w).plen = s.plen := rfl
@[simp] theorem State.startEval_seq (w : Word) :
    (s.startEval w).seq = { sr := w, pos := 0, upc := 0, result := none } := rfl
@[simp] theorem State.startEval_ring (w : Word) : (s.startEval w).ring = s.ring := rfl
@[simp] theorem State.startEval_buf (w : Word) : (s.startEval w).buf = s.buf := rfl
@[simp] theorem State.startEval_epoch (w : Word) : (s.startEval w).epoch = s.epoch := rfl
@[simp] theorem State.startEval_ports (w : Word) : (s.startEval w).ports = s.ports := rfl

/-! ### `advance` -/

@[simp] theorem State.advance_params (bits slots : Nat) : (s.advance bits slots).params = s.params := rfl
@[simp] theorem State.advance_cfg (bits slots : Nat) : (s.advance bits slots).cfg = s.cfg := rfl
@[simp] theorem State.advance_ctl (bits slots : Nat) : (s.advance bits slots).ctl = s.ctl := rfl
@[simp] theorem State.advance_chain (bits slots : Nat) : (s.advance bits slots).chain = s.chain := rfl
@[simp] theorem State.advance_imem (bits slots : Nat) : (s.advance bits slots).imem = s.imem := rfl
@[simp] theorem State.advance_plen (bits slots : Nat) : (s.advance bits slots).plen = s.plen := rfl
@[simp] theorem State.advance_seq (bits slots : Nat) :
    (s.advance bits slots).seq = { s.seq with pos := s.seq.pos + bits, upc := s.seq.upc + slots } := rfl
@[simp] theorem State.advance_ring (bits slots : Nat) : (s.advance bits slots).ring = s.ring := rfl
@[simp] theorem State.advance_buf (bits slots : Nat) : (s.advance bits slots).buf = s.buf := rfl
@[simp] theorem State.advance_epoch (bits slots : Nat) : (s.advance bits slots).epoch = s.epoch := rfl
@[simp] theorem State.advance_ports (bits slots : Nat) : (s.advance bits slots).ports = s.ports := rfl

/-! ### `endEval` -/

@[simp] theorem State.endEval_params (r : EvalResult) : (s.endEval r).params = s.params := rfl
@[simp] theorem State.endEval_cfg (r : EvalResult) : (s.endEval r).cfg = s.cfg := rfl
@[simp] theorem State.endEval_ctl (r : EvalResult) : (s.endEval r).ctl = s.ctl := rfl
@[simp] theorem State.endEval_chain (r : EvalResult) : (s.endEval r).chain = s.chain := rfl
@[simp] theorem State.endEval_imem (r : EvalResult) : (s.endEval r).imem = s.imem := rfl
@[simp] theorem State.endEval_plen (r : EvalResult) : (s.endEval r).plen = s.plen := rfl
@[simp] theorem State.endEval_seq (r : EvalResult) : (s.endEval r).seq = { s.seq with result := some r } := rfl
@[simp] theorem State.endEval_ring (r : EvalResult) : (s.endEval r).ring = s.ring := rfl
@[simp] theorem State.endEval_buf (r : EvalResult) : (s.endEval r).buf = s.buf := rfl
@[simp] theorem State.endEval_epoch (r : EvalResult) : (s.endEval r).epoch = s.epoch := rfl
@[simp] theorem State.endEval_ports (r : EvalResult) : (s.endEval r).ports = s.ports := rfl

/-! ### `loadSlots` -/

@[simp] theorem State.loadSlots_params (k : StageIx) (bytes : List Byte) :
    (s.loadSlots k bytes).params = s.params := rfl
@[simp] theorem State.loadSlots_cfg (k : StageIx) (bytes : List Byte) : (s.loadSlots k bytes).cfg = s.cfg := rfl
@[simp] theorem State.loadSlots_ctl (k : StageIx) (bytes : List Byte) : (s.loadSlots k bytes).ctl = s.ctl := rfl
@[simp] theorem State.loadSlots_chain (k : StageIx) (bytes : List Byte) : (s.loadSlots k bytes).chain = s.chain := rfl
@[simp] theorem State.loadSlots_imem (k : StageIx) (bytes : List Byte) :
    (s.loadSlots k bytes).imem = s.imem.set k (Memory.writeList (s.imem.get k) 0 bytes) := rfl
@[simp] theorem State.loadSlots_plen (k : StageIx) (bytes : List Byte) :
    (s.loadSlots k bytes).plen = s.plen.set k bytes.length := rfl
@[simp] theorem State.loadSlots_seq (k : StageIx) (bytes : List Byte) : (s.loadSlots k bytes).seq = s.seq := rfl
@[simp] theorem State.loadSlots_ring (k : StageIx) (bytes : List Byte) : (s.loadSlots k bytes).ring = s.ring := rfl
@[simp] theorem State.loadSlots_buf (k : StageIx) (bytes : List Byte) : (s.loadSlots k bytes).buf = s.buf := rfl
@[simp] theorem State.loadSlots_epoch (k : StageIx) (bytes : List Byte) : (s.loadSlots k bytes).epoch = s.epoch := rfl
@[simp] theorem State.loadSlots_ports (k : StageIx) (bytes : List Byte) : (s.loadSlots k bytes).ports = s.ports := rfl

/-! ### `putSample` -/

@[simp] theorem State.putSample_params (slot : Nat) (v : Word) : (s.putSample slot v).params = s.params := rfl
@[simp] theorem State.putSample_cfg (slot : Nat) (v : Word) : (s.putSample slot v).cfg = s.cfg := rfl
@[simp] theorem State.putSample_ctl (slot : Nat) (v : Word) : (s.putSample slot v).ctl = s.ctl := rfl
@[simp] theorem State.putSample_chain (slot : Nat) (v : Word) : (s.putSample slot v).chain = s.chain := rfl
@[simp] theorem State.putSample_imem (slot : Nat) (v : Word) : (s.putSample slot v).imem = s.imem := rfl
@[simp] theorem State.putSample_plen (slot : Nat) (v : Word) : (s.putSample slot v).plen = s.plen := rfl
@[simp] theorem State.putSample_seq (slot : Nat) (v : Word) : (s.putSample slot v).seq = s.seq := rfl
@[simp] theorem State.putSample_ring (slot : Nat) (v : Word) : (s.putSample slot v).ring = s.ring := rfl
@[simp] theorem State.putSample_buf (slot : Nat) (v : Word) :
    (s.putSample slot v).buf = Memory.writeList s.buf (slot * s.groupCount) (splitNibbles v s.groupCount) := rfl
@[simp] theorem State.putSample_epoch (slot : Nat) (v : Word) : (s.putSample slot v).epoch = s.epoch := rfl
@[simp] theorem State.putSample_ports (slot : Nat) (v : Word) : (s.putSample slot v).ports = s.ports := rfl

/-! ### `writeSample` -/

@[simp] theorem State.writeSample_params (v : Word) :
    (s.writeSample v).params = s.params := by unfold State.writeSample; dsimp only; split <;> rfl
@[simp] theorem State.writeSample_cfg (v : Word) :
    (s.writeSample v).cfg = s.cfg := by unfold State.writeSample; dsimp only; split <;> rfl
@[simp] theorem State.writeSample_ctl (v : Word) :
    (s.writeSample v).ctl = s.ctl := by unfold State.writeSample; dsimp only; split <;> rfl
@[simp] theorem State.writeSample_chain (v : Word) :
    (s.writeSample v).chain = s.chain := by unfold State.writeSample; dsimp only; split <;> rfl
@[simp] theorem State.writeSample_imem (v : Word) :
    (s.writeSample v).imem = s.imem := by unfold State.writeSample; dsimp only; split <;> rfl
@[simp] theorem State.writeSample_plen (v : Word) :
    (s.writeSample v).plen = s.plen := by unfold State.writeSample; dsimp only; split <;> rfl
@[simp] theorem State.writeSample_seq (v : Word) :
    (s.writeSample v).seq = s.seq := by unfold State.writeSample; dsimp only; split <;> rfl
@[simp] theorem State.writeSample_ring (v : Word) :
    (s.writeSample v).ring = { s.ring with wr := (s.ring.wr + 1) % s.cap, fill := min (s.ring.fill + 1) s.cap } := by unfold State.writeSample; dsimp only; split <;> rfl
@[simp] theorem State.writeSample_buf (v : Word) :
    (s.writeSample v).buf = (s.putSample s.ring.wr v).buf := by unfold State.writeSample; dsimp only; split <;> rfl
@[simp] theorem State.writeSample_epoch (v : Word) :
    (s.writeSample v).epoch = s.epoch := by unfold State.writeSample; dsimp only; split <;> rfl

/-! ### `configure` -/

@[simp] theorem State.configure_params (f : Session → Session) :
    (s.configure f).params = s.params := by unfold State.configure; split <;> rfl
@[simp] theorem State.configure_ctl (f : Session → Session) :
    (s.configure f).ctl = s.ctl := by unfold State.configure; split <;> rfl
@[simp] theorem State.configure_chain (f : Session → Session) :
    (s.configure f).chain = s.chain := by unfold State.configure; split <;> rfl
@[simp] theorem State.configure_imem (f : Session → Session) :
    (s.configure f).imem = s.imem := by unfold State.configure; split <;> rfl
@[simp] theorem State.configure_plen (f : Session → Session) :
    (s.configure f).plen = s.plen := by unfold State.configure; split <;> rfl
@[simp] theorem State.configure_seq (f : Session → Session) :
    (s.configure f).seq = s.seq := by unfold State.configure; split <;> rfl
@[simp] theorem State.configure_ring (f : Session → Session) :
    (s.configure f).ring = s.ring := by unfold State.configure; split <;> rfl
@[simp] theorem State.configure_buf (f : Session → Session) :
    (s.configure f).buf = s.buf := by unfold State.configure; split <;> rfl
@[simp] theorem State.configure_epoch (f : Session → Session) :
    (s.configure f).epoch = s.epoch := by unfold State.configure; split <;> rfl
@[simp] theorem State.configure_ports (f : Session → Session) :
    (s.configure f).ports = s.ports := by unfold State.configure; split <;> rfl

/-! ### `arm` -/

@[simp] theorem State.arm_params : (s.arm).params = s.params := rfl
@[simp] theorem State.arm_cfg : (s.arm).cfg = s.cfg := rfl
@[simp] theorem State.arm_ctl : (s.arm).ctl = { state := .armed, clken := true, err := .none, trunc := false } := rfl
@[simp] theorem State.arm_chain : (s.arm).chain = { stage := 0, settle := 0 } := rfl
@[simp] theorem State.arm_imem : (s.arm).imem = s.imem := rfl
@[simp] theorem State.arm_plen : (s.arm).plen = s.plen := rfl
@[simp] theorem State.arm_seq : (s.arm).seq = s.seq := rfl
@[simp] theorem State.arm_ring : (s.arm).ring = { s.ring with wr := 0, fill := 0, trigv := false } := rfl
@[simp] theorem State.arm_buf : (s.arm).buf = s.buf := rfl
@[simp] theorem State.arm_epoch : (s.arm).epoch = s.epoch := rfl
@[simp] theorem State.arm_ports : (s.arm).ports = s.ports := rfl

/-! ### `fire` -/

@[simp] theorem State.fire_params : (s.fire).params = s.params := rfl
@[simp] theorem State.fire_cfg : (s.fire).cfg = s.cfg := rfl
@[simp] theorem State.fire_ctl : (s.fire).ctl = { s.ctl with state := .postTrigger } := rfl
@[simp] theorem State.fire_chain : (s.fire).chain = s.chain := rfl
@[simp] theorem State.fire_imem : (s.fire).imem = s.imem := rfl
@[simp] theorem State.fire_plen : (s.fire).plen = s.plen := rfl
@[simp] theorem State.fire_seq : (s.fire).seq = s.seq := rfl
@[simp] theorem State.fire_ring :
    (s.fire).ring = { s.ring with trig := s.ring.wr, trigv := true, countdown := BitVec.ofNat 32 s.effPost } := rfl
@[simp] theorem State.fire_buf : (s.fire).buf = s.buf := rfl
@[simp] theorem State.fire_epoch : (s.fire).epoch = s.epoch := rfl
@[simp] theorem State.fire_ports : (s.fire).ports = { s.ports with events := s.ports.events ++ [.trig] } := rfl

/-! ### `countDown` -/

@[simp] theorem State.countDown_params :
    (s.countDown).params = s.params := by unfold State.countDown; dsimp only; split <;> first | rfl | (split <;> rfl)
@[simp] theorem State.countDown_cfg :
    (s.countDown).cfg = s.cfg := by unfold State.countDown; dsimp only; split <;> first | rfl | (split <;> rfl)
@[simp] theorem State.countDown_chain :
    (s.countDown).chain = s.chain := by unfold State.countDown; dsimp only; split <;> first | rfl | (split <;> rfl)
@[simp] theorem State.countDown_imem :
    (s.countDown).imem = s.imem := by unfold State.countDown; dsimp only; split <;> first | rfl | (split <;> rfl)
@[simp] theorem State.countDown_plen :
    (s.countDown).plen = s.plen := by unfold State.countDown; dsimp only; split <;> first | rfl | (split <;> rfl)
@[simp] theorem State.countDown_seq :
    (s.countDown).seq = s.seq := by unfold State.countDown; dsimp only; split <;> first | rfl | (split <;> rfl)
@[simp] theorem State.countDown_buf :
    (s.countDown).buf = s.buf := by unfold State.countDown; dsimp only; split <;> first | rfl | (split <;> rfl)
@[simp] theorem State.countDown_epoch :
    (s.countDown).epoch = s.epoch := by unfold State.countDown; dsimp only; split <;> first | rfl | (split <;> rfl)

/-! ### `openWindow` -/

@[simp] theorem State.openWindow_params : (s.openWindow).params = s.params := rfl
@[simp] theorem State.openWindow_cfg : (s.openWindow).cfg = s.cfg := rfl
@[simp] theorem State.openWindow_ctl : (s.openWindow).ctl = s.ctl := rfl
@[simp] theorem State.openWindow_chain : (s.openWindow).chain = s.chain := rfl
@[simp] theorem State.openWindow_imem : (s.openWindow).imem = s.imem := rfl
@[simp] theorem State.openWindow_plen : (s.openWindow).plen = s.plen := rfl
@[simp] theorem State.openWindow_seq : (s.openWindow).seq = s.seq := rfl
@[simp] theorem State.openWindow_buf : (s.openWindow).buf = s.buf := rfl
@[simp] theorem State.openWindow_epoch : (s.openWindow).epoch = s.epoch := rfl
@[simp] theorem State.openWindow_ports : (s.openWindow).ports = s.ports := rfl

/-! ### `stepCursor` -/

@[simp] theorem State.stepCursor_params : (s.stepCursor).params = s.params := rfl
@[simp] theorem State.stepCursor_cfg : (s.stepCursor).cfg = s.cfg := rfl
@[simp] theorem State.stepCursor_ctl : (s.stepCursor).ctl = s.ctl := rfl
@[simp] theorem State.stepCursor_chain : (s.stepCursor).chain = s.chain := rfl
@[simp] theorem State.stepCursor_imem : (s.stepCursor).imem = s.imem := rfl
@[simp] theorem State.stepCursor_plen : (s.stepCursor).plen = s.plen := rfl
@[simp] theorem State.stepCursor_seq : (s.stepCursor).seq = s.seq := rfl
@[simp] theorem State.stepCursor_ring :
    (s.stepCursor).ring = { s.ring with rd := (s.ring.rd + 1) % s.cap, remain := minus s.ring.remain 1 } := rfl
@[simp] theorem State.stepCursor_buf : (s.stepCursor).buf = s.buf := rfl
@[simp] theorem State.stepCursor_epoch : (s.stepCursor).epoch = s.epoch := rfl
@[simp] theorem State.stepCursor_ports : (s.stepCursor).ports = s.ports := rfl

/-! ### `flagTruncation` -/

@[simp] theorem State.flagTruncation_params :
    (s.flagTruncation).params = s.params := by unfold State.flagTruncation; dsimp only; split <;> simp
@[simp] theorem State.flagTruncation_cfg :
    (s.flagTruncation).cfg = s.cfg := by unfold State.flagTruncation; dsimp only; split <;> simp
@[simp] theorem State.flagTruncation_chain :
    (s.flagTruncation).chain = s.chain := by unfold State.flagTruncation; dsimp only; split <;> simp
@[simp] theorem State.flagTruncation_imem :
    (s.flagTruncation).imem = s.imem := by unfold State.flagTruncation; dsimp only; split <;> simp
@[simp] theorem State.flagTruncation_plen :
    (s.flagTruncation).plen = s.plen := by unfold State.flagTruncation; dsimp only; split <;> simp
@[simp] theorem State.flagTruncation_seq :
    (s.flagTruncation).seq = s.seq := by unfold State.flagTruncation; dsimp only; split <;> simp
@[simp] theorem State.flagTruncation_ring :
    (s.flagTruncation).ring = s.ring := by unfold State.flagTruncation; dsimp only; split <;> simp
@[simp] theorem State.flagTruncation_buf :
    (s.flagTruncation).buf = s.buf := by unfold State.flagTruncation; dsimp only; split <;> simp
@[simp] theorem State.flagTruncation_epoch :
    (s.flagTruncation).epoch = s.epoch := by unfold State.flagTruncation; dsimp only; split <;> simp

/-! ### `takeInput` -/

@[simp] theorem State.takeInput_params : (s.takeInput).params = s.params := rfl
@[simp] theorem State.takeInput_cfg : (s.takeInput).cfg = s.cfg := rfl
@[simp] theorem State.takeInput_ctl : (s.takeInput).ctl = s.ctl := rfl
@[simp] theorem State.takeInput_chain : (s.takeInput).chain = s.chain := rfl
@[simp] theorem State.takeInput_imem : (s.takeInput).imem = s.imem := rfl
@[simp] theorem State.takeInput_plen : (s.takeInput).plen = s.plen := rfl
@[simp] theorem State.takeInput_seq : (s.takeInput).seq = s.seq := rfl
@[simp] theorem State.takeInput_ring : (s.takeInput).ring = s.ring := rfl
@[simp] theorem State.takeInput_buf : (s.takeInput).buf = s.buf := rfl
@[simp] theorem State.takeInput_epoch : (s.takeInput).epoch = s.epoch := rfl
@[simp] theorem State.takeInput_ports :
    (s.takeInput).ports = { inbox := s.ports.inbox.tail, events := [], reply := none } := rfl

/-! ### `clearOutputs` -/

@[simp] theorem State.clearOutputs_params : (s.clearOutputs).params = s.params := rfl
@[simp] theorem State.clearOutputs_cfg : (s.clearOutputs).cfg = s.cfg := rfl
@[simp] theorem State.clearOutputs_ctl : (s.clearOutputs).ctl = s.ctl := rfl
@[simp] theorem State.clearOutputs_chain : (s.clearOutputs).chain = s.chain := rfl
@[simp] theorem State.clearOutputs_imem : (s.clearOutputs).imem = s.imem := rfl
@[simp] theorem State.clearOutputs_plen : (s.clearOutputs).plen = s.plen := rfl
@[simp] theorem State.clearOutputs_seq : (s.clearOutputs).seq = s.seq := rfl
@[simp] theorem State.clearOutputs_ring : (s.clearOutputs).ring = s.ring := rfl
@[simp] theorem State.clearOutputs_buf : (s.clearOutputs).buf = s.buf := rfl
@[simp] theorem State.clearOutputs_epoch : (s.clearOutputs).epoch = s.epoch := rfl
@[simp] theorem State.clearOutputs_ports :
    (s.clearOutputs).ports = { s.ports with events := [], reply := none } := rfl

/-! ### Derived quantities depend on the parameters and the configuration alone -/

theorem State.groupCount_congr {s t : State} (h : t.cfg = s.cfg) : t.groupCount = s.groupCount := by
  simp [State.groupCount, h]

theorem State.cap_congr {s t : State} (hp : t.params = s.params) (h : t.cfg = s.cfg) : t.cap = s.cap := by
  simp [State.cap, hp, h]

theorem State.stageCount_congr {s t : State} (h : t.cfg = s.cfg) : t.stageCount = s.stageCount := by
  simp [State.stageCount, State.cfgvBits, h]

theorem State.pre_congr {s t : State} (h : t.cfg = s.cfg) : t.pre = s.pre := by
  simp [State.pre, h]

theorem State.effPost_congr {s t : State} (hp : t.params = s.params) (h : t.cfg = s.cfg) : t.effPost = s.effPost := by
  simp [State.effPost, State.pre_congr h, State.cap_congr hp h, h]

theorem State.stageProgram_congr {s t : State} (hp : t.params = s.params) (h : t.cfg = s.cfg) (i : StageIx) :
    t.stageProgram i = s.stageProgram i := by
  simp [State.stageProgram, hp, h]

theorem State.validate_congr {s t : State} (hp : t.params = s.params) (h : t.cfg = s.cfg) :
    t.validate = s.validate := by
  simp [State.validate, State.groupCount_congr h, State.stageCount_congr h, State.cap_congr hp h,
    State.cfgvBits, h]

theorem State.nibble_congr {s t : State} (hb : t.buf = s.buf) (he : t.epoch = s.epoch) (q : Nat) :
    t.nibble q = s.nibble q := by
  simp [State.nibble, hb, he]

theorem State.nibbles_congr {s t : State} (hb : t.buf = s.buf) (he : t.epoch = s.epoch) (n : Nat) :
    ∀ base, t.nibbles base n = s.nibbles base n := by
  induction n with
  | zero => intro base; rfl
  | succ n ih => intro base; simp [State.nibbles, State.nibble_congr hb he, ih]

theorem State.sampleAt_congr {s t : State} (hb : t.buf = s.buf) (he : t.epoch = s.epoch) (hc : t.cfg = s.cfg)
    (slot : Nat) : t.sampleAt slot = s.sampleAt slot := by
  simp [State.sampleAt, State.groupCount_congr hc, State.nibbles_congr hb he]

theorem State.imemSlot_congr {s t : State} (hi : t.imem = s.imem) (he : t.epoch = s.epoch) (k : StageIx) (a : Nat) :
    t.imemSlot k a = s.imemSlot k a := by
  simp [State.imemSlot, hi, he]

/-! ### Register arrays -/

@[simp] theorem Four.get_set_same {α : Type} (v : Four α) (i : StageIx) (x : α) : (v.set i x).get i = x := by
  fin_cases i <;> rfl

theorem Four.get_set_ne {α : Type} (v : Four α) {i j : StageIx} (x : α) (h : j ≠ i) : (v.set i x).get j = v.get j := by
  fin_cases i <;> fin_cases j <;> first | rfl | exact absurd rfl h

@[simp] theorem Four.get_all {α : Type} (x : α) (i : StageIx) : (Four.all x).get i = x := by
  fin_cases i <;> rfl

/-! ### `andThen` -/

@[simp] theorem andThen_next (s : State) (f : State → Host.Outcome State Fault Refusal) : andThen (.next s) f = f s := rfl
@[simp] theorem andThen_fault (r : Fault) (f : State → Host.Outcome State Fault Refusal) :
    andThen (.fault r) f = .fault r := rfl
@[simp] theorem andThen_refused (r : Refusal) (f : State → Host.Outcome State Fault Refusal) :
    andThen (.refused r) f = .refused r := rfl

/-- A sequence answers a next state exactly when both parts do. -/
theorem andThen_eq_next {o : Host.Outcome State Fault Refusal} {f : State → Host.Outcome State Fault Refusal} {t : State} :
    andThen o f = .next t ↔ ∃ u, o = .next u ∧ f u = .next t := by
  cases o <;> simp

end Sys2Proof.Machine
end

