-- ==== Sys2Proof/Laws/Memory.lean ====
section
/-! SUPPORT. Read after write, and the canonical form, for a memory of cells; the instruction memories and the sample
store through them. -/

namespace Sys2Proof.Machine

variable {w : Nat}

/-! ### Read after write -/

/-- A cell just written reads as written. -/
@[simp] theorem Memory.read?_write_same (m : Memory w) (a : Nat) (v : BitVec w) :
    Memory.read? (Memory.write m a v) a = some v := by
  induction m with
  | nil => simp [Memory.write, Memory.read?]
  | cons c m ih =>
    obtain ⟨k, x⟩ := c
    simp only [Memory.write]
    split
    · simp [Memory.read?]
    · split
      · simp [Memory.read?]
      · simp [Memory.read?, *]

/-- A write leaves every other cell alone. -/
theorem Memory.read?_write_ne (m : Memory w) {a b : Nat} (v : BitVec w) (h : b ≠ a) :
    Memory.read? (Memory.write m a v) b = Memory.read? m b := by
  induction m with
  | nil => simp [Memory.write, Memory.read?, h]
  | cons c m ih =>
    obtain ⟨k, x⟩ := c
    simp only [Memory.write]
    split
    · simp [Memory.read?, h]
    · split
      · subst_vars; simp [Memory.read?, h]
      · simp [Memory.read?, ih]

/-- A run of cells leaves the cells before it and after it alone. -/
theorem Memory.read?_writeList_outside (vs : List (BitVec w)) :
    ∀ (m : Memory w) (a b : Nat), b < a ∨ a + vs.length ≤ b → Memory.read? (Memory.writeList m a vs) b = Memory.read? m b := by
  induction vs with
  | nil => intro m a b _; rfl
  | cons v vs ih =>
    intro m a b h
    simp only [Memory.writeList, List.length_cons] at h ⊢
    rw [ih _ _ _ (by omega), Memory.read?_write_ne _ _ (by omega)]

/-- A run of cells reads as written. -/
theorem Memory.read?_writeList_inside (vs : List (BitVec w)) :
    ∀ (m : Memory w) (a j : Nat), j < vs.length → Memory.read? (Memory.writeList m a vs) (a + j) = vs[j]? := by
  induction vs with
  | nil => intro m a j h; simp at h
  | cons v vs ih =>
    intro m a j h
    simp only [Memory.writeList]
    cases j with
    | zero => rw [Memory.read?_writeList_outside _ _ _ _ (by omega)]; simp
    | succ j =>
      have := ih (Memory.write m a v) (a + 1) j (by simpa using h)
      rw [show a + (j + 1) = a + 1 + j by omega, this]; simp

/-! ### The canonical form -/

/-- The canonical form, taken apart. -/
theorem Memory.wf_iff (limit : Nat) (m : Memory w) :
    Memory.wf limit m = true ↔ (m.map Prod.fst).Pairwise (· < ·) ∧ ∀ c ∈ m, c.1 < limit := by
  simp [Memory.wf]

/-- The addresses after a write are those before it and the one written. -/
theorem Memory.mem_write {m : Memory w} {a : Nat} {v : BitVec w} {c : Nat × BitVec w}
    (h : c ∈ Memory.write m a v) : c.1 = a ∨ c ∈ m := by
  induction m with
  | nil => simp [Memory.write] at h; simp [h]
  | cons d m ih =>
    obtain ⟨k, x⟩ := d
    simp only [Memory.write] at h
    split at h
    · rcases List.mem_cons.1 h with rfl | h
      · exact .inl rfl
      · exact .inr h
    · split at h
      · rcases List.mem_cons.1 h with rfl | h
        · exact .inl rfl
        · exact .inr (List.mem_cons_of_mem _ h)
      · rcases List.mem_cons.1 h with rfl | h
        · exact .inr (List.mem_cons_self ..)
        · exact (ih h).imp_right (List.mem_cons_of_mem _)

/-- A write below the limit keeps the canonical form. -/
theorem Memory.wf_write {limit : Nat} {m : Memory w} {a : Nat} {v : BitVec w}
    (hm : Memory.wf limit m = true) (ha : a < limit) : Memory.wf limit (Memory.write m a v) = true := by
  rw [Memory.wf_iff] at hm ⊢
  refine ⟨?_, fun c hc => ?_⟩
  · obtain ⟨hs, -⟩ := hm
    induction m with
    | nil => simp [Memory.write]
    | cons d m ih =>
      obtain ⟨k, x⟩ := d
      simp only [List.map_cons, List.pairwise_cons] at hs
      simp only [Memory.write]
      split
      · rename_i hk
        simp only [List.map_cons, List.pairwise_cons]
        refine ⟨?_, hs⟩
        intro b hb
        rcases List.mem_cons.1 hb with rfl | hb
        · exact hk
        · exact hk.trans (hs.1 b hb)
      · split
        · subst_vars; simp only [List.map_cons, List.pairwise_cons]; exact hs
        · rename_i h1 h2
          simp only [List.map_cons, List.pairwise_cons]
          refine ⟨?_, ih hs.2⟩
          intro b hb
          obtain ⟨c, hc, rfl⟩ := List.mem_map.1 hb
          rcases Memory.mem_write hc with h | h
          · rw [h]; omega
          · exact hs.1 _ (List.mem_map_of_mem h)
  · rcases Memory.mem_write hc with h | h
    · omega
    · exact hm.2 c h

/-- A run of cells below the limit keeps the canonical form. -/
theorem Memory.wf_writeList {limit : Nat} (vs : List (BitVec w)) :
    ∀ {m : Memory w} {a : Nat}, Memory.wf limit m = true → a + vs.length ≤ limit →
      Memory.wf limit (Memory.writeList m a vs) = true := by
  induction vs with
  | nil => intro m a hm _; exact hm
  | cons v vs ih =>
    intro m a hm ha
    simp only [List.length_cons] at ha
    exact ih (Memory.wf_write hm (by omega)) (by omega)

/-- The empty memory is in canonical form. -/
@[simp] theorem Memory.wf_nil (limit : Nat) : Memory.wf limit ([] : Memory w) = true := rfl

/-! ### Samples as nibbles (R64) -/

@[simp] theorem splitNibbles_length (n : Nat) : ∀ v : Word, (splitNibbles v n).length = n := by
  induction n with
  | zero => intro v; rfl
  | succ n ih => intro v; simp [splitNibbles, ih]

/-- Nibble j of a split sample is its bits [4j+3:4j]. -/
theorem splitNibbles_getElem? (n : Nat) : ∀ (v : Word) (j : Nat), j < n → (splitNibbles v n)[j]? = some (v.extractLsb' (4 * j) 4) := by
  induction n with
  | zero => intro v j h; omega
  | succ n ih =>
    intro v j h
    cases j with
    | zero => simp [splitNibbles]
    | succ j =>
      simp only [splitNibbles, List.getElem?_cons_succ, ih _ j (by omega), Option.some.injEq]
      ext i hi
      simp [BitVec.getElem_extractLsb', Nat.mul_succ]
      congr 1; omega

/-- Splitting a sample and joining the pieces gives the sample back, when it fits in n nibbles. -/
theorem joinNibbles_splitNibbles (n : Nat) : ∀ v : Word, v.toNat < 2 ^ (4 * n) → joinNibbles (splitNibbles v n) = v := by
  induction n with
  | zero =>
    intro v h
    have : v = 0#16 := BitVec.eq_of_toNat_eq (by simpa using h)
    simp [splitNibbles, joinNibbles, this]
  | succ n ih =>
    intro v h
    have hs : (v >>> 4).toNat < 2 ^ (4 * n) := by
      rw [BitVec.toNat_ushiftRight, Nat.shiftRight_eq_div_pow]
      refine Nat.div_lt_of_lt_mul ?_
      rw [← pow_add]; simpa [Nat.mul_succ, Nat.add_comm] using h
    simp only [splitNibbles, joinNibbles, ih _ hs]
    ext i hi
    simp only [BitVec.getElem_or, BitVec.getElem_shiftLeft, BitVec.getElem_setWidth, BitVec.getLsbD_extractLsb',
      BitVec.getElem_ushiftRight]
    by_cases h4 : i < 4
    · simp [h4, BitVec.getLsbD_eq_getElem, hi]
    · simp [h4, show 4 + (i - 4) = i by omega, BitVec.getLsbD_eq_getElem, hi]

/-- Joined nibbles take four bits each. -/
theorem joinNibbles_lt (ns : List Nibble) : (joinNibbles ns).toNat < 2 ^ (4 * ns.length) := by
  induction ns with
  | nil => simp [joinNibbles]
  | cons n ns ih =>
    rw [joinNibbles, BitVec.toNat_or]
    refine Nat.or_lt_two_pow ?_ ?_
    · rw [BitVec.toNat_setWidth]
      refine lt_of_le_of_lt (Nat.mod_le _ _) (lt_of_lt_of_le n.isLt (Nat.pow_le_pow_right (by omega) ?_))
      simp only [List.length_cons]; omega
    · rw [BitVec.toNat_shiftLeft, Nat.shiftLeft_eq]
      refine lt_of_le_of_lt (Nat.mod_le _ _) ?_
      have : 2 ^ (4 * (n :: ns).length) = 2 ^ (4 * ns.length) * 2 ^ 4 := by
        rw [← pow_add, List.length_cons, Nat.mul_add]
      rw [this]
      exact Nat.mul_lt_mul_of_pos_right ih (by norm_num)

/-- Nibble j of joined nibbles, when they fit in a word. -/
theorem joinNibbles_extract : ∀ (ns : List Nibble) (j : Nat) (n : Nibble), ns.length ≤ 4 → ns[j]? = some n →
    (joinNibbles ns).extractLsb' (4 * j) 4 = n := by
  intro ns
  induction ns with
  | nil => intro j n _ h; simp at h
  | cons x xs ih =>
    intro j n hl h
    simp only [List.length_cons] at hl
    cases j with
    | zero =>
      simp at h; subst h
      simp only [joinNibbles]
      apply BitVec.eq_of_getLsbD_eq; intro i hi
      simp [hi, show i < 16 by omega]
    | succ j =>
      simp only [List.getElem?_cons_succ] at h
      have hj : j < xs.length := by by_contra hc; rw [List.getElem?_eq_none (by omega)] at h; cases h
      rw [← ih j n (by omega) h]
      simp only [joinNibbles]
      apply BitVec.eq_of_getLsbD_eq; intro i hi
      simp only [BitVec.getLsbD_extractLsb', hi, decide_true, Bool.true_and, BitVec.getLsbD_or, BitVec.getLsbD_shiftLeft,
        BitVec.getLsbD_setWidth]
      rw [BitVec.getLsbD_of_ge x _ (by omega)]
      simp [show 4 * (j + 1) + i < 16 by omega, show 4 * (j + 1) + i - 4 = 4 * j + i by omega]; intro; omega

/-- A word has one nibble for each enabled group (R65). -/
theorem enabledNibbles_length (groups : BitVec 4) (p : Word) : (enabledNibbles groups p).length = groupCount groups := by
  simp only [enabledNibbles, groupCount, popcount4, List.filterMap_cons, List.filterMap_nil]
  cases groups.getLsbD 0 <;> cases groups.getLsbD 1 <;> cases groups.getLsbD 2 <;> cases groups.getLsbD 3 <;> rfl

/-- A packed sample is `SW` bits wide (R65). -/
theorem pack_lt (groups : BitVec 4) (p : Word) : (pack groups p).toNat < 2 ^ (4 * groupCount groups) := by
  rw [← enabledNibbles_length groups p]; exact joinNibbles_lt _

/-- A stretch of n nibbles has n of them. -/
@[simp] theorem State.nibbles_length (s : State) (n : Nat) : ∀ base, (s.nibbles base n).length = n := by
  induction n with
  | zero => intro b; rfl
  | succ n ih => intro b; simp [State.nibbles, ih]

/-- Nibble j of a stretch of the store. -/
theorem State.nibbles_getElem? (s : State) (n : Nat) : ∀ base j, j < n → (s.nibbles base n)[j]? = some (s.nibble (base + j)) := by
  induction n with
  | zero => intro b j h; omega
  | succ n ih =>
    intro b j h
    cases j with
    | zero => simp [State.nibbles]
    | succ j =>
      simp only [State.nibbles, List.getElem?_cons_succ]
      rw [ih _ _ (by omega), show b + 1 + j = b + (j + 1) by omega]

/-- The nibbles of a run of cells just written. -/
theorem State.nibbles_of_read {s : State} (ns : List Nibble) :
    ∀ base, (∀ j, j < ns.length → Memory.read? s.buf (base + j) = ns[j]?) → s.nibbles base ns.length = ns := by
  induction ns with
  | nil => intro base _; rfl
  | cons n ns ih =>
    intro base h
    simp only [List.length_cons, State.nibbles]
    have h0 := h 0 (by simp)
    simp only [Nat.add_zero, List.getElem?_cons_zero] at h0
    have : s.nibble base = n := by simp [State.nibble, h0]
    rw [this, ih (base + 1) fun j hj => by
      have := h (j + 1) (by simpa using hj)
      rw [show base + 1 + j = base + (j + 1) by omega, this]; simp]

/-- The nibbles of a stretch of the store that a write did not touch. -/
theorem State.nibbles_of_same {s t : State} (n : Nat) :
    ∀ base, (∀ j, j < n → t.nibble (base + j) = s.nibble (base + j)) → t.nibbles base n = s.nibbles base n := by
  induction n with
  | zero => intro base _; rfl
  | succ n ih =>
    intro base h
    simp only [State.nibbles]
    have h0 := h 0 (by omega)
    rw [Nat.add_zero] at h0
    rw [h0, ih (base + 1) fun j hj => by
      have := h (j + 1) (by omega)
      rwa [show base + 1 + j = base + (j + 1) by omega]]

/-- The cells of two slots do not meet. -/
theorem slot_cells_disjoint {g slot slot' j : Nat} (h : slot' ≠ slot) (hj : j < g) :
    slot' * g + j < slot * g ∨ slot * g + g ≤ slot' * g + j := by
  rcases Nat.lt_or_gt_of_ne h with h | h
  · left
    have : (slot' + 1) * g ≤ slot * g := Nat.mul_le_mul_right g h
    rw [Nat.succ_mul] at this; omega
  · right
    have : (slot + 1) * g ≤ slot' * g := Nat.mul_le_mul_right g h
    rw [Nat.succ_mul] at this; omega

/-- The sample just written reads as written, when it is `SW` bits wide (R171). -/
theorem State.sampleAt_putSample_same (s : State) (slot : Nat) {v : Word} (hv : v.toNat < 2 ^ (4 * s.groupCount)) :
    (s.putSample slot v).sampleAt slot = v := by
  have hg : (s.putSample slot v).groupCount = s.groupCount := State.groupCount_congr (by simp)
  have hn := State.nibbles_of_read (s := s.putSample slot v) (splitNibbles v s.groupCount) (slot * s.groupCount)
    fun j hj => by
      simp only [State.putSample_buf]
      exact Memory.read?_writeList_inside _ _ _ _ hj
  rw [splitNibbles_length] at hn
  rw [State.sampleAt, hg, hn, joinNibbles_splitNibbles _ _ hv]

/-- A sample write leaves every other slot alone (R69). -/
theorem State.sampleAt_putSample_ne (s : State) {slot slot' : Nat} (v : Word) (h : slot' ≠ slot) :
    (s.putSample slot v).sampleAt slot' = s.sampleAt slot' := by
  have hg : (s.putSample slot v).groupCount = s.groupCount := State.groupCount_congr (by simp)
  rw [State.sampleAt, hg, State.sampleAt]
  congr 1
  refine State.nibbles_of_same _ _ fun j hj => ?_
  simp only [State.nibble, State.putSample_buf, State.putSample_epoch]
  rw [Memory.read?_writeList_outside _ _ _ _ (by rw [splitNibbles_length]; exact slot_cells_disjoint h hj)]

end Sys2Proof.Machine
end

