-- ==== Sys2Proof/Laws/Compiler.lean ====
section
/-! SUPPORT. What the compiler and the loader do: runs, costs, and which banks a `Run` loads. -/

namespace Sys2Proof.Machine

/-! ### The compiler (R132 to R136) -/

/-- A run is maximal: it lies within the positions at hand, all its mask bits are `b`, and it stops only at bit 0 or at a
bit that is not `b`. -/
theorem runLength_maximal (mask : Word) (b : Bool) : ∀ r, runLength mask b r ≤ r ∧
    (∀ j, j < runLength mask b r → mask.getLsbD (r - 1 - j) = b) ∧
    (runLength mask b r = r ∨ mask.getLsbD (r - runLength mask b r - 1) ≠ b) := by
  intro r
  induction r with
  | zero => simp [runLength]
  | succ r ih =>
    simp only [runLength]
    split
    · rename_i h
      obtain ⟨h1, h2, h3⟩ := ih
      refine ⟨by omega, ?_, ?_⟩
      · intro j hj
        cases j with
        | zero => simpa using h
        | succ j => have := h2 j (by omega); rwa [show r + 1 - 1 - (j + 1) = r - 1 - j by omega]
      · rcases h3 with h3 | h3
        · left; omega
        · right; rwa [show r + 1 - (runLength mask b r + 1) - 1 = r - runLength mask b r - 1 by omega]
    · refine ⟨by omega, by omega, .inr ?_⟩; simpa

/-- A run of compared bits compiles to micro-operations. -/
theorem compileCompared_isMicro (lmax : Nat) (value : Word) : ∀ fuel r n, ∀ op ∈ compileCompared lmax value fuel r n,
    op.isMicro = true := by
  intro fuel
  induction fuel with
  | zero => intro r n op h; simp [compileCompared] at h
  | succ fuel ih =>
    intro r n op h
    simp only [compileCompared] at h
    split at h
    · simp at h
    · split at h
      · simp at h; subst h; rfl
      · rcases List.mem_cons.1 h with rfl | h
        · rfl
        · exact ih _ _ _ h

/-- The scan emits micro-operations. -/
theorem compileFrom_isMicro (lmax : Nat) (mask value : Word) : ∀ fuel r, ∀ op ∈ compileFrom lmax mask value fuel r,
    op.isMicro = true := by
  intro fuel
  induction fuel with
  | zero => intro r op h; simp [compileFrom] at h
  | succ fuel ih =>
    intro r op h
    simp only [compileFrom] at h
    split at h
    · simp at h
    · split at h
      · rcases List.mem_append.1 h with h | h
        · exact compileCompared_isMicro _ _ _ _ _ _ h
        · exact ih _ _ h
      · rcases List.mem_cons.1 h with rfl | h
        · rfl
        · exact ih _ _ h

/-- A compiled program holds micro-operations alone, whatever the parameter. -/
theorem compile_isMicro (lmax : Nat) (mask value : Word) : ∀ op ∈ compile lmax mask value, op.isMicro = true := by
  intro op h
  unfold compile at h
  split at h
  · simp at h
  · exact compileFrom_isMicro _ _ _ _ _ _ h

/-- An instruction takes as many slots as it costs (R136); a command takes none. -/
theorem encodeSlots_length (i : Instr) : (encodeSlots i).length = opCost i := by
  cases i <;> rfl

/-- A program takes as many slots as it costs. -/
theorem assemble_length (ops : List Instr) : (assemble ops).length = cost ops := by
  induction ops with
  | nil => rfl
  | cons op ops ih => simp only [assemble, List.length_append, cost, encodeSlots_length, ih]

/-- A micro-operation takes a slot at least. -/
theorem opCost_pos {i : Instr} (h : i.isMicro = true) : 1 ≤ opCost i := by
  cases i <;> first | exact Nat.le_refl _ | exact Nat.le_succ _ | exact absurd h (by simp [Instr.isMicro])

theorem cost_append (a b : List Instr) : cost (a ++ b) = cost a + cost b := by
  induction a with
  | nil => simp [cost]
  | cons x xs ih => simp [cost, ih]; omega

/-! ### The loader (R138, R193, R194) -/

variable (s : State)

@[simp] theorem State.load_stageCount (k : StageIx) (ops : List Instr) : (s.load k ops).stageCount = s.stageCount := rfl
@[simp] theorem State.load_stageProgram (k : StageIx) (ops : List Instr) (j : StageIx) :
    (s.load k ops).stageProgram j = s.stageProgram j := rfl

/-- What bank j holds after the programs of the stages `is` have been loaded: its own program when it is one of them and
configured, else what it held. -/
theorem State.loadStages_get : ∀ (is : List StageIx) (s : State) (j : StageIx), is.Nodup →
    (s.loadStages is).imem.get j =
      (if j ∈ is ∧ j.val < s.stageCount then (s.load j (s.stageProgram j)).imem.get j else s.imem.get j) ∧
    (s.loadStages is).plen.get j =
      (if j ∈ is ∧ j.val < s.stageCount then (s.load j (s.stageProgram j)).plen.get j else s.plen.get j) := by
  intro is
  induction is with
  | nil => intro s j _; simp [State.loadStages]
  | cons i is ih =>
    intro s j hn
    rw [List.nodup_cons] at hn
    simp only [State.loadStages]
    by_cases hi : i.val < s.stageCount
    · rw [if_pos hi, (ih (s.load i (s.stageProgram i)) j hn.2).1, (ih (s.load i (s.stageProgram i)) j hn.2).2,
        State.load_stageCount, State.load_stageProgram]
      by_cases hj : j = i
      · subst hj; simp [hn.1, hi]
      · simp only [List.mem_cons, hj, false_or]
        simp [State.load, State.loadSlots, Four.get_set_ne _ _ hj]
    · rw [if_neg hi, (ih s j hn.2).1, (ih s j hn.2).2]
      by_cases hj : j = i
      · subst hj; simp [hi]
      · simp [hj]

/-- No configured stage is over budget (R193). -/
theorem State.overBudget_eq_false :
    s.overBudget = false ↔ ∀ i : StageIx, i.val < s.stageCount → cost (s.stageProgram i) ≤ s.params.budget := by
  have all (j : StageIx) : j ∈ ([0, 1, 2, 3] : List StageIx) := by fin_cases j <;> decide
  simp only [State.overBudget, List.any_eq_false, Bool.and_eq_true, decide_eq_true_eq, not_and, Nat.not_lt]
  exact ⟨fun h i => h i (all i), fun h i _ => h i⟩

/-- The three ways a `Run` in `Idle` can go (R192 to R194). -/
theorem State.runSession_cases :
    (s.validate = false ∧ s.runSession = s.raiseError .invalidConfiguration) ∨
    (s.validate = true ∧ s.overBudget = true ∧ s.runSession = s.raiseError .compileOverflow) ∨
    (s.validate = true ∧ s.overBudget = false ∧ s.runSession = (s.loadStages [0, 1, 2, 3]).arm) := by
  unfold State.runSession
  cases h : s.validate
  · simp
  · cases h2 : s.overBudget <;> simp

end Sys2Proof.Machine
end

