-- ==== Sys2Proof/Laws/Decode.lean ====
section
/-! SUPPORT. What a legal opcode table gives the frame decoder: for each opcode, the command it decodes to; and the fields
of an assembled parameter. -/

namespace Sys2Proof

/-! ### The literal check (R86 f) -/

/-- Bits [7:n] of a slot are 0 exactly when its value is below 2^n. -/
theorem ushiftRight_eq_zero (lit : Byte) (n : Nat) : lit >>> n = 0#8 ↔ lit.toNat < 2 ^ n := by
  constructor
  · intro h
    have := congrArg BitVec.toNat h
    rw [BitVec.toNat_ushiftRight, Nat.shiftRight_eq_div_pow] at this
    simpa [Nat.div_eq_zero_iff] using this
  · intro h
    apply BitVec.eq_of_toNat_eq
    rw [BitVec.toNat_ushiftRight, Nat.shiftRight_eq_div_pow, Nat.div_eq_of_lt h]; rfl

/-! ### A legal opcode table (R90, R91) -/

/-- The parts of `Params.legal`. -/
theorem Params.legal_parts {P : Params} (h : P.legal = true) :
    2 ≤ P.lmax ∧ P.lmax ≤ 8 ∧ 1 ≤ P.budget ∧ P.budget ≤ 63 ∧ 2 ≤ P.capBytes ∧ P.opcodes.legal = true := by
  simp only [Params.legal, Bool.and_eq_true, decide_eq_true_eq] at h
  obtain ⟨⟨⟨⟨⟨h1, h2⟩, h3⟩, h4⟩, h5⟩, h6⟩ := h
  exact ⟨h1, h2, h3, h4, h5, h6⟩

/-- Bit 7 of a one-byte command's opcode is 0. -/
theorem Params.legal_c1 {P : Params} (h : P.legal = true) {op : Byte} (hop : op ∈ P.opcodes.c1) : op.getLsbD 7 = false := by
  have := (Params.legal_parts h).2.2.2.2.2
  simp only [OpcodeTable.legal, Bool.and_eq_true, List.all_eq_true] at this
  simpa using this.1.1 op hop

/-- Bit 7 of a five-byte command's opcode is 1. -/
theorem Params.legal_c5 {P : Params} (h : P.legal = true) {op : Byte} (hop : op ∈ P.opcodes.c5) : op.getLsbD 7 = true := by
  have := (Params.legal_parts h).2.2.2.2.2
  simp only [OpcodeTable.legal, Bool.and_eq_true, List.all_eq_true] at this
  exact this.1.2 op hop

/-- No opcode stands twice. -/
theorem Params.legal_nodup {P : Params} (h : P.legal = true) : (P.opcodes.c1 ++ P.opcodes.c5).Nodup := by
  have := (Params.legal_parts h).2.2.2.2.2
  simp only [OpcodeTable.legal, Bool.and_eq_true, decide_eq_true_eq] at this
  exact this.2

/-- A one-byte frame with a one-byte command's opcode goes to the one-byte commands. -/
theorem decodeFrame_c1 {P : Params} (h : P.legal = true) {op : Byte} (hop : op ∈ P.opcodes.c1) :
    decodeFrame P [op] = decodeC1 P op := by
  simp only [decodeFrame, Params.legal_c1 h hop]; rfl

/-- A five-byte frame with a five-byte command's opcode goes to the five-byte commands. -/
theorem decodeFrame_c5 {P : Params} (h : P.legal = true) {op : Byte} (hop : op ∈ P.opcodes.c5) (b1 b2 b3 b4 : Byte) :
    decodeFrame P [op, b1, b2, b3, b4] = decodeC5 P op (assembleParam b1 b2 b3 b4) := by
  simp only [decodeFrame, Params.legal_c5 h hop]; rfl

/-- `decodeC1` on each opcode of the table. -/
theorem decodeC1_opcodes {P : Params} (h : P.legal = true) :
    decodeC1 P P.opcodes.reset = .ok .reset ∧ decodeC1 P P.opcodes.run = .ok .run ∧
      decodeC1 P P.opcodes.identify = .ok .identify ∧ decodeC1 P P.opcodes.queryMetadata = .ok .queryMetadata := by
  have hn := Params.legal_nodup h
  simp only [OpcodeTable.c1, OpcodeTable.c5, List.cons_append, List.nil_append, List.nodup_cons, List.mem_cons,
    not_or] at hn
  obtain ⟨⟨h1, h2, h3, -⟩, ⟨h4, h5, -⟩, ⟨h6, -⟩, -⟩ := hn
  refine ⟨?_, ?_, ?_, ?_⟩ <;>
    simp [decodeC1, Ne.symm h1, Ne.symm h2, Ne.symm h3, Ne.symm h4, Ne.symm h5, Ne.symm h6]

/-- `decodeC5` on each opcode of the table. -/
theorem decodeC5_opcodes {P : Params} (h : P.legal = true) (p : Param) :
    decodeC5 P P.opcodes.setClockDivisor p = .ok (.setClockDivisor p) ∧
    decodeC5 P P.opcodes.setSampleCounts p =
      .ok (.setSampleCounts ((p.extractLsb' 0 16).setWidth 32) ((p.extractLsb' 16 16).setWidth 32)) ∧
    decodeC5 P P.opcodes.setFlags p = .ok (.setFlags (p.extractLsb' 0 4) (p.getLsbD 4)) ∧
    decodeC5 P P.opcodes.setTriggerMask p = .ok (.setTriggerMask (stageField p) (p.extractLsb' 0 16)) ∧
    decodeC5 P P.opcodes.setTriggerValue p = .ok (.setTriggerValue (stageField p) (p.extractLsb' 0 16)) ∧
    decodeC5 P P.opcodes.setTriggerConfig p = .ok (.setTriggerConfig (stageField p) (stageFields p)) := by
  have hn := Params.legal_nodup h
  simp only [OpcodeTable.c1, OpcodeTable.c5, List.cons_append, List.nil_append, List.nodup_cons, List.mem_cons,
    List.not_mem_nil, or_false, not_or] at hn
  obtain ⟨-, -, -, -, ⟨h1, h2, h3, h4, h5⟩, ⟨h6, h7, h8, h9⟩, ⟨h10, h11, h12⟩, ⟨h13, h14⟩, h15, -⟩ := hn
  refine ⟨?_, ?_, ?_, ?_, ?_, ?_⟩ <;>
    simp [decodeC5, Ne.symm h1, Ne.symm h2, Ne.symm h3, Ne.symm h4, Ne.symm h5, Ne.symm h6, Ne.symm h7, Ne.symm h8,
      Ne.symm h9, Ne.symm h10, Ne.symm h11, Ne.symm h12, Ne.symm h13, Ne.symm h14, Ne.symm h15]

/-- A frame decodes to no micro-operation. -/
theorem decodeFrame_not_micro {P : Params} {bs : List Byte} {i : Instr} (h : decodeFrame P bs = .ok i) :
    i.isMicro = false := by
  have c1 : ∀ op, decodeC1 P op = .ok i → i.isMicro = false := by
    intro op h
    unfold decodeC1 at h
    repeat' (split at h)
    all_goals (cases h <;> rfl)
  have c5 : ∀ op p, decodeC5 P op p = .ok i → i.isMicro = false := by
    intro op p h
    unfold decodeC5 at h
    repeat' (split at h)
    all_goals (cases h <;> rfl)
  unfold decodeFrame at h
  split at h
  · split at h
    · cases h
    · exact c1 _ h
  · split at h
    · exact c5 _ _ h
    · cases h
  · cases h

/-! ### The fields of a parameter (R66, R92) -/

/-- Bits of an assembled parameter. -/
theorem assembleParam_getLsbD (b1 b2 b3 b4 : Byte) (i : Nat) :
    (assembleParam b1 b2 b3 b4).getLsbD i =
      if i < 8 then b1.getLsbD i else if i < 16 then b2.getLsbD (i - 8) else if i < 24 then b3.getLsbD (i - 16)
      else b4.getLsbD (i - 24) := by
  simp only [assembleParam, BitVec.getLsbD_append]
  by_cases h1 : i < 8
  · simp [h1]
  by_cases h2 : i < 16
  · have : i - 8 < 8 := by omega
    simp [h1, h2, this]
  by_cases h3 : i < 24
  · have e1 : ¬ i - 8 < 8 := by omega
    have e2 : i - 8 - 8 < 8 := by omega
    rw [if_neg h1, if_neg e1, if_pos e2, if_neg h1, if_neg h2, if_pos h3, show i - 8 - 8 = i - 16 by omega]
  · have e1 : ¬ i - 8 < 8 := by omega
    have e2 : ¬ i - 8 - 8 < 8 := by omega
    rw [if_neg h1, if_neg e1, if_neg e2, if_neg h1, if_neg h2, if_neg h3, show i - 8 - 8 - 8 = i - 24 by omega]

/-- `P[15:0]` and `P[31:16]`. -/
theorem assembleParam_halves (b1 b2 b3 b4 : Byte) :
    (assembleParam b1 b2 b3 b4).extractLsb' 0 16 = b2 ++ b1 ∧
      (assembleParam b1 b2 b3 b4).extractLsb' 16 16 = b4 ++ b3 := by
  constructor <;> apply BitVec.eq_of_getLsbD_eq <;> intro i hi <;>
    simp only [BitVec.getLsbD_extractLsb', assembleParam_getLsbD, BitVec.getLsbD_append, hi, decide_true, Bool.true_and]
  · by_cases h : i < 8
    · simp [h]
    · simp [h, hi]
  · by_cases h : i < 8
    · simp [h, show ¬ 16 + i < 8 by omega, show 16 + i < 24 by omega]
    · simp [h, show ¬ 16 + i < 8 by omega, show ¬ 16 + i < 24 by omega, show 16 + i - 24 = i - 8 by omega]

/-- `P[17:16]` and `P[19:18]` lie in the third parameter byte. -/
theorem assembleParam_stages (b1 b2 b3 b4 : Byte) :
    ((assembleParam b1 b2 b3 b4).extractLsb' 16 2).toNat = b3.toNat % 4 ∧
      ((assembleParam b1 b2 b3 b4).extractLsb' 18 2).toNat = b3.toNat / 4 % 4 := by
  have h1 : (assembleParam b1 b2 b3 b4).extractLsb' 16 2 = b3.extractLsb' 0 2 := by
    apply BitVec.eq_of_getLsbD_eq
    intro i hi
    simp [assembleParam_getLsbD, hi, show ¬ 16 + i < 8 by omega, show 16 + i < 24 by omega]
  have h2 : (assembleParam b1 b2 b3 b4).extractLsb' 18 2 = b3.extractLsb' 2 2 := by
    apply BitVec.eq_of_getLsbD_eq
    intro i hi
    simp [assembleParam_getLsbD, hi, show ¬ 18 + i < 8 by omega, show 18 + i < 24 by omega,
      show ¬ 18 + i < 16 by omega, show 18 + i - 16 = 2 + i by omega]
  rw [h1, h2]
  simp [BitVec.extractLsb'_toNat, Nat.shiftRight_eq_div_pow]

/-- The bytes of a parameter, put together again. -/
theorem assembleParam_bytes (p : Param) :
    assembleParam (p.extractLsb' 0 8) (p.extractLsb' 8 8) (p.extractLsb' 16 8) (p.extractLsb' 24 8) = p := by
  apply BitVec.eq_of_getLsbD_eq
  intro i hi
  rw [assembleParam_getLsbD]
  simp only [BitVec.getLsbD_extractLsb']
  by_cases h1 : i < 8
  · simp [h1]
  by_cases h2 : i < 16
  · simp [h1, h2, show i - 8 < 8 by omega, show 8 + (i - 8) = i by omega]
  by_cases h3 : i < 24
  · simp [h1, h2, h3, show i - 16 < 8 by omega, show 16 + (i - 16) = i by omega]
  · simp [h1, h2, h3, show i - 24 < 8 by omega, show 24 + (i - 24) = i by omega]

/-- A five-byte frame goes to the five-byte commands with its parameter. -/
theorem decodeFrame_frameC5 {P : Params} (h : P.legal = true) {op : Byte} (hop : op ∈ P.opcodes.c5) (p : Param) :
    decodeFrame P (frameC5 op p) = decodeC5 P op p := by
  rw [frameC5, decodeFrame_c5 h hop, assembleParam_bytes]

end Sys2Proof
end

