-- ==== Sys2Proof/Laws/Ops.lean ====
section
/-! SUPPORT. For each shared operation, once, everything it can do. -/

namespace Sys2Proof.Machine

variable (s : State)

/-! ### Subtraction and derived quantities -/

/-- Where the difference exists, `minus` is it. -/
@[simp] theorem minus_of_le {a b : Nat} (h : b ≤ a) : minus a b = a - b := by simp [minus, h]

/-- `g` is at most 4. -/
theorem popcount4_le (v : BitVec 4) : popcount4 v ≤ 4 := by
  simp only [popcount4]
  cases v.getLsbD 0 <;> cases v.getLsbD 1 <;> cases v.getLsbD 2 <;> cases v.getLsbD 3 <;> decide

theorem State.groupCount_le : s.groupCount ≤ 4 := popcount4_le _

theorem State.stageCount_le : s.stageCount ≤ 4 := popcount4_le _

/-- The slots of the buffer lie within the store (R64). -/
theorem State.cap_mul_groupCount_le : s.cap * s.groupCount ≤ s.params.capNibbles := by
  unfold State.cap capSamples State.groupCount
  split
  · simp
  · exact Nat.div_mul_le_self _ _

/-- A slot exists only where a group is enabled. -/
theorem State.groupCount_pos_of_cap {n : Nat} (h : n < s.cap) : 0 < s.groupCount := by
  unfold State.cap capSamples at h
  split at h
  · omega
  · exact Nat.pos_of_ne_zero ‹_›

/-- The cells of a slot of the buffer lie within the store. -/
theorem State.slot_cells_lt {slot j : Nat} (hs : slot < s.cap) (hj : j < s.groupCount) :
    slot * s.groupCount + j < s.params.capNibbles := by
  have h1 : (slot + 1) * s.groupCount ≤ s.cap * s.groupCount := Nat.mul_le_mul_right _ hs
  have h2 := s.cap_mul_groupCount_le
  rw [Nat.succ_mul] at h1; omega

/-- `pre` when `POST` is at most `TOTAL` (R47). -/
theorem State.pre_of_le (h : s.cfg.post.toNat ≤ s.cfg.total.toNat) : s.pre = s.cfg.total.toNat - s.cfg.post.toNat :=
  minus_of_le h

/-- `effPost` spelt out when `POST` is at most `TOTAL` (R47, R175). -/
theorem State.effPost_of_le (h : s.cfg.post.toNat ≤ s.cfg.total.toNat) :
    s.effPost = min s.cfg.post.toNat (max 1 (s.cap - (s.cfg.total.toNat - s.cfg.post.toNat))) := by
  rw [State.effPost, State.pre_of_le s h]

/-- `effPost` never exceeds `POST`, so it fits `COUNTDOWN`. -/
theorem State.effPost_le_post : s.effPost ≤ s.cfg.post.toNat := Nat.min_le_left _ _

theorem State.effPost_lt : s.effPost < 2 ^ 32 := lt_of_le_of_lt s.effPost_le_post s.cfg.post.isLt

/-- `effPost` is at least 1 when `POST` is (R179). -/
theorem State.effPost_pos (h : 1 ≤ s.cfg.post.toNat) : 1 ≤ s.effPost := by
  unfold State.effPost; omega

/-- `effPost` never exceeds the capacity, when there is any. -/
theorem State.effPost_le_cap (h : 1 ≤ s.cap) : s.effPost ≤ s.cap := by
  unfold State.effPost; omega

/-! ### Errors (R250, R206) -/

theorem State.raiseError_ctl (e : ErrCode) (h : e ≠ .hardwareFault) :
    (s.raiseError e).ctl = { s.ctl with err := e } := by
  simp [State.raiseError, h]

@[simp] theorem State.raiseError_hardwareFault_ctl :
    (s.raiseError .hardwareFault).ctl = { s.ctl with state := .fault, clken := false, err := .hardwareFault } := by
  simp [State.raiseError]

/-- An error other than HardwareFault writes `ERR` and emits `EVT_ERR`, and nothing else (R264). -/
theorem State.raiseError_eq (e : ErrCode) (h : e ≠ .hardwareFault) :
    s.raiseError e = { s with
      ctl := { s.ctl with err := e }
      ports := { s.ports with events := s.ports.events ++ [.err] } } := by
  simp [State.raiseError, h, State.emit]

/-- HardwareFault writes `STATE`, `CLKEN`, `ERR` and emits `EVT_ERR`, and nothing else (R206). -/
theorem State.raiseError_hardwareFault_eq :
    s.raiseError .hardwareFault = { s with
      ctl := { s.ctl with state := .fault, clken := false, err := .hardwareFault }
      ports := { s.ports with events := s.ports.events ++ [.err] } } := by
  simp [State.raiseError, State.emit]

/-! ### Configuration writes (R51) -/

theorem State.configure_idle {f : Session → Session} (h : s.ctl.state = .idle) :
    s.configure f = { s with cfg := f s.cfg } := by
  simp [State.configure, h]

theorem State.configure_not_idle {f : Session → Session} (h : s.ctl.state ≠ .idle) : s.configure f = s := by
  simp [State.configure, h]

@[simp] theorem Session.updateStage_get_same (c : Session) (i : StageIx) (f : StageCfg → StageCfg) :
    (c.updateStage i f).stages.get i = f (c.stages.get i) := by
  simp [Session.updateStage]

theorem Session.updateStage_get_ne (c : Session) {i j : StageIx} (f : StageCfg → StageCfg) (h : j ≠ i) :
    (c.updateStage i f).stages.get j = c.stages.get j := by
  simp [Session.updateStage, Four.get_set_ne _ _ h]

/-! ### The loader (R138, R194) -/

/-- Loading programs changes the instruction memories and their lengths alone. -/
theorem State.loadStages_frame (is : List StageIx) : ∀ s : State, ∃ im pl, s.loadStages is = { s with imem := im, plen := pl } := by
  induction is with
  | nil => intro s; exact ⟨_, _, rfl⟩
  | cons i is ih =>
    intro s
    simp only [State.loadStages]
    split
    · obtain ⟨im, pl, e⟩ := ih (s.load i (s.stageProgram i))
      exact ⟨im, pl, e⟩
    · exact ih s

/-- A `Run` leaves the configuration, the parameters, the working registers and the sample store alone. -/
theorem State.runSession_frame :
    s.runSession.params = s.params ∧ s.runSession.cfg = s.cfg ∧ s.runSession.seq = s.seq ∧ s.runSession.buf = s.buf ∧
      s.runSession.epoch = s.epoch := by
  obtain ⟨im, pl, e⟩ := State.loadStages_frame [0, 1, 2, 3] s
  unfold State.runSession
  split
  · simp
  · split
    · simp
    · rw [e]; exact ⟨rfl, rfl, rfl, rfl, rfl⟩

/-! ### The ring buffer's write (R171 to R173) -/

@[simp] theorem State.writeSample_events (v : Word) :
    (s.writeSample v).ports =
      { s.ports with events := s.ports.events ++ (if (s.ring.wr + 1) % s.cap = 0 then [.wrap] else []) } := by
  unfold State.writeSample
  dsimp only
  split
  · simp [*]
  · simp [*]

/-- A sample just written reads as written (R171). -/
theorem State.sampleAt_writeSample_same {v : Word} (hv : v.toNat < 2 ^ (4 * s.groupCount)) :
    (s.writeSample v).sampleAt s.ring.wr = v := by
  rw [State.sampleAt_congr (s := s.putSample s.ring.wr v) (by simp) (by simp) (by simp)]
  exact s.sampleAt_putSample_same _ hv

/-- A sample write leaves every other slot alone. -/
theorem State.sampleAt_writeSample_ne {slot : Nat} (v : Word) (h : slot ≠ s.ring.wr) :
    (s.writeSample v).sampleAt slot = s.sampleAt slot := by
  rw [State.sampleAt_congr (s := s.putSample s.ring.wr v) (by simp) (by simp) (by simp)]
  exact s.sampleAt_putSample_ne v h

/-- A sample write within the buffer keeps the store's canonical form. -/
theorem State.wf_putSample {slot : Nat} {v : Word} (hb : Memory.wf s.params.capNibbles s.buf = true)
    (hs : slot < s.cap) : Memory.wf s.params.capNibbles (s.putSample slot v).buf = true := by
  rw [State.putSample_buf]
  refine Memory.wf_writeList _ hb ?_
  rw [splitNibbles_length]
  have hg := s.groupCount_pos_of_cap hs
  have := s.slot_cells_lt hs (j := s.groupCount - 1) (by omega)
  omega

/-! ### The countdown (R198) -/

/-- In `PostTrigger` with more than one sample to come, the countdown is all that changes. -/
theorem State.countDown_more (h : s.ctl.state = .postTrigger) (hc : 1 < s.ring.countdown.toNat) :
    s.countDown = { s with ring := { s.ring with countdown := s.ring.countdown - 1 } } := by
  have hm : BitVec.ofNat 32 (minus s.ring.countdown.toNat 1) = s.ring.countdown - 1 := by
    rw [minus_of_le (by omega)]; bv_omega
  have hz : ¬ s.ring.countdown - 1 = 0#32 := by bv_omega
  unfold State.countDown
  simp only [h, if_true, hm]
  rw [if_neg hz]

/-- In `PostTrigger` with the last sample written, the capture is complete. -/
theorem State.countDown_last (h : s.ctl.state = .postTrigger) (hc : s.ring.countdown.toNat = 1) :
    s.countDown = { s with
      ring := { s.ring with countdown := 0#32 }
      ctl := { s.ctl with state := .captured, clken := false }
      ports := { s.ports with events := s.ports.events ++ [.done] } } := by
  have hm : BitVec.ofNat 32 (minus s.ring.countdown.toNat 1) = 0#32 := by
    rw [minus_of_le (by omega), hc]
  unfold State.countDown
  simp only [h, if_true, hm]
  simp [State.emit]

/-- In every other state the countdown does nothing. -/
theorem State.countDown_other (h : s.ctl.state ≠ .postTrigger) : s.countDown = s := by
  simp [State.countDown, h]

/-- Of the buffer's registers the countdown writes `COUNTDOWN` alone. -/
theorem State.countDown_ring : ∃ cd, s.countDown.ring = { s.ring with countdown := cd } := by
  unfold State.countDown
  split
  · dsimp only; split <;> exact ⟨_, rfl⟩
  · exact ⟨s.ring.countdown, rfl⟩

@[simp] theorem State.countDown_wr : s.countDown.ring.wr = s.ring.wr := by
  obtain ⟨cd, e⟩ := s.countDown_ring; rw [e]

@[simp] theorem State.countDown_fill : s.countDown.ring.fill = s.ring.fill := by
  obtain ⟨cd, e⟩ := s.countDown_ring; rw [e]

/-- What a sample write and the countdown after it can answer. -/
theorem storeSample_eq_next {p : Word} {s t : State} :
    storeSample p s = .next t ↔ s.ring.wr < s.cap ∧ t = (s.writeSample (pack s.cfg.groups p)).countDown := by
  unfold storeSample
  split <;> simp [*, eq_comm]

/-! ### The stage chain (R153 to R158) -/

/-- The chain's step changes the chain's registers alone. -/
theorem State.chainDecide_frame : (s.chainDecide).1 = { s with chain := (s.chainDecide).1.chain } := by
  unfold State.chainDecide State.chainMatched
  split
  · dsimp only; split
    · rfl
    · split
      · rfl
      · split <;> rfl
  · rfl
  · rfl
  · rfl

/-- The chain stalls exactly when the evaluation has no match and no mismatch. -/
theorem State.chainDecide_stall :
    (s.chainDecide).2 = .stall ↔ s.seq.result ≠ some .matched ∧ s.seq.result ≠ some .noMatch := by
  unfold State.chainDecide State.chainMatched
  split
  · dsimp only; split
    · simp [*]
    · split
      · simp [*]
      · split <;> simp [*]
  · simp [*]
  · simp [*]
  · simp [*]

/-- The chain fires exactly on a match of a settled capture stage (R156). -/
theorem State.chainDecide_fire :
    (s.chainDecide).2 = .fire ↔
      s.seq.result = some .matched ∧ ¬ s.chain.settle < (s.cfg.stages.get s.chain.stage).delay ∧
        (s.cfg.stages.get s.chain.stage).starts = true := by
  unfold State.chainDecide State.chainMatched
  split
  · dsimp only; split
    · simp [*]
    · split
      · simp [*]
      · split <;> simp_all
  · simp [*]
  · simp [*]
  · simp [*]

/-- When the chain fires its registers keep their values (R156). -/
theorem State.chainDecide_fire_state (h : (s.chainDecide).2 = .fire) : (s.chainDecide).1 = s := by
  revert h
  unfold State.chainDecide State.chainMatched
  split
  · dsimp only; split
    · simp
    · split
      · simp
      · split <;> simp
  · simp
  · simp
  · simp

/-! ### The readback (R177) -/

/-- `TRUNC`, and ERR 3 with `EVT_ERR` when it is 1; nothing else (R253). -/
theorem State.flagTruncation_eq :
    s.flagTruncation =
      if s.ring.remain < s.cfg.total.toNat then { s with
        ctl := { s.ctl with trunc := true, err := .insufficientHistory }
        ports := { s.ports with events := s.ports.events ++ [.err] } }
      else { s with ctl := { s.ctl with trunc := false } } := by
  unfold State.flagTruncation truncFlag
  by_cases h : s.ring.remain < s.cfg.total.toNat
  · simp [h, State.raiseError, State.emit]
  · simp [h]

end Sys2Proof.Machine
end

