-- ==== Sys2Proof/Laws/Eval.lean ====
section
/-! SUPPORT. What a micro-operation and an evaluation can do to the state: the working registers, nothing else. -/

namespace Sys2Proof.Machine

/-- A decoded slot is a micro-operation. -/
theorem decodeMicro_isMicro {P : Params} {b0 : Byte} {b1 : Option Byte} {i : Instr} (h : decodeMicro P b0 b1 = .ok i) :
    i.isMicro = true := by
  unfold decodeMicro at h
  split at h
  · unfold decodeSkip at h; split at h <;> cases h; rfl
  · split at h
    · unfold decodeMatchSingleBit at h; split at h <;> cases h; rfl
    · split at h
      · unfold decodeMatchRun at h
        dsimp only at h
        split at h
        · cases h
        · split at h
          · cases h
          · split at h
            · cases h
            · split at h <;> cases h; rfl
      · cases h

/-- A micro-operation always answers a next state, and it differs in the working registers alone. -/
theorem exec_micro {i : Instr} (h : i.isMicro = true) (s : State) : ∃ q, exec i s = .next { s with seq := q } := by
  cases i with
  | skip n => simp only [exec, execSkip]; split <;> exact ⟨_, rfl⟩
  | matchSingleBit p =>
    simp only [exec, execMatchSingleBit]
    split
    · exact ⟨_, rfl⟩
    · split <;> exact ⟨_, rfl⟩
  | matchRun len lit =>
    simp only [exec, execMatchRun]
    split
    · exact ⟨_, rfl⟩
    · split <;> exact ⟨_, rfl⟩
  | _ => exact absurd h (by simp [Instr.isMicro])

/-- What a micro-operation does to the working registers, whatever the rest of the state: it ends the evaluation where it
stands, or goes on within the word and past its own slots. -/
theorem exec_micro_seq {i : Instr} (h : i.isMicro = true) (q0 : Sequencer) :
    ∃ q, q.sr = q0.sr ∧ (∀ s : State, s.seq = q0 → exec i s = .next { s with seq := q }) ∧
      (q.result = some .stall ∧ q.pos = q0.pos ∧ q.upc = q0.upc ∨
        q.result = some .noMatch ∧ q.pos = q0.pos ∧ q.upc = q0.upc ∨
        q.result = q0.result ∧ q.pos ≤ 16 ∧ q.upc = q0.upc + opCost i) := by
  have fit : ∀ n, ¬ q0.overrun n = true → q0.pos + n ≤ 16 := fun n hc => by simpa [Sequencer.overrun] using hc
  cases i with
  | skip n =>
    by_cases hc : q0.overrun n
    · exact ⟨{ q0 with result := some .stall }, rfl, fun s hs => by simp [exec, execSkip, hs, hc, State.endEval],
        .inl ⟨rfl, rfl, rfl⟩⟩
    · exact ⟨{ q0 with pos := q0.pos + n, upc := q0.upc + 1 }, rfl,
        fun s hs => by simp [exec, execSkip, hs, hc, State.advance], .inr (.inr ⟨rfl, fit n hc, rfl⟩)⟩
  | matchSingleBit p =>
    by_cases hc : q0.overrun 1
    · exact ⟨{ q0 with result := some .stall }, rfl,
        fun s hs => by simp [exec, execMatchSingleBit, hs, hc, State.endEval], .inl ⟨rfl, rfl, rfl⟩⟩
    · by_cases hd : q0.bitDiffers p
      · exact ⟨{ q0 with result := some .noMatch }, rfl,
          fun s hs => by simp [exec, execMatchSingleBit, hs, hc, hd, State.endEval], .inr (.inl ⟨rfl, rfl, rfl⟩)⟩
      · exact ⟨{ q0 with pos := q0.pos + 1, upc := q0.upc + 1 }, rfl,
          fun s hs => by simp [exec, execMatchSingleBit, hs, hc, hd, State.advance], .inr (.inr ⟨rfl, fit 1 hc, rfl⟩)⟩
  | matchRun len lit =>
    by_cases hc : q0.overrun len
    · exact ⟨{ q0 with result := some .stall }, rfl, fun s hs => by simp [exec, execMatchRun, hs, hc, State.endEval],
        .inl ⟨rfl, rfl, rfl⟩⟩
    · by_cases hd : q0.runDiffers len lit
      · exact ⟨{ q0 with result := some .noMatch }, rfl,
          fun s hs => by simp [exec, execMatchRun, hs, hc, hd, State.endEval], .inr (.inl ⟨rfl, rfl, rfl⟩)⟩
      · exact ⟨{ q0 with pos := q0.pos + len, upc := q0.upc + 2 }, rfl,
          fun s hs => by simp [exec, execMatchRun, hs, hc, hd, State.advance], .inr (.inr ⟨rfl, fit len hc, rfl⟩)⟩
  | _ => exact absurd h (by simp [Instr.isMicro])

/-- An instruction that is fetched is a micro-operation. -/
theorem fetchMicro_isMicro {s : State} {k : StageIx} {i : Instr} (h : s.fetchMicro k = .ok (some i)) : i.isMicro = true := by
  have key : ∀ b0 b1, (decodeMicro s.params b0 b1).toOption = some i → i.isMicro = true := by
    intro b0 b1 hd
    cases hx : decodeMicro s.params b0 b1 with
    | error e => rw [hx] at hd; cases hd
    | ok j =>
      rw [hx] at hd
      cases hd
      exact decodeMicro_isMicro hx
  unfold State.fetchMicro at h
  split at h
  · cases h
  · split at h
    · split at h
      · cases h
      · exact key _ _ (Except.ok.inj h)
    · exact key _ _ (Except.ok.inj h)

/-- If the loop of R110 answers a next state, it differs in the working registers alone and carries a result. -/
theorem evalLoop_next {k : StageIx} (fuel : Nat) : ∀ {s t : State}, evalLoop k fuel s = .next t →
    ∃ q, t = { s with seq := q } ∧ q.result.isSome := by
  induction fuel with
  | zero => intro s t h; cases h; exact ⟨_, rfl, rfl⟩
  | succ fuel ih =>
    intro s t h
    simp only [evalLoop] at h
    split at h
    · cases h; exact ⟨_, rfl, rfl⟩
    · split at h
      · cases h
      · cases h; exact ⟨_, rfl, rfl⟩
      · rename_i i hf
        obtain ⟨q, hq⟩ := exec_micro (fetchMicro_isMicro hf) s
        rw [hq, andThen_next] at h
        split at h
        · obtain ⟨q', rfl, hr⟩ := ih h; exact ⟨q', rfl, hr⟩
        · cases h; exact ⟨q, rfl, Option.isSome_iff_ne_none.2 ‹_›⟩

/-- If an evaluation answers a next state, it differs in the working registers alone and carries a result (R110). -/
theorem evalStage_next {k : StageIx} {w : Word} {s t : State} (h : evalStage k w s = .next t) :
    ∃ q, t = { s with seq := q } ∧ q.result.isSome := by
  obtain ⟨q, rfl, hr⟩ := evalLoop_next _ h; exact ⟨q, rfl, hr⟩

end Sys2Proof.Machine
end

