-- ==== Sys2Proof/Laws/PerInstr.lean ====
section
/-! SUPPORT. One lemma per instruction: how many bytes its encoding has (R80, R90). -/

namespace Sys2Proof.Laws

/-- The length of an instruction's encoding in bytes: one or two slots for a micro-operation (R80), one or five frame bytes
for a command (R90). -/
def EncodingLength.bytes : Instr → Nat
  | .skip _ => 1
  | .matchSingleBit _ => 1
  | .matchRun _ _ => 2
  | .reset => 1
  | .run => 1
  | .identify => 1
  | .queryMetadata => 1
  | .setClockDivisor _ => 5
  | .setSampleCounts _ _ => 5
  | .setFlags _ _ => 5
  | .setTriggerMask _ _ => 5
  | .setTriggerValue _ _ => 5
  | .setTriggerConfig _ _ => 5

/-- Whatever the parameters, the instruction's encoding has its length. -/
def EncodingLength.Statement (i : Instr) : Prop := ∀ P : Params, (encode P i).length = EncodingLength.bytes i

theorem EncodingLength.skip (n : Nat) : EncodingLength.Statement (.skip n) := fun _ => rfl
theorem EncodingLength.matchSingleBit (p : Bool) : EncodingLength.Statement (.matchSingleBit p) := fun _ => rfl
theorem EncodingLength.matchRun (len : Nat) (lit : Byte) : EncodingLength.Statement (.matchRun len lit) := fun _ => rfl
theorem EncodingLength.reset : EncodingLength.Statement .reset := fun _ => rfl
theorem EncodingLength.run : EncodingLength.Statement .run := fun _ => rfl
theorem EncodingLength.identify : EncodingLength.Statement .identify := fun _ => rfl
theorem EncodingLength.queryMetadata : EncodingLength.Statement .queryMetadata := fun _ => rfl
theorem EncodingLength.setClockDivisor (d : BitVec 32) : EncodingLength.Statement (.setClockDivisor d) := fun _ => rfl
theorem EncodingLength.setSampleCounts (total post : BitVec 32) : EncodingLength.Statement (.setSampleCounts total post) :=
  fun _ => rfl
theorem EncodingLength.setFlags (groups : BitVec 4) (rle : Bool) : EncodingLength.Statement (.setFlags groups rle) :=
  fun _ => rfl
theorem EncodingLength.setTriggerMask (i : StageIx) (mask : Word) : EncodingLength.Statement (.setTriggerMask i mask) :=
  fun _ => rfl
theorem EncodingLength.setTriggerValue (i : StageIx) (value : Word) : EncodingLength.Statement (.setTriggerValue i value) :=
  fun _ => rfl
theorem EncodingLength.setTriggerConfig (i : StageIx) (f : StageFields) : EncodingLength.Statement (.setTriggerConfig i f) :=
  fun _ => rfl

end Sys2Proof.Laws
end

