-- ==== Sys2Proof/Laws/Step.lean ====
section
/-! SUPPORT. What a step can do, said once: by input, and within a tick by the signal of the stage chain. -/

namespace Sys2Proof.Machine

/-- A step either finds no input and clears the outputs, or takes the first one. -/
theorem step_cases {s t : State} (h : step s = .next t) :
    (s.ports.inbox = [] ∧ t = s.clearOutputs) ∨
      ∃ i rest, s.ports.inbox = i :: rest ∧ receive i s.takeInput = .next t := by
  unfold step stepInput at h
  split at h
  · left; cases h; exact ⟨‹_›, rfl⟩
  · right; exact ⟨_, _, ‹_›, h⟩

/-- When a tick is taken (R205). -/
theorem State.sampling_iff (s : State) :
    s.sampling = true ↔
      s.ctl.clken = true ∧ (s.ctl.state = .armed ∨ s.ctl.state = .capturing ∨ s.ctl.state = .postTrigger) := by
  unfold State.sampling; simp [or_assoc]

/-- What a frame at the command port can do: nothing, `Discard()` for `Reset`, `Run` in `Idle`, or a configuration write in
`Idle`. -/
theorem command_cases {s t : State} {bs : List Byte} (h : command bs s = .next t) :
    t = s ∨ (decodeFrame s.params bs = .ok .reset ∧ s.ctl.state ≠ .fault ∧ t = s.discardSession) ∨
      (decodeFrame s.params bs = .ok .run ∧ s.ctl.state = .idle ∧ t = s.runSession) ∨
      (s.ctl.state = .idle ∧ ∃ c, t = { s with cfg := c }) := by
  unfold command at h
  split at h
  · rename_i i hd
    have hm := decodeFrame_not_micro hd
    have conf : ∀ f : Session → Session, .next (s.configure f) = (.next t : Host.Outcome State Fault Refusal) →
        t = s ∨ (s.ctl.state = .idle ∧ ∃ c, t = { s with cfg := c }) := by
      intro f e
      cases e
      unfold State.configure
      split
      · exact .inr ⟨‹_›, _, rfl⟩
      · exact .inl rfl
    cases i with
    | reset =>
      simp only [exec, execReset] at h
      split at h <;> cases h
      · exact .inl rfl
      · exact .inr (.inl ⟨hd, ‹_›, rfl⟩)
    | run =>
      simp only [exec, execRun] at h
      split at h <;> cases h
      · exact .inr (.inr (.inl ⟨hd, ‹_›, rfl⟩))
      · exact .inl rfl
    | identify => cases h; exact .inl rfl
    | queryMetadata => cases h; exact .inl rfl
    | setClockDivisor d => exact (conf _ h).imp_right fun x => .inr (.inr x)
    | setSampleCounts a b => exact (conf _ h).imp_right fun x => .inr (.inr x)
    | setFlags a b => exact (conf _ h).imp_right fun x => .inr (.inr x)
    | setTriggerMask j m => exact (conf _ h).imp_right fun x => .inr (.inr x)
    | setTriggerValue j m => exact (conf _ h).imp_right fun x => .inr (.inr x)
    | setTriggerConfig j m => exact (conf _ h).imp_right fun x => .inr (.inr x)
    | _ => exact absurd hm (by simp [Instr.isMicro])
  · cases h; exact .inl rfl

/-- What a tick that is taken before the trigger can do: it evaluates the active stage and then raises HardwareFault,
fires and stores, or stores (R196). -/
theorem captureTick_cases {s t : State} {p : Word} (hk : s.sampling = true) (hs : s.ctl.state ≠ .postTrigger)
    (h : tick p s = .next t) :
    ∃ u q, evalStage s.chain.stage p (s.setCtl .capturing) = .next u ∧ u = { s.setCtl .capturing with seq := q } ∧
      q.result.isSome ∧
      ((u.chainDecide.2 = .stall ∧ t = (u.chainDecide.1).raiseError .hardwareFault) ∨
        (u.chainDecide.2 = .fire ∧ u.chainDecide.1 = u ∧ storeSample p u.fire = .next t) ∨
        (u.chainDecide.2 = .quiet ∧ storeSample p u.chainDecide.1 = .next t)) := by
  simp only [tick, hk, if_true, hs, if_false, captureTick, State.setCtl_chain] at h
  obtain ⟨u, h1, h2⟩ := andThen_eq_next.1 h
  obtain ⟨q, rfl, hq⟩ := evalStage_next h1
  refine ⟨_, q, h1, rfl, hq, ?_⟩
  generalize hd : State.chainDecide { s.setCtl .capturing with seq := q } = d at h2
  obtain ⟨x, y⟩ := d
  cases y with
  | stall => left; cases h2; exact ⟨rfl, rfl⟩
  | fire =>
    right; left
    have hf := State.chainDecide_fire_state { s.setCtl .capturing with seq := q } (by rw [hd])
    rw [hd] at hf
    refine ⟨rfl, hf, ?_⟩
    rw [← hf]; exact h2
  | quiet => right; right; exact ⟨rfl, h2⟩

/-- What a sample write and the countdown after it leave alone, and what they can do to the controller. -/
theorem storeSample_frame {s t : State} {p : Word} (h : storeSample p s = .next t) :
    t.params = s.params ∧ t.imem = s.imem ∧ t.plen = s.plen ∧ t.cfg = s.cfg ∧ t.epoch = s.epoch ∧ t.chain = s.chain ∧
      t.seq = s.seq ∧
      (t.ctl = s.ctl ∨ s.ctl.state = .postTrigger ∧ t.ctl = { s.ctl with state := .captured, clken := false }) := by
  obtain ⟨h1, rfl⟩ := storeSample_eq_next.1 h
  refine ⟨by simp, by simp, by simp, by simp, by simp, by simp, by simp, ?_⟩
  unfold State.countDown
  split
  · rename_i hs
    dsimp only
    split
    · right; simp at hs; simp [hs]
    · left; simp
  · left; simp

/-- What `BeginRead` can do. -/
theorem beginRead_cases {s t : State} (h : beginRead s = .next t) :
    t = s ∨ (s.ctl.state = .captured ∧ s.cap ≠ 0 ∧
      t = (s.openWindow.flagTruncation.setCtl .streaming).respond
        (.window (s.openWindow.flagTruncation.setCtl .streaming).ring.remain
          (s.openWindow.flagTruncation.setCtl .streaming).ctl.trunc)) := by
  unfold beginRead at h
  split at h
  · split at h
    · cases h
    · cases h; exact .inr ⟨‹_›, ‹_›, rfl⟩
  · cases h; exact .inl rfl

/-- What `ReadNext` can do. -/
theorem readNext_cases {s t : State} (h : readNext s = .next t) :
    t = s ∨ (s.ctl.state = .streaming ∧ s.ring.rd < s.cap ∧
      ∃ r, t = (if s.stepCursor.ring.remain = 0 then s.stepCursor.discardSession else s.stepCursor).respond r) := by
  unfold readNext at h
  split at h
  · split at h
    · cases h; exact .inr ⟨‹_›, ‹_›, _, rfl⟩
    · cases h
  · cases h; exact .inl rfl

end Sys2Proof.Machine
end

