-- ==== Sys2Proof/Tests/Slice0.lean ====
section
/-! SUPPORT. Tests: what WellFormed refuses, the decoding of written-out words, one step or one evaluation per instruction
with the results of 95_test_vectors.md, and for every obligation with hypotheses a state that meets them together. -/

namespace Sys2Proof.Tests

open Sys2Proof.Machine

/-! ### WellFormed refuses (R84, R86, R92) -/

theorem test_wf_skip_zero : (Instr.skip 0).wf Params.standard = false := by decide
theorem test_wf_skip_seventeen : (Instr.skip 17).wf Params.standard = false := by decide
theorem test_wf_run_empty : (Instr.matchRun 0 0#8).wf Params.standard = false := by decide
theorem test_wf_run_over_lmax : (Instr.matchRun 5 0#8).wf { Params.standard with lmax := 4 } = false := by decide
theorem test_wf_run_over_eight : (Instr.matchRun 9 0#8).wf { Params.standard with lmax := 12 } = false := by decide
theorem test_wf_literal_too_wide : (Instr.matchRun 3 0x08#8).wf Params.standard = false := by decide
theorem test_wf_total_too_wide : (Instr.setSampleCounts 65536 1).wf Params.standard = false := by decide
theorem test_wf_post_too_wide : (Instr.setSampleCounts 1 65536).wf Params.standard = false := by decide
theorem test_legal_lmax : { Params.standard with lmax := 9 }.legal = false := by decide
theorem test_legal_budget : { Params.standard with budget := 64 }.legal = false := by decide
theorem test_legal_capacity : { Params.standard with capBytes := 1 }.legal = false := by decide
theorem test_legal_opcode_twice :
    { Params.standard with opcodes := { OpcodeTable.standard with run := 0x00#8 } }.legal = false := by decide

/-! ### Decoding of words written out from the encodings of 30_encoding.md -/

/-- R81: `00` `00` nm1 = 1011, n = 12 (T1). -/
theorem test_decode_skip : decodeSlots Params.standard [0b00001011#8] = .ok (.skip 12, []) := by decide
/-- R82: `01` `00000` p = 1. -/
theorem test_decode_matchSingleBit : decodeSlots Params.standard [0b01000001#8] = .ok (.matchSingleBit true, []) := by decide
/-- R83: `10` `000` Lm1 = 001, then the literal `01` right-aligned (T1). -/
theorem test_decode_matchRun : decodeSlots Params.standard [0b10000001#8, 0b00000001#8] = .ok (.matchRun 2 1#8, []) := by
  decide
/-- R91, R92, and vectors V-H1 to V-H7. -/
theorem test_decode_reset : decodeFrame Params.standard [0x00#8] = .ok .reset := by decide
theorem test_decode_run : decodeFrame Params.standard [0x01#8] = .ok .run := by decide
theorem test_decode_identify : decodeFrame Params.standard [0x02#8] = .ok .identify := by decide
theorem test_decode_queryMetadata : decodeFrame Params.standard [0x04#8] = .ok .queryMetadata := by decide
theorem test_decode_setClockDivisor :
    decodeFrame Params.standard [0x80#8, 0x63#8, 0#8, 0#8, 0#8] = .ok (.setClockDivisor 99) := by decide
theorem test_decode_setSampleCounts :
    decodeFrame Params.standard [0x81#8, 0x46#8, 0#8, 0x14#8, 0#8] = .ok (.setSampleCounts 70 20) := by decide
theorem test_decode_setFlags :
    decodeFrame Params.standard [0x82#8, 0x13#8, 0#8, 0#8, 0#8] = .ok (.setFlags 0b0011#4 true) := by decide
theorem test_decode_setTriggerMask :
    decodeFrame Params.standard [0xC0#8, 0x01#8, 0x80#8, 0x01#8, 0#8] = .ok (.setTriggerMask 1 0x8001#16) := by decide
theorem test_decode_setTriggerValue :
    decodeFrame Params.standard [0xC1#8, 0xFF#8, 0xFF#8, 0x03#8, 0xFF#8] = .ok (.setTriggerValue 3 0xFFFF#16) := by decide
theorem test_decode_setTriggerConfig :
    decodeFrame Params.standard [0xC2#8, 0xFF#8, 0xFF#8, 0xFF#8, 0xFF#8] =
      .ok (.setTriggerConfig 3 { delay := 65535, next := 3, nextv := true, starts := true, mode := .serial }) := by decide

/-- What is refused (R86, R93): each of the decoder's reasons. -/
theorem test_decode_refusals :
    decodeSlots Params.standard [] = .error .noSlot ∧
    decodeSlots Params.standard [0xC0#8] = .error .reservedOp ∧
    decodeSlots Params.standard [0x10#8] = .error .reservedBits ∧
    decodeSlots Params.standard [0x42#8] = .error .reservedBits ∧
    decodeSlots Params.standard [0x88#8, 0x00#8] = .error .reservedBits ∧
    decodeSlots { Params.standard with lmax := 4 } [0x87#8, 0xAA#8] = .error .literalTooLong ∧
    decodeSlots Params.standard [0x87#8] = .error .missingSlot ∧
    decodeSlots Params.standard [0x82#8, 0x08#8] = .error .literalBits ∧
    decodeFrame Params.standard [0x05#8] = .error .unknownOpcode ∧
    decodeFrame Params.standard [0x83#8, 1#8, 2#8, 3#8, 4#8] = .error .unknownOpcode ∧
    decodeFrame Params.standard [0x80#8, 0x63#8] = .error .malformedFrame := by decide

/-- The table's numbering: `MatchRun` with the first slot in bits 15:8, a five-byte frame with the opcode lowest. -/
theorem test_table_words :
    decodeTableWord 8 0x0B = some (.skip 12) ∧ decodeTableWord 8 0x41 = some (.matchSingleBit true) ∧
    decodeTableWord 16 0x87AA = some (.matchRun 8 0xAA#8) ∧ decodeTableWord 8 0x01 = some .run ∧
    decodeTableWord 40 0x0000006380 = some (.setClockDivisor 99) ∧ decodeTableWord 8 0xC0 ≠ some .run := by decide

/-! ### The states of the tests -/

/-- `CAP_BYTES` = 16, so 8 samples with all groups enabled. -/
def tiny : Params := { Params.standard with capBytes := 16 }

/-- The state of an outcome; the outcomes of these tests all have one. -/
def get : Host.Outcome State Fault Refusal → State
  | .next s => s
  | .fault _ => State.reset
  | .refused _ => State.reset

def input (i : Input) (s : State) : State := { s with ports := { s.ports with inbox := [i] } }
def ticks (ps : List Word) (s : State) : State := ps.foldl (fun s p => get (tick p s)) s

/-- Bank 0 holds `slots`, with `LMAX` = 8 and the default budget. -/
def programmed (slots : List Byte) : State := (State.resetWith tiny).loadSlots 0 slots

/-- The session of the vectors V-B: one stage, `MASK` 000B, `VALUE` 0009, `DELAY` 0, `STARTS` 1. -/
def idle (P : Params) (total post : BitVec 32) (delay : BitVec 16) : State :=
  { State.resetWith P with
    cfg := { Session.reset with
      total := total, post := post
      stages := { Four.all StageCfg.reset with
        s0 := { StageCfg.reset with mask := 0x000B#16, value := 0x0009#16, delay := delay, starts := true, cfgv := true } } } }

def armed : State := (idle tiny 6 2 0).runSession
def fired : State := ticks [0x0009#16] armed
def captured : State := ticks [0x0009#16, 0x0010#16] armed
def streaming : State := get (beginRead captured)

/-- An armed session whose third slot has been overwritten with an illegal one (V-E5). -/
def corrupt : State := { armed.loadSlots 0 [0x0B#8, 0x41#8, 0xC0#8, 0x81#8, 0x01#8] with epoch := armed.epoch }

/-- Two stages: stage 0 hands over to stage 1 (V-S1 with `DELAY` 0). -/
def chained : State :=
  let s0 : StageCfg := { StageCfg.reset with mask := 0x000B#16, value := 0x0009#16, nextv := true, next := 1, cfgv := true }
  let s1 : StageCfg := { StageCfg.reset with mask := 0x8001#16, value := 0x8000#16, starts := true, cfgv := true }
  let c := (idle tiny 6 2 0).cfg
  ({ idle tiny 6 2 0 with cfg := { c with stages := { c.stages with s0 := s0, s1 := s1 } } }).runSession

/-- A stage that is still settling; and a settled one with neither `STARTS` nor a successor, which no run reaches. -/
def delayed : State := (idle tiny 6 2 1).runSession
def stuck : State := { armed with cfg := { armed.cfg with stages := Four.all StageCfg.reset } }

/-! ### Evaluations and steps, with the results of 95_test_vectors.md -/

/-- Result, `POS` and `UPC` where the evaluation of `slots` on `w` ended. -/
def evalOn (slots : List Byte) (w : Word) : Option (EvalResult × Nat × Nat) :=
  match evalStage 0 w (programmed slots) with
  | .next t => t.seq.result.map fun r => (r, t.seq.pos, t.seq.upc)
  | .fault _ => none
  | .refused _ => none

/-- V-M2, V-M22. -/
theorem test_skip : evalOn [0x0F#8] 0xFFFF#16 = some (.matched, 16, 1) := by decide
theorem test_skip_stalls : evalOn [0x0F#8, 0x00#8] 0x1234#16 = some (.stall, 16, 1) := by decide
/-- V-M6, V-M5. -/
theorem test_matchSingleBit : evalOn [0x0E#8, 0x41#8] 0x0001#16 = some (.matched, 16, 2) := by decide
theorem test_matchSingleBit_differs : evalOn [0x40#8] 0x8000#16 = some (.noMatch, 0, 0) := by decide
/-- V-M14, V-M9. -/
theorem test_matchRun : evalOn [0x0B#8, 0x41#8, 0x00#8, 0x81#8, 0x01#8] 0xFFF9#16 = some (.matched, 16, 5) := by decide
theorem test_matchRun_differs : evalOn [0x07#8, 0x87#8, 0xAA#8] 0x12AB#16 = some (.noMatch, 8, 1) := by decide
/-- V-M26: an illegal slot that is reached stalls; V-M25: one that is not reached does not. -/
theorem test_illegal_slot :
    evalOn [0x41#8, 0xC0#8] 0x8000#16 = some (.stall, 1, 1) ∧ evalOn [0x41#8, 0xC0#8] 0x0000#16 = some (.noMatch, 0, 0) := by
  decide

/-- V-C1, V-C18. -/
theorem test_compile : assemble (compile 8 0x000B#16 0x0009#16) = [0x0B#8, 0x41#8, 0x00#8, 0x81#8, 0x01#8] := by decide
theorem test_compile_lmax_three :
    assemble (compile 3 0xFFFF#16 0xA5C3#16) =
      [0x82#8, 0x05#8, 0x82#8, 0x01#8, 0x82#8, 0x03#8, 0x82#8, 0x04#8, 0x82#8, 0x01#8, 0x41#8] := by decide

/-- R95: `Trigger 0x000B, 0x0009` and the lines it expands to. -/
theorem test_assemble_trigger :
    assembleLine 8 (.trigger 0x000B#16 0x0009#16) =
      ([.skip 12, .matchSingleBit true, .skip 1, .matchRun [false, true]] : List AsmLine).flatMap (assembleLine 8) := by
  decide

/-- A frame at the command port of `s`, as one step. -/
def sent (bytes : List Byte) (s : State) : State := get (step (input (.frame bytes) s))

/-- V-H13; V-H12. -/
theorem test_reset_clears : (sent [0x00#8] (idle tiny 6 2 0)).cfg = Session.reset := by decide
theorem test_reset_after_trigger : (sent [0x00#8] fired).ctl = Controller.reset ∧ (sent [0x00#8] fired).ring = Ring.reset := by
  decide
/-- V-B1 as armed; V-K2. -/
theorem test_run_arms :
    (sent [0x01#8] (idle tiny 6 2 0)).ctl = { state := .armed, clken := true, err := .none, trunc := false } ∧
      (sent [0x01#8] (idle tiny 6 2 0)).plen = ⟨5, 0, 0, 0⟩ := by decide
theorem test_run_refuses :
    (sent [0x01#8] State.reset).ctl = { state := .idle, clken := false, err := .invalidConfiguration, trunc := false } ∧
      (sent [0x01#8] State.reset).ports.events = [.err] := by decide
/-- V-H14. -/
theorem test_identify : (sent [0x02#8] fired) = { fired with ports := { inbox := [], events := [], reply := none } } := by decide
theorem test_queryMetadata : (sent [0x04#8] fired) = { fired with ports := { inbox := [], events := [], reply := none } } := by
  decide
/-- V-H1, V-H2, V-H3. -/
theorem test_setClockDivisor : (sent [0x80#8, 0x63#8, 0#8, 0#8, 0#8] State.reset).cfg.divisor = 99 := by decide
theorem test_setSampleCounts :
    (sent [0x81#8, 0x46#8, 0#8, 0x14#8, 0#8] State.reset).cfg = { Session.reset with total := 70, post := 20 } := by decide
theorem test_setFlags :
    (sent [0x82#8, 0x13#8, 0#8, 0#8, 0#8] State.reset).cfg = { Session.reset with groups := 0b0011#4, rle := true } := by decide
/-- V-H10. -/
theorem test_setSampleCounts_discarded : (sent [0x81#8, 0x46#8, 0#8, 0x14#8, 0#8] fired).cfg = fired.cfg := by decide
/-- V-H4, V-H5, V-H6. -/
theorem test_setTriggerMask :
    (sent [0xC0#8, 0x01#8, 0x80#8, 0x01#8, 0#8] State.reset).cfg.stages.s1 = { StageCfg.reset with mask := 0x8001#16 } := by
  decide
theorem test_setTriggerValue :
    (sent [0xC1#8, 0xFF#8, 0xFF#8, 0x03#8, 0xFF#8] State.reset).cfg.stages.s3 = { StageCfg.reset with value := 0xFFFF#16 } := by
  decide
theorem test_setTriggerConfig :
    (sent [0xC2#8, 0x02#8, 0#8, 0x14#8, 0#8] State.reset).cfg.stages.s0 =
      { StageCfg.reset with delay := 2, next := 1, nextv := true, cfgv := true } := by decide

/-- V-B3 up to its trigger at the third sample: `TRIG` 2, then `Captured` with `WR` = `FILL` = 4. -/
theorem test_capture :
    (ticks [0x0000#16, 0x0010#16, 0x0029#16, 0x0030#16] armed).ring.trig = 2 ∧
    (ticks [0x0000#16, 0x0010#16, 0x0029#16, 0x0030#16] armed).ring.fill = 4 ∧
    (ticks [0x0000#16, 0x0010#16, 0x0029#16, 0x0030#16] armed).ctl.state = .captured := by decide
/-- V-B3: (4, 1), `RD` 0, `ERR` 3. -/
theorem test_beginRead :
    (get (beginRead (ticks [0x0000#16, 0x0010#16, 0x0029#16, 0x0030#16] armed))).ports.reply = some (.window 4 true) ∧
    (get (beginRead (ticks [0x0000#16, 0x0010#16, 0x0029#16, 0x0030#16] armed))).ctl.err = .insufficientHistory := by decide
/-- The first sample of V-B3's window is 0, of `captured`'s the trigger sample. -/
theorem test_readNext : (get (readNext streaming)).ports.reply = some (.sample 16 0x0009#16) := by decide
/-- V-E5: slot 2 is illegal and is reached. -/
theorem test_stall : (get (tick 0x0008#16 corrupt)).ctl = { state := .fault, clken := false, err := .hardwareFault, trunc := false } := by
  decide
/-- R281, R60. -/
theorem test_reset_memory : State.reset.MemoryOk := ⟨by decide, by decide⟩

/-- The words of the table run as the first instruction after reset. `Skip 12` ends the evaluation at `POS` = 12. -/
theorem test_withFetchWord :
    (get (step (State.reset.withFetchWord 8 0x0B))).seq.pos = 12 ∧
    (get (step (State.reset.withFetchWord 16 0x81FF))).ctl.state = .fault ∧
    (get (step (State.reset.withFetchWord 40 0x0000006380))).cfg.divisor = 99 := by decide

/-! ### Witnesses: for every obligation with hypotheses, values that meet them together -/

/-- MicroOpDecodesFromItsSlots, at the ends of the operands' ranges. -/
theorem test_witness_microOps : ∀ i ∈ [Instr.skip 1, .skip 16, .matchSingleBit false, .matchRun 1 1#8, .matchRun 8 0xFF#8],
    i.isMicro = true ∧ i.wf Params.standard = true := by decide

/-- CommandDecodesFromItsFrame, at the ends of the operands' ranges. -/
theorem test_witness_commands : Params.standard.legal = true ∧
    ∀ i ∈ [Instr.reset, .run, .identify, .queryMetadata, .setClockDivisor 0xFFFFFFFF, .setSampleCounts 65535 65535,
      .setFlags 15 true, .setTriggerMask 3 0xFFFF#16, .setTriggerValue 3 0xFFFF#16,
      .setTriggerConfig 3 { delay := 65535, next := 3, nextv := true, starts := true, mode := .serial }],
    i.isMicro = false ∧ i.wf Params.standard = true := by decide

/-- DecodedSlotsAreTheEncoding. -/
theorem test_witness_decoded :
    decodeSlots Params.standard [0x87#8, 0xAA#8, 0x05#8] = .ok (.matchRun 8 0xAA#8, [0x05#8]) := by decide

/-- IllegalSlotsAreRefused: the ends of R86's ranges, refused and not refused. -/
theorem test_witness_illegal :
    (∀ b ∈ [0xC0#8, 0xFF#8, 0x10#8, 0x3F#8, 0x42#8, 0x7F#8, 0x88#8, 0xBF#8], (decodeSlots Params.standard [b, 0#8]).toOption = none) ∧
    (∀ b ∈ [0x00#8, 0x0F#8, 0x40#8, 0x41#8, 0x80#8, 0x87#8],
      (decodeSlots Params.standard [b, 0x01#8]).toOption.isSome = true) := by decide

/-- UnknownOpcodeIsDiscarded: frames of the wrong shape with a known opcode, in `Idle`; no byte at all. -/
theorem test_witness_malformed :
    State.reset.ctl.state = .idle ∧
    (input (.frame [0x01#8, 0x00#8]) State.reset).ports.inbox = .frame [0x01#8, 0x00#8] :: [] ∧
    decodeFrame (input (.frame [0x01#8, 0x00#8]) State.reset).params [0x01#8, 0x00#8] = .error .malformedFrame ∧
    [0x00#8].length ≠ (if (0x01#8).getLsbD 7 then 4 else 0) ∧
    [1#8, 2#8, 3#8].length ≠ (if (0x80#8).getLsbD 7 then 4 else 0) ∧
    [1#8, 2#8, 3#8, 4#8, 5#8].length ≠ (if (0x80#8).getLsbD 7 then 4 else 0) := by decide

/-- UnknownOpcodeIsDiscarded: an opcode not in the table, both shapes. -/
theorem test_witness_unknown :
    0x05#8 ∉ Params.standard.opcodes.c1 ∧ 0x05#8 ∉ Params.standard.opcodes.c5 ∧
    0x83#8 ∉ Params.standard.opcodes.c1 ∧ 0x83#8 ∉ Params.standard.opcodes.c5 ∧
    (input (.frame [0x05#8]) State.reset).ports.inbox = [.frame [0x05#8]] ∧
    (input (.frame [0x83#8, 1#8, 2#8, 3#8, 4#8]) State.reset).ports.inbox = [.frame [0x83#8, 1#8, 2#8, 3#8, 4#8]] ∧
    State.reset.params.opcodes = OpcodeTable.standard := by decide

/-- StepRunsTheDecodedCommand. -/
theorem test_witness_frame : (input (.frame [0x01#8]) State.reset).ports.inbox = .frame [0x01#8] :: [] ∧
    decodeFrame (input (.frame [0x01#8]) State.reset).params [0x01#8] = .ok .run := by decide

/-- StepTakesTheNextInput: each clause. -/
theorem test_witness_inputs : (input (.tick 0xFFFF#16) armed).ports.inbox = .tick 0xFFFF#16 :: [] ∧
    (input .beginRead captured).ports.inbox = .beginRead :: [] ∧ (input .readNext streaming).ports.inbox = .readNext :: [] ∧
    State.reset.ports.inbox = [] := by decide

/-- EvaluationRunsTheFetchedInstruction: the last two slots of a program of the whole budget. -/
theorem test_witness_fetch :
    let s : State := { programmed (List.replicate 30 0#8 ++ [0x87#8, 0xAA#8]) with
      seq := { Sequencer.initial with upc := 30 } }
    (Instr.matchRun 8 0xAA#8).isMicro = true ∧ (Instr.matchRun 8 0xAA#8).wf s.params = true ∧
    ∀ j b, (encode s.params (.matchRun 8 0xAA#8))[j]? = some b →
      s.seq.upc + j < s.plen.get 0 ∧ s.seq.upc + j < s.params.budget ∧
        Memory.read? (s.imem.get 0) (s.seq.upc + j) = some b := by
  refine ⟨by decide, by decide, fun j b h => ?_⟩
  match j, h with
  | 0, h => cases h; decide
  | 1, h => cases h; decide
  | j + 2, h => cases h

/-- The hypotheses the first clauses of the three micro-operation statements share, for the slot `b0` at `UPC`. -/
def slotAt (s : State) (b0 : Byte) (op : BitVec 2) : Prop :=
  s.seq.upc < s.plen.get 0 ∧ s.plen.get 0 ≤ s.params.budget ∧ s.imemSlot 0 s.seq.upc = b0 ∧ b0.extractLsb' 6 2 = op

/-- SkipAdvancesOrStalls: a legal slot and a reserved one; the last count that fits and the first that does not. -/
theorem test_witness_skip : slotAt (programmed [0x0F#8]) 0x0F#8 0b00#2 ∧ slotAt (programmed [0x1F#8]) 0x1F#8 0b00#2 ∧
    State.reset.seq.pos + 16 ≤ 16 ∧ 16 < State.reset.seq.pos + 17 :=
  ⟨⟨by decide, by decide, by decide, by decide⟩, ⟨by decide, by decide, by decide, by decide⟩, by decide, by decide⟩

/-- MatchSingleBitCompares: equal and different at the last bit, and past it. -/
theorem test_witness_matchSingleBit :
    let at_ (pos : Nat) : State := { State.reset with seq := { Sequencer.initial with sr := 0x0001#16, pos := pos } }
    slotAt (programmed [0x41#8]) 0x41#8 0b01#2 ∧ slotAt (programmed [0x42#8]) 0x42#8 0b01#2 ∧
    (at_ 15).seq.pos + 1 ≤ 16 ∧ (at_ 15).seq.sr.getLsbD (15 - (at_ 15).seq.pos) = true ∧
    (at_ 15).seq.sr.getLsbD (15 - (at_ 15).seq.pos) ≠ false ∧ 16 < (at_ 16).seq.pos + 1 :=
  ⟨⟨by decide, by decide, by decide, by decide⟩, ⟨by decide, by decide, by decide, by decide⟩, by decide, by decide,
    by decide, by decide⟩

/-- MatchRunComparesBitByBit: a legal pair of slots and one whose second slot the program lacks (that slot then holds
whatever it holds); the last eight bits, equal and different, and past the word. -/
theorem test_witness_matchRun :
    let at_ (pos : Nat) : State := { State.reset with seq := { Sequencer.initial with sr := 0x12AA#16, pos := pos } }
    slotAt (programmed [0x87#8, 0xAA#8]) 0x87#8 0b10#2 ∧ (programmed [0x87#8, 0xAA#8]).imemSlot 0 1 = 0xAA#8 ∧
    slotAt (programmed [0x87#8]) 0x87#8 0b10#2 ∧ (at_ 8).seq.pos + 8 ≤ 16 ∧
    (∀ j, j < 8 → (at_ 8).seq.sr.getLsbD (15 - (at_ 8).seq.pos - j) = (0xAA#8).getLsbD (8 - 1 - j)) ∧
    (∃ j, j < 8 ∧ (at_ 8).seq.sr.getLsbD (15 - (at_ 8).seq.pos - j) ≠ (0xAB#8).getLsbD (8 - 1 - j)) ∧
    16 < (at_ 9).seq.pos + 8 := by
  exact ⟨⟨by decide, by decide, by decide, by decide⟩, by decide, ⟨by decide, by decide, by decide, by decide⟩, by decide,
    by decide, ⟨7, by decide⟩, by decide⟩

/-- EvaluationEndsAndWritesOnlyWorkingRegisters: a program of the whole budget, and the empty one. -/
theorem test_witness_program : (programmed (List.replicate 32 0#8)).plen.get 0 ≤ tiny.budget ∧
    (programmed []).plen.get 0 = 0 := by decide

/-- EvaluationDependsOnItsProgramAlone: two states that differ in the working registers and elsewhere. -/
theorem test_witness_pure :
    let s := programmed [0x0F#8]
    let t := { programmed [0x0F#8] with seq := { Sequencer.initial with pos := 9 }, ring := fired.ring }
    s.params = t.params ∧ s.imem.get 0 = t.imem.get 0 ∧ s.plen.get 0 = t.plen.get 0 ∧ s.epoch = t.epoch := by decide

/-- CompilerScansMaximalRuns and CompiledProgramsKeepTheirBounds: both ends of `LMAX`. -/
theorem test_witness_lmax : 2 ≤ { Params.standard with lmax := 2 }.lmax ∧ { Params.standard with lmax := 2 }.lmax ≤ 8 ∧
    2 ≤ Params.standard.lmax ∧ Params.standard.lmax ≤ 8 ∧ 0x0001#16 ≠ 0#16 := by decide

/-- DontCareBitsDoNotInfluenceTheProgram: V-C16. -/
theorem test_witness_dontCare : 0x0009#16 &&& 0x000B#16 = 0xFFF9#16 &&& 0x000B#16 := by decide

/-- LoadWritesTheProgram: each clause, at the first slot after the program. -/
theorem test_witness_load : (∀ op ∈ [Instr.skip 12, .matchRun 2 1#8], op.isMicro = true) ∧
    (assemble [Instr.skip 12, .matchRun 2 1#8])[2]? = some 0x01#8 ∧ cost [Instr.skip 12, .matchRun 2 1#8] ≤ 3 ∧
    (1 : StageIx) ≠ 0 := by decide

/-- The slots of a loaded program, for the hypotheses that speak of all of them. -/
theorem test_slots_loaded {bs : List Byte} {m : Memory 8} (h : ∀ a, a < bs.length → Memory.read? m a = bs[a]?) :
    ∀ a b, bs[a]? = some b → Memory.read? m a = some b := by
  intro a b hb
  have ha : a < bs.length := by
    by_contra hc; rw [List.getElem?_eq_none (by omega)] at hb; cases hb
  rw [h a ha, hb]

/-- CompiledProgramIsMaskedEquality. -/
theorem test_witness_compiled : armed.params.legal = true ∧
    armed.plen.get 0 = (assemble (compile armed.params.lmax 0x000B#16 0x0009#16)).length ∧
    armed.plen.get 0 ≤ armed.params.budget ∧
    ∀ a b, (assemble (compile armed.params.lmax 0x000B#16 0x0009#16))[a]? = some b →
      Memory.read? (armed.imem.get 0) a = some b :=
  ⟨by decide, by decide, by decide, test_slots_loaded (by decide)⟩

/-- ArmedStagesImplementMaskedEquality. -/
theorem test_witness_armed : (idle tiny 6 2 0).params.legal = true ∧ (idle tiny 6 2 0).ctl.state = .idle ∧
    exec .run (idle tiny 6 2 0) = .next armed ∧ armed.ctl.state = .armed ∧ (0 : StageIx).val < (idle tiny 6 2 0).stageCount :=
  ⟨by decide, by decide, rfl, by decide, by decide⟩

/-- ValidationAcceptsExactly: a state on either side. -/
theorem test_witness_validate : (idle tiny 6 2 0).validate = true ∧ (idle tiny 8 8 0).validate = true ∧
    (idle tiny 9 9 0).validate = false ∧ (idle tiny 1 2 0).validate = false := by decide

/-- RunRefusesAnInvalidConfiguration. -/
theorem test_witness_invalid : State.reset.ctl.state = .idle ∧ State.reset.validate = false := by decide

/-- RunRefusesAnOverBudgetProgram: one slot too many. -/
theorem test_witness_overBudget :
    let s := idle { tiny with budget := 4 } 6 2 0
    s.ctl.state = .idle ∧ s.validate = true ∧ (0 : StageIx).val < s.stageCount ∧
    s.params.budget < cost (compile s.params.lmax (s.cfg.stages.get 0).mask (s.cfg.stages.get 0).value) := by decide

/-- RunArmsAValidConfiguration, with a program of exactly the budget; its last two clauses at stages 0 and 1. -/
theorem test_witness_run :
    let s := idle { tiny with budget := 5 } 6 2 0
    s.ctl.state = .idle ∧ s.validate = true ∧ (0 : StageIx).val < s.stageCount ∧ s.stageCount ≤ (1 : StageIx).val ∧
    ∀ i : StageIx, i.val < s.stageCount →
      cost (compile s.params.lmax (s.cfg.stages.get i).mask (s.cfg.stages.get i).value) ≤ s.params.budget := by decide

/-- SixteenSlotsNeverOverflow, at 16 slots. -/
theorem test_witness_sixteen :
    let s := idle { tiny with budget := 16 } 6 2 0
    s.params.legal = true ∧ 16 ≤ s.params.budget ∧ s.ctl.state = .idle ∧ s.validate = true := by decide

/-- CommandsAreDiscardedOutsideIdle, ConfigurationIsFrozenOutsideIdle, and the clauses of the command statements that
speak of the states outside `Idle`. -/
theorem test_witness_outside : armed.ctl.state ≠ .idle ∧ Instr.run.isMicro = false ∧ Instr.run ≠ .reset ∧
    (input (.frame [0x01#8]) armed).ports.inbox = .frame [0x01#8] :: [] ∧
    decodeFrame (input (.frame [0x01#8]) armed).params [0x01#8] ≠ .ok .reset ∧
    step (input (.frame [0x01#8]) armed) = .next (sent [0x01#8] armed) :=
  ⟨by decide, by decide, by decide, by decide, by decide, rfl⟩

/-- The six configuration statements: `Idle`, legal parameters, another stage. -/
theorem test_witness_configure : State.reset.ctl.state = .idle ∧ Params.standard.legal = true ∧ (3 : StageIx) ≠ 0 ∧
    { State.reset with cfg := { Session.reset with groups := 0 } }.cfg.groups = 0#4 := by decide

/-- SetTriggerConfigWritesOneStage: `CFGV` set, and a command that keeps it. -/
theorem test_witness_cfgv : Instr.run ≠ .reset ∧ exec .run (idle tiny 6 2 0) = .next armed ∧
    ((idle tiny 6 2 0).cfg.stages.get 0).cfgv = true := ⟨by decide, rfl, by decide⟩

/-- ResetDiscardsTheSession: both cases. FaultAbsorbsEverythingButPowerOn. PowerOnResetsEveryState. -/
theorem test_witness_fault :
    let f := get (tick 0x0008#16 corrupt)
    captured.ctl.state ≠ .fault ∧ f.ctl.state = .fault ∧ (input .readNext f).ports.inbox = .readNext :: [] ∧
    Input.readNext ≠ .powerOn ∧ (input .powerOn f).ports.inbox = .powerOn :: [] := by decide

/-- TickWithoutClockIsDiscarded: no clock; a consistent state in each of the four states. -/
theorem test_witness_noClock : State.reset.ctl.clken = false ∧
    (State.reset.Consistent ∧ State.reset.ctl.state = .idle) ∧ (captured.Consistent ∧ captured.ctl.state = .captured) ∧
    (streaming.Consistent ∧ streaming.ctl.state = .streaming) ∧
    ((get (tick 0x0008#16 corrupt)).Consistent ∧ (get (tick 0x0008#16 corrupt)).ctl.state = .fault) :=
  ⟨by decide, ⟨⟨by decide, ⟨by decide, by decide⟩, by decide, by decide, by decide, by decide⟩, by decide⟩,
    ⟨⟨by decide, ⟨by decide, by decide⟩, by decide, by decide, by decide, by decide⟩, by decide⟩,
    ⟨⟨by decide, ⟨by decide, by decide⟩, by decide, by decide, by decide, by decide⟩, by decide⟩,
    ⟨⟨by decide, ⟨by decide, by decide⟩, by decide, by decide, by decide, by decide⟩, by decide⟩⟩

/-- The evaluation of the active stage at a tick, as the tick statements name it. -/
def evaluated (p : Word) (s : State) : State := get (evalStage s.chain.stage p (s.setCtl .capturing))

/-- TickWithoutMatchOnlyWrites, in `Armed` and in `Capturing`. -/
theorem test_witness_noMatch :
    ∀ s ∈ [armed, ticks [0x0000#16] armed],
    s.ctl.clken = true ∧ (s.ctl.state = .armed ∨ s.ctl.state = .capturing) ∧
    (∃ u, evalStage s.chain.stage 0x0000#16 (s.setCtl .capturing) = .next u ∧ u.seq.result = some .noMatch) ∧
    s.ring.wr < s.cap := by
  intro s hs
  simp only [List.mem_cons, List.not_mem_nil, or_false] at hs
  rcases hs with rfl | rfl
  · exact ⟨by decide, by decide, ⟨evaluated 0x0000#16 armed, rfl, by decide⟩, by decide⟩
  · exact ⟨by decide, by decide, ⟨evaluated 0x0000#16 (ticks [0x0000#16] armed), rfl, by decide⟩, by decide⟩

/-- TickWithMatchSettlesOrAdvances: `SETTLE` below `DELAY`; a settled stage with a successor; one without (a state no run
reaches: its stage has lost `STARTS`). -/
theorem test_witness_settles :
    ∀ s ∈ [delayed, chained, stuck],
    s.ctl.clken = true ∧ (s.ctl.state = .armed ∨ s.ctl.state = .capturing) ∧
    (∃ u, evalStage s.chain.stage 0x0009#16 (s.setCtl .capturing) = .next u ∧ u.seq.result = some .matched) ∧
    s.ring.wr < s.cap ∧
    (s.chain.settle < (s.cfg.stages.get s.chain.stage).delay ∨
      (s.chain.settle = (s.cfg.stages.get s.chain.stage).delay ∧ (s.cfg.stages.get s.chain.stage).starts = false)) := by
  intro s hs
  simp only [List.mem_cons, List.not_mem_nil, or_false] at hs
  rcases hs with rfl | rfl | rfl
  · exact ⟨by decide, by decide, ⟨evaluated 0x0009#16 delayed, rfl, by decide⟩, by decide, by decide⟩
  · exact ⟨by decide, by decide, ⟨evaluated 0x0009#16 chained, rfl, by decide⟩, by decide, by decide⟩
  · exact ⟨by decide, by decide, ⟨evaluated 0x0009#16 stuck, rfl, by decide⟩, by decide, by decide⟩

/-- TickFiresTheTrigger, with `effPost` = 2 and with `effPost` = 1. -/
theorem test_witness_fires :
    ∀ s ∈ [armed, (idle tiny 6 1 0).runSession],
    s.ctl.clken = true ∧ (s.ctl.state = .armed ∨ s.ctl.state = .capturing) ∧
    (∃ u, evalStage s.chain.stage 0x0009#16 (s.setCtl .capturing) = .next u ∧ u.seq.result = some .matched) ∧
    s.ring.wr < s.cap ∧ s.chain.settle = (s.cfg.stages.get s.chain.stage).delay ∧
    (s.cfg.stages.get s.chain.stage).starts = true ∧ 1 ≤ s.effPost := by
  intro s hs
  simp only [List.mem_cons, List.not_mem_nil, or_false] at hs
  rcases hs with rfl | rfl
  · exact ⟨by decide, by decide, ⟨evaluated 0x0009#16 armed, rfl, by decide⟩, by decide, by decide, by decide, by decide⟩
  · exact ⟨by decide, by decide, ⟨evaluated 0x0009#16 (idle tiny 6 1 0).runSession, rfl, by decide⟩, by decide, by decide,
      by decide, by decide⟩

/-- The two values of `effPost` the witness above names. -/
theorem test_effPost : armed.effPost = 2 ∧ ((idle tiny 6 1 0).runSession).effPost = 1 := by decide

/-- StallRaisesHardwareFault: V-E5. -/
theorem test_witness_stall : corrupt.ctl.clken = true ∧ (corrupt.ctl.state = .armed ∨ corrupt.ctl.state = .capturing) ∧
    ∃ u, evalStage corrupt.chain.stage 0x0008#16 (corrupt.setCtl .capturing) = .next u ∧ u.seq.result = some .stall :=
  ⟨by decide, by decide, evaluated 0x0008#16 corrupt, rfl, by decide⟩

/-- PostTriggerTickCountsDown: one sample to come, and two. -/
theorem test_witness_postTrigger :
    ∀ s ∈ [fired, ticks [0x0009#16] (idle tiny 3 3 0).runSession],
    s.ctl.clken = true ∧ s.ctl.state = .postTrigger ∧ s.ring.wr < s.cap ∧ 1 ≤ s.ring.countdown.toNat := by decide

/-- The countdowns the witness above names. -/
theorem test_countdowns :
    fired.ring.countdown = 1 ∧ (ticks [0x0009#16] (idle tiny 3 3 0).runSession).ring.countdown = 2 := by decide

/-- PackPutsEnabledGroupsInOrder and SampleStoreLayout, at the last group and the last slot. -/
theorem test_witness_layout : 3 < 4 ∧ (0b1101#4).getLsbD 3 = true ∧ 7 < armed.cap ∧ 3 < armed.groupCount ∧
    1 ≤ armed.groupCount := by decide

/-- What the session of `captured` has recorded, and with `fired` and `armed` before it. -/
theorem test_recorded : armed.Recorded [] 0 ∧ fired.Recorded [0x0009#16] 0 ∧ captured.Recorded [0x0009#16, 0x0010#16] 0 := by
  refine ⟨⟨⟨by decide, by decide, fun n v _ h => by cases h⟩, rfl⟩,
    ⟨⟨by decide, by decide, fun n v _ h => ?_⟩, ?_⟩, ⟨⟨by decide, by decide, fun n v _ h => ?_⟩, ?_⟩⟩
  · match n, h with
    | 0, h => cases h; decide
    | n + 1, h => cases h
  · show _ ∧ _ ∧ _ ∧ _
    exact ⟨by decide, by decide, by decide, by decide⟩
  · match n, h with
    | 0, h => cases h; decide
    | 1, h => cases h; decide
    | n + 2, h => cases h
  · show _ ∧ _
    exact ⟨by decide, by decide⟩

/-- TickExtendsTheRecord: before the trigger, at it, and after it. -/
theorem test_witness_record :
    (armed.sampling = true ∧ armed.Recorded [] 0 ∧ 1 ≤ armed.cfg.post.toNat ∧ tick 0x0009#16 armed = .next fired ∧
      fired.ctl.state ≠ .fault) ∧
    (fired.sampling = true ∧ fired.Recorded [0x0009#16] 0 ∧ 1 ≤ fired.cfg.post.toNat ∧
      tick 0x0010#16 fired = .next captured ∧ captured.ctl.state ≠ .fault) :=
  ⟨⟨by decide, test_recorded.1, by decide, rfl, by decide⟩, ⟨by decide, test_recorded.2.1, by decide, rfl, by decide⟩⟩

/-- The pins of the vectors V-B: `n << 4`, with 9 in the lowest nibble at the trigger tick `k`. -/
def vectorPins (k last : Nat) : List Word :=
  (List.range (last + 1)).map fun n => BitVec.ofNat 16 (16 * n + if n = k then 9 else 0)

/-- V-B4 and V-B5 at `Captured`: `TOTAL` - `POST` is 6 of 8 slots, and 10, more than there are. -/
def vectorB4 : State := ticks (vectorPins 20 21) (idle tiny 12 6 0).runSession
def vectorB5 : State := ticks (vectorPins 20 20) (idle tiny 12 2 0).runSession

/-- V-B4, V-B5: `effPost`, then `WR`, `FILL`, `TRIG`. -/
theorem test_effPost_vectors :
    (vectorB4.effPost = 2 ∧ vectorB4.ring.wr = 6 ∧ vectorB4.ring.fill = 8 ∧ vectorB4.ring.trig = 4) ∧
    (vectorB5.effPost = 1 ∧ vectorB5.ring.wr = 5 ∧ vectorB5.ring.fill = 8 ∧ vectorB5.ring.trig = 4) := by
  decide +kernel

/-- V-B4, V-B5: what `BeginRead` returns, and `RD`. -/
theorem test_beginRead_vectors :
    ((get (beginRead vectorB4)).ports.reply = some (.window 8 true) ∧ (get (beginRead vectorB4)).ring.rd = 6) ∧
    ((get (beginRead vectorB5)).ports.reply = some (.window 8 true) ∧ (get (beginRead vectorB5)).ring.rd = 5) := by
  decide +kernel

/-- V-B4 right before its trigger tick. -/
def untriggeredB4 : State := ticks (vectorPins 20 19) (idle tiny 12 6 0).runSession

/-- The result an outcome carries. -/
def resultOf : Host.Outcome State Fault Refusal → Option EvalResult
  | .next s => s.seq.result
  | .fault _ => none
  | .refused _ => none

/-- An outcome that carries a result is a next state. -/
theorem test_resultOf {o : Host.Outcome State Fault Refusal} {r : EvalResult} (h : resultOf o = some r) :
    ∃ u, o = .next u ∧ u.seq.result = some r := by
  cases o with
  | next s => exact ⟨s, rfl, h⟩
  | fault e => cases h
  | refused e => cases h

/-- TickFiresTheTrigger, its clause on the countdown: V-B4, where `TOTAL` - `POST` is within the buffer. -/
theorem test_witness_fires_vector :
    untriggeredB4.ctl.clken = true ∧ (untriggeredB4.ctl.state = .armed ∨ untriggeredB4.ctl.state = .capturing) ∧
    (∃ u, evalStage untriggeredB4.chain.stage 0x0149#16 (untriggeredB4.setCtl .capturing) = .next u ∧
      u.seq.result = some .matched) ∧
    untriggeredB4.ring.wr < untriggeredB4.cap ∧
    untriggeredB4.chain.settle = (untriggeredB4.cfg.stages.get untriggeredB4.chain.stage).delay ∧
    (untriggeredB4.cfg.stages.get untriggeredB4.chain.stage).starts = true ∧ 1 ≤ untriggeredB4.effPost ∧
    untriggeredB4.cfg.post.toNat ≤ untriggeredB4.cfg.total.toNat ∧
    untriggeredB4.cfg.total.toNat - untriggeredB4.cfg.post.toNat ≤ untriggeredB4.cap := by
  refine ⟨?_, ?_, test_resultOf ?_, ?_, ?_, ?_, ?_, ?_, ?_⟩ <;> decide +kernel

/-- BeginReadOpensTheWindow: discarded; short of `TOTAL`; not short; V-B4; V-B5. -/
theorem test_witness_beginRead :
    let whole := ticks [0x0009#16, 0x0010#16] (idle tiny 2 2 0).runSession
    (input .beginRead fired).ports.inbox = .beginRead :: [] ∧ (input .beginRead fired).ctl.state ≠ .captured ∧
    ∀ c ∈ ([(input .beginRead captured, 2, 0), (input .beginRead whole, 2, 0), (input .beginRead vectorB4, 2, 6),
        (input .beginRead vectorB5, 1, 7)] : List (State × Nat × Nat)),
      c.1.ports.inbox = .beginRead :: [] ∧ c.1.ctl.state = .captured ∧ 1 ≤ c.1.cap ∧
      c.1.cfg.post.toNat ≤ c.1.cfg.total.toNat ∧
      c.2.1 = min c.1.cfg.post.toNat (max 1 (c.1.cap - (c.1.cfg.total.toNat - c.1.cfg.post.toNat))) ∧
      c.2.1 ≤ c.1.ring.fill ∧ c.2.2 = min (c.1.cfg.total.toNat - c.1.cfg.post.toNat) (c.1.ring.fill - c.2.1) := by
  decide +kernel

/-- ReadNextDeliversOneSample: discarded; two samples left; one left. -/
theorem test_witness_readNext :
    let none_ := input .readNext captured
    let two := input .readNext streaming
    let last := input .readNext (get (readNext streaming))
    none_.ports.inbox = .readNext :: [] ∧ none_.ctl.state ≠ .streaming ∧
    two.ports.inbox = .readNext :: [] ∧ two.ctl.state = .streaming ∧ two.ring.rd < two.cap ∧ 1 < two.ring.remain ∧
    last.ports.inbox = .readNext :: [] ∧ last.ctl.state = .streaming ∧ last.ring.rd < last.cap ∧ last.ring.remain = 1 := by
  decide

/-- A record of a `Captured` state, by the samples still in the buffer. -/
theorem test_recorded_of {s : State} {h : List Word} {K : Nat} (hs : s.ctl.state = .captured)
    (hr : s.ring.wr = h.length % s.cap ∧ s.ring.fill = min h.length s.cap ∧ s.ring.trig = K % s.cap ∧
      h.length = K + s.effPost)
    (all : ∀ n, n < h.length → h.length ≤ n + s.cap → h[n]? = some (s.sampleAt (n % s.cap))) : s.Recorded h K := by
  refine ⟨⟨hr.1, hr.2.1, fun n v hn hv => ?_⟩, ?_⟩
  · rw [all n (List.getElem?_eq_some_iff.1 hv).1 hn] at hv; exact Option.some.inj hv
  · rw [hs]; exact ⟨hr.2.2.1, hr.2.2.2⟩

/-- The records of V-B4 and V-B5: all samples, the trigger sample at 20. -/
theorem test_recorded_vectors :
    vectorB4.Recorded (vectorPins 20 21) 20 ∧ vectorB5.Recorded (vectorPins 20 20) 20 :=
  ⟨test_recorded_of (by decide +kernel) (by decide +kernel) (by decide +kernel),
    test_recorded_of (by decide +kernel) (by decide +kernel) (by decide +kernel)⟩

/-- A record does not look at the ports. -/
theorem test_recorded_ports {s : State} {h : List Word} {K : Nat} (hr : s.Recorded h K) (p : Ports) :
    { s with ports := p }.Recorded h K :=
  ⟨⟨hr.1.1, hr.1.2.1, fun n v a b => (State.sampleAt_congr (s := s) (t := { s with ports := p }) rfl rfl rfl _).trans (hr.1.2.2 n v a b)⟩, hr.2⟩

/-- `s` with a whole readback of `n` samples to come. -/
def reading (n : Nat) (s : State) : State :=
  { s with ports := { s.ports with inbox := .beginRead :: (List.replicate n .readNext ++ []) } }

/-- ReadbackDeliversTheWindow: V-B5, where `TOTAL` - `POST` exceeds the buffer. -/
theorem test_witness_readback_vector :
    (reading (7 + 1) vectorB5).Recorded (vectorPins 20 20) 20 ∧ (reading (7 + 1) vectorB5).ctl.state = .captured ∧
    1 ≤ (reading (7 + 1) vectorB5).cap ∧ 1 ≤ vectorB5.cfg.post.toNat ∧
    vectorB5.cfg.post.toNat ≤ vectorB5.cfg.total.toNat ∧
    1 = min vectorB5.cfg.post.toNat (max 1 (vectorB5.cap - (vectorB5.cfg.total.toNat - vectorB5.cfg.post.toNat))) ∧
    7 = min (vectorB5.cfg.total.toNat - vectorB5.cfg.post.toNat) (min (vectorPins 20 20).length vectorB5.cap - 1) ∧
    (reading (7 + 1) vectorB5).ports.inbox = .beginRead :: (List.replicate (7 + 1) .readNext ++ []) := by
  refine ⟨test_recorded_ports test_recorded_vectors.2 _, ?_, ?_, ?_, ?_, ?_, ?_, ?_⟩ <;> decide +kernel

/-- ReadbackDeliversTheWindow. -/
theorem test_witness_readback :
    let s : State := { captured with ports := { captured.ports with inbox := [.beginRead, .readNext, .readNext] } }
    s.ctl.state = .captured ∧ s.Recorded [0x0009#16, 0x0010#16] 0 ∧ 1 ≤ s.cap ∧ 1 ≤ s.cfg.post.toNat ∧
    s.cfg.post.toNat ≤ s.cfg.total.toNat ∧
    2 = min s.cfg.post.toNat (max 1 (s.cap - (s.cfg.total.toNat - s.cfg.post.toNat))) ∧
    0 = min (s.cfg.total.toNat - s.cfg.post.toNat) (min [0x0009#16, 0x0010#16].length s.cap - 2) ∧
    s.ports.inbox = .beginRead :: (List.replicate (0 + 2) .readNext ++ []) := by
  refine ⟨by decide, ⟨⟨by decide, by decide, fun n v _ h => ?_⟩, ?_⟩, by decide, by decide, by decide, by decide, by decide, by decide⟩
  · match n, h with
    | 0, h => cases h; decide
    | 1, h => cases h; decide
    | n + 2, h => cases h
  · show _ ∧ _
    exact ⟨by decide, by decide⟩

/-- A streaming state that has the invariant, with everything `SessionOk` asks of it. -/
theorem test_streaming_inv : streaming.Inv where
  consistent := ⟨by decide, ⟨by decide, by decide⟩, by decide, by decide, by decide, by decide⟩
  plenFits := by decide
  session _ :=
    { valid := by decide
      loaded := fun i hi => by
        have hi0 : i = 0 := by
          have h1 : streaming.stageCount = 1 := by decide
          rw [h1] at hi; exact Fin.ext (by omega)
        subst hi0
        exact ⟨by decide, by decide, test_slots_loaded (by decide)⟩
      stage := by decide
      reach := ⟨4, by decide⟩
      settle := by decide
      cursor := by decide
      filled := by decide
      unwrapped := by decide
      written := fun slot j hs hj => by
        have h2 : streaming.ring.fill = 2 := by decide
        have h4 : streaming.groupCount = 4 := by decide
        rw [h2] at hs; rw [h4] at hj ⊢
        have all : ∀ slot, slot < 2 → ∀ j, j < 4 → (Memory.read? streaming.buf (slot * 4 + j)).isSome = true := by decide
        exact all slot hs j hj }
  phase := by
    show _ ∧ _ ∧ _ ∧ _ ∧ _ ∧ _
    exact ⟨by decide, by decide, by decide, by decide, by decide, by decide⟩

/-- EveryStepKeepsTheInvariant, EveryStepCompletes, EveryStepKeepsTheRegistersConsistent: a state with the invariant, its step, and the state after it. -/
theorem test_witness_invariant : (∃ t, streaming.Inv ∧ streaming.Consistent ∧ step streaming = .next t) ∧
    streaming.Inv ∧ streaming.ctl.state = .streaming :=
  ⟨⟨_, test_streaming_inv, test_streaming_inv.consistent, rfl⟩, test_streaming_inv, by decide⟩

/-- The invariant does not look at the inputs to come. -/
theorem test_inv_input {s : State} (i : Input) (h : s.Inv) : (input i s).Inv where
  consistent := ⟨h.consistent.legal, h.consistent.memory, h.consistent.clock, h.consistent.malformed,
    h.consistent.faultCode, h.consistent.truncated⟩
  plenFits := h.plenFits
  session hi :=
    have o := h.session hi
    ⟨o.valid, o.loaded, o.stage, o.reach, o.settle, o.cursor, o.filled, o.unwrapped, o.written⟩
  phase := h.phase

/-- ReadbackNeverTouchesUnwrittenCells. -/
theorem test_witness_unwritten : (input .readNext streaming).Inv ∧ (input .readNext streaming).ctl.state = .streaming ∧
    (input .readNext streaming).ports.inbox = .readNext :: [] :=
  ⟨test_inv_input .readNext test_streaming_inv, by decide, by decide⟩

/-- ResetSatisfiesTheInvariant: parameters at the ends of their ranges. -/
theorem test_witness_legal : { Params.standard with lmax := 2, budget := 1, capBytes := 2 }.legal = true ∧
    { Params.standard with lmax := 8, budget := 63 }.legal = true := by decide

/-- ControllerFollowsTheTransitionTable, MemoriesHaveOneWriterEach, EventsTellWhatTheStepDid and
ClockChangesOnlyOnItsArcs: a step for each premise that names one: firing, completing, wrapping, faulting, arming. -/
theorem test_witness_steps :
    let wrapping := { ticks (List.replicate 7 0x0000#16) armed with ports := { captured.ports with inbox := [.tick 0x0000#16] } }
    Event.trig ∈ (get (step (input (.tick 0x0009#16) armed))).ports.events ∧
    Event.done ∈ (get (step (input (.tick 0x0010#16) fired))).ports.events ∧
    Event.wrap ∈ (get (step wrapping)).ports.events ∧
    Event.err ∈ (get (step (input (.tick 0x0008#16) corrupt))).ports.events ∧
    (idle tiny 6 2 0).ctl.clken = false ∧ (sent [0x01#8] (idle tiny 6 2 0)).ctl.clken = true ∧
    fired.ctl.clken = true ∧ (get (step (input (.tick 0x0010#16) fired))).ctl.clken = false := by decide

end Sys2Proof.Tests
end

section
/-! SUPPORT. O8 and O54: a step is the rule of its first input, and from the invariant it always completes. The second
rests on one chain of facts, each stated once below: the compiler emits expressible micro-operations that consume at most
one word; the fetch reads back what the loader wrote; such a program therefore runs to a match or a mismatch, never to a
stall; so a tick in a session never raises HardwareFault. -/

/-! ### Slots decode to the micro-operation they encode (R81 to R84, R87) -/

namespace Sys2Proof

/-- The fields of a `Skip` slot (R81). -/
theorem skipSlot_fields : ∀ c : BitVec 4, opField (0b0000#4 ++ c) = 0b00#2 ∧
    (0b0000#4 ++ c).extractLsb' 4 2 = 0#2 ∧ (0b0000#4 ++ c).extractLsb' 0 4 = c := by decide

/-- The fields of a `MatchSingleBit` slot (R82). -/
theorem singleBitSlot_fields : ∀ p : Bool, opField (0b0100000#7 ++ BitVec.ofBool p) = 0b01#2 ∧
    (0b0100000#7 ++ BitVec.ofBool p).extractLsb' 1 5 = 0#5 ∧ (0b0100000#7 ++ BitVec.ofBool p).getLsbD 0 = p := by decide

/-- The fields of the first slot of a `MatchRun` (R83). -/
theorem matchRunSlot_fields : ∀ c : BitVec 3, opField (0b10000#5 ++ c) = 0b10#2 ∧
    (0b10000#5 ++ c).extractLsb' 3 3 = 0#3 ∧ (0b10000#5 ++ c).extractLsb' 0 3 = c := by decide

/-- A count or length n in 1..2^w, held in w bits as n - 1 (R84), reads back as n. -/
theorem toNat_ofNat_pred_add_one {w n : Nat} (h1 : 1 ≤ n) (hw : n ≤ 2 ^ w) :
    (BitVec.ofNat w (n - 1)).toNat + 1 = n := by
  rw [BitVec.toNat_ofNat, Nat.mod_eq_of_lt (by omega), Nat.sub_add_cancel h1]

/-- The slot of a `Skip` decodes to it, whatever the slot after it. -/
theorem decodeMicro_skip (P : Params) {n : Nat} (h1 : 1 ≤ n) (h16 : n ≤ 16) (b1 : Option Byte) :
    decodeMicro P (0b0000#4 ++ BitVec.ofNat 4 (n - 1)) b1 = .ok (.skip n) := by
  obtain ⟨hop, hres, hcount⟩ := skipSlot_fields (BitVec.ofNat 4 (n - 1))
  rw [decodeMicro, if_pos hop, decodeSkip, if_pos hres, hcount, toNat_ofNat_pred_add_one h1 h16]

/-- The slot of a `MatchSingleBit` decodes to it, whatever the slot after it. -/
theorem decodeMicro_matchSingleBit (P : Params) (p : Bool) (b1 : Option Byte) :
    decodeMicro P (0b0100000#7 ++ BitVec.ofBool p) b1 = .ok (.matchSingleBit p) := by
  obtain ⟨hop, hres, hbit⟩ := singleBitSlot_fields p
  rw [decodeMicro, if_neg (by rw [hop]; decide), if_pos hop, decodeMatchSingleBit, if_pos hres, hbit]

/-- The two slots of an expressible `MatchRun` decode to it. -/
theorem decodeMicro_matchRun {P : Params} {len : Nat} {lit : Byte} (h : (Instr.matchRun len lit).wf P = true) :
    decodeMicro P (0b10000#5 ++ BitVec.ofNat 3 (len - 1)) (some lit) = .ok (.matchRun len lit) := by
  simp only [Instr.wf, Bool.and_eq_true, decide_eq_true_eq] at h
  obtain ⟨⟨⟨h1, hlmax⟩, h8⟩, hlit⟩ := h
  obtain ⟨hop, hres, hlen⟩ := matchRunSlot_fields (BitVec.ofNat 3 (len - 1))
  have hback : (BitVec.ofNat 3 (len - 1)).toNat + 1 = len := toNat_ofNat_pred_add_one h1 h8
  have hhigh : lit >>> len = 0#8 := (ushiftRight_eq_zero lit len).2 hlit
  rw [decodeMicro, if_neg (by rw [hop]; decide), if_neg (by rw [hop]; decide), if_pos hop]
  simp only [decodeMatchRun, hres, hlen, hback, hhigh, Nat.not_lt.2 hlmax, ne_eq, not_true, if_false, if_true]

/-- An expressible micro-operation is one slot that decodes to it whatever follows, or a slot and a literal that decode
to it together; its first slot tells which (R87). -/
theorem encodeSlots_decodes {P : Params} {i : Instr} (hm : i.isMicro = true) (hw : i.wf P = true) :
    (∃ b0, encodeSlots i = [b0] ∧ slotCount b0 = 1 ∧ ∀ b1, decodeMicro P b0 b1 = .ok i) ∨
      ∃ b0 lit, encodeSlots i = [b0, lit] ∧ slotCount b0 = 2 ∧ decodeMicro P b0 (some lit) = .ok i := by
  cases i with
  | skip n =>
    have hn : 1 ≤ n ∧ n ≤ 16 := by simpa [Instr.wf] using hw
    refine .inl ⟨_, rfl, ?_, decodeMicro_skip P hn.1 hn.2⟩
    rw [slotCount, (skipSlot_fields _).1]; rfl
  | matchSingleBit p =>
    refine .inl ⟨_, rfl, ?_, decodeMicro_matchSingleBit P p⟩
    rw [slotCount, (singleBitSlot_fields _).1]; rfl
  | matchRun len lit =>
    refine .inr ⟨_, _, rfl, ?_, decodeMicro_matchRun hw⟩
    rw [slotCount, (matchRunSlot_fields _).1]; rfl
  | _ => simp [Instr.isMicro] at hm

end Sys2Proof

namespace Sys2Proof.Machine

/-! ### What the compiler emits fits the encoding and the word (R84, R132 to R137) -/

/-- A run from a position whose mask bit it has is not empty. -/
theorem runLength_pos (mask : Word) {r : Nat} (hr : r ≠ 0) : 1 ≤ runLength mask (mask.getLsbD (r - 1)) r := by
  obtain ⟨r, rfl⟩ := Nat.exists_eq_succ_of_ne_zero hr
  simp [runLength]

/-- The `MatchRun` of two compared bits or more, cut to `LMAX`, is expressible. -/
theorem wf_matchRun_of_compared {P : Params} (hP : P.legal = true) (value : Word) (r : Nat) {n : Nat} (hn : 2 ≤ n) :
    (Instr.matchRun (min n P.lmax)
      ((value.extractLsb' (r - min n P.lmax) (min n P.lmax)).setWidth 8)).wf P = true := by
  obtain ⟨h2, h8, -⟩ := Params.legal_parts hP
  have hlit : ((value.extractLsb' (r - min n P.lmax) (min n P.lmax)).setWidth 8).toNat < 2 ^ min n P.lmax := by
    rw [BitVec.toNat_setWidth]
    exact lt_of_le_of_lt (Nat.mod_le _ _) (BitVec.isLt _)
  simp only [Instr.wf, hlit, decide_true, Bool.and_true, Bool.and_eq_true, decide_eq_true_eq]
  omega

/-- A compared run compiles to expressible instructions. -/
theorem compileCompared_wf {P : Params} (hP : P.legal = true) (value : Word) : ∀ fuel r n,
    ∀ op ∈ compileCompared P.lmax value fuel r n, op.wf P = true := by
  intro fuel
  induction fuel with
  | zero => intro r n op h; simp [compileCompared] at h
  | succ fuel ih =>
    intro r n op h
    simp only [compileCompared] at h
    split at h
    · simp at h
    · split at h
      · rw [List.mem_singleton] at h; subst h; rfl
      · rcases List.mem_cons.1 h with rfl | h
        · exact wf_matchRun_of_compared hP value r (by omega)
        · exact ih _ _ op h

/-- The scan of a word emits expressible instructions. -/
theorem compileFrom_wf {P : Params} (hP : P.legal = true) (mask value : Word) : ∀ fuel r, r ≤ 16 →
    ∀ op ∈ compileFrom P.lmax mask value fuel r, op.wf P = true := by
  intro fuel
  induction fuel with
  | zero => intro r _ op h; simp [compileFrom] at h
  | succ fuel ih =>
    intro r hr op h
    simp only [compileFrom] at h
    split at h
    · simp at h
    · rename_i h0
      split at h
      · rcases List.mem_append.1 h with h | h
        · exact compileCompared_wf hP value _ _ _ op h
        · exact ih _ (by omega) op h
      · rcases List.mem_cons.1 h with rfl | h
        · have hpos := runLength_pos mask h0
          have hle := (runLength_maximal mask (mask.getLsbD (r - 1)) r).1
          simp only [Instr.wf, Bool.and_eq_true, decide_eq_true_eq]
          omega
        · exact ih _ (by omega) op h

/-- With legal parameters, every instruction of a compiled program is expressible. -/
theorem compile_wf {P : Params} (hP : P.legal = true) (mask value : Word) :
    ∀ op ∈ compile P.lmax mask value, op.wf P = true := by
  intro op h
  unfold compile at h
  split at h
  · simp at h
  · exact compileFrom_wf hP mask value 16 16 (by omega) op h

/-- A compared run of n bits consumes no more than them. -/
theorem compileCompared_bits_le (lmax : Nat) (value : Word) : ∀ fuel r n,
    ((compileCompared lmax value fuel r n).map bitsConsumed).sum ≤ n := by
  intro fuel
  induction fuel with
  | zero => intro r n; simp [compileCompared]
  | succ fuel ih =>
    intro r n
    simp only [compileCompared]
    split
    · simp
    · split
      · simp [bitsConsumed]; omega
      · have := ih (r - min n lmax) (n - min n lmax)
        simp only [List.map_cons, List.sum_cons, bitsConsumed]
        omega

/-- A scan from position r - 1 down consumes at most r bits. -/
theorem compileFrom_bits_le (lmax : Nat) (mask value : Word) : ∀ fuel r,
    ((compileFrom lmax mask value fuel r).map bitsConsumed).sum ≤ r := by
  intro fuel
  induction fuel with
  | zero => intro r; simp [compileFrom]
  | succ fuel ih =>
    intro r
    simp only [compileFrom]
    split
    · simp
    · have hle := (runLength_maximal mask (mask.getLsbD (r - 1)) r).1
      have hrest := ih (r - runLength mask (mask.getLsbD (r - 1)) r)
      split
      · have hrun := compileCompared_bits_le lmax value (runLength mask (mask.getLsbD (r - 1)) r) r
          (runLength mask (mask.getLsbD (r - 1)) r)
        rw [List.map_append, List.sum_append]
        omega
      · simp only [List.map_cons, List.sum_cons, bitsConsumed]
        omega

/-- A compiled program consumes no bit beyond the word (R137 a). -/
theorem compile_bits_le (lmax : Nat) (mask value : Word) :
    ((compile lmax mask value).map bitsConsumed).sum ≤ 16 := by
  unfold compile
  split
  · simp
  · exact compileFrom_bits_le lmax mask value 16 16

/-- A program of micro-operations has no more instructions than slots. -/
theorem length_le_cost {ops : List Instr} (h : ∀ op ∈ ops, op.isMicro = true) : ops.length ≤ cost ops := by
  induction ops with
  | nil => simp
  | cons op ops ih =>
    have hop := opCost_pos (h op (List.mem_cons_self ..))
    have hops := ih fun o ho => h o (List.mem_cons_of_mem _ ho)
    simp only [List.length_cons, cost]
    omega

/-! ### Fetch and one instruction (R87, R110 to R114) -/

/-- The fetch reads back the micro-operation whose slots stand at `UPC`, within the program and the bank. -/
theorem State.fetchMicro_encoded {s : State} {k : StageIx} {i : Instr} (hm : i.isMicro = true)
    (hw : i.wf s.params = true)
    (slots : ∀ j b, (encodeSlots i)[j]? = some b → s.seq.upc + j < s.plen.get k ∧ s.seq.upc + j < s.params.budget ∧
      Memory.read? (s.imem.get k) (s.seq.upc + j) = some b) :
    s.fetchMicro k = .ok (some i) := by
  have read : ∀ j b, (encodeSlots i)[j]? = some b → s.imemRead k (s.seq.upc + j) = .ok b := by
    intro j b hb
    obtain ⟨-, hbank, hread⟩ := slots j b hb
    simp [State.imemRead, State.imemSlot, hbank, hread]
  rcases encodeSlots_decodes hm hw with ⟨b0, he, hc, hd⟩ | ⟨b0, lit, he, hc, hd⟩
  · have h0 : s.imemRead k s.seq.upc = .ok b0 := read 0 b0 (by rw [he]; rfl)
    simp [State.fetchMicro, h0, hc, hd, Except.toOption]
  · have h0 : s.imemRead k s.seq.upc = .ok b0 := read 0 b0 (by rw [he]; rfl)
    have h1 : s.imemRead k (s.seq.upc + 1) = .ok lit := read 1 lit (by rw [he]; rfl)
    have hin : s.seq.upc + 1 < s.plen.get k := (slots 1 lit (by rw [he]; rfl)).1
    simp [State.fetchMicro, h0, h1, hc, hin, hd, Except.toOption]

/-- A micro-operation that fits in what is left of the word does not stall: it ends the evaluation with a mismatch, or
goes on past its own bits and slots (R111 to R114). -/
theorem exec_micro_within {i : Instr} (hm : i.isMicro = true) {s : State} (hfit : s.seq.pos + bitsConsumed i ≤ 16) :
    exec i s = .next (s.endEval .noMatch) ∨ exec i s = .next (s.advance (bitsConsumed i) (opCost i)) := by
  have fits : s.seq.overrun (bitsConsumed i) = false := by simpa [Sequencer.overrun] using hfit
  cases i with
  | skip n => right; simp only [bitsConsumed] at fits; simp [exec, execSkip, fits, bitsConsumed, opCost]
  | matchSingleBit p =>
    simp only [bitsConsumed] at fits
    cases hd : s.seq.bitDiffers p <;> simp [exec, execMatchSingleBit, fits, hd, bitsConsumed, opCost]
  | matchRun len lit =>
    simp only [bitsConsumed] at fits
    cases hd : s.seq.runDiffers len lit <;> simp [exec, execMatchRun, fits, hd, bitsConsumed, opCost]
  | _ => simp [Instr.isMicro] at hm

/-! ### An evaluation of a loaded program (R110, R116) -/

/-- The evaluation of stage k stands before `ops`: expressible micro-operations whose slots are the rest of the program,
within the bank, and that consume no more than what is left of the word. -/
structure State.AtProgram (s : State) (k : StageIx) (ops : List Instr) : Prop where
  micro : ∀ op ∈ ops, op.isMicro = true
  expressible : ∀ op ∈ ops, op.wf s.params = true
  ends : s.seq.upc + cost ops = s.plen.get k
  within : s.plen.get k ≤ s.params.budget
  slots : ∀ a b, (assemble ops)[a]? = some b → Memory.read? (s.imem.get k) (s.seq.upc + a) = some b
  bits : s.seq.pos + (ops.map bitsConsumed).sum ≤ 16
  running : s.seq.result = none

/-- The first instruction still to run is the one that is fetched. -/
theorem State.AtProgram.fetchMicro {s : State} {k : StageIx} {op : Instr} {ops : List Instr}
    (h : s.AtProgram k (op :: ops)) : s.fetchMicro k = .ok (some op) := by
  refine State.fetchMicro_encoded (h.micro op (List.mem_cons_self ..)) (h.expressible op (List.mem_cons_self ..))
    fun j b hb => ?_
  have hj : j < opCost op := by
    obtain ⟨hlt, -⟩ := List.getElem?_eq_some_iff.1 hb
    rwa [encodeSlots_length] at hlt
  have hin : s.seq.upc + j < s.plen.get k := by
    have hends := h.ends
    simp only [cost] at hends
    omega
  refine ⟨hin, hin.trans_le h.within, h.slots j b ?_⟩
  rw [assemble, List.getElem?_append_left (by rwa [encodeSlots_length]), hb]

/-- Past its first instruction the evaluation stands before the others. -/
theorem State.AtProgram.advance {s : State} {k : StageIx} {op : Instr} {ops : List Instr}
    (h : s.AtProgram k (op :: ops)) : (s.advance (bitsConsumed op) (opCost op)).AtProgram k ops where
  micro o ho := h.micro o (List.mem_cons_of_mem _ ho)
  expressible o ho := h.expressible o (List.mem_cons_of_mem _ ho)
  ends := by simpa [cost, Nat.add_assoc] using h.ends
  within := h.within
  slots a b hb := by
    have := h.slots (opCost op + a) b
      (by rw [assemble, ← encodeSlots_length, List.getElem?_append_right (by omega), Nat.add_sub_cancel_left, hb])
    simpa [Nat.add_assoc] using this
  bits := by simpa [Nat.add_assoc] using h.bits
  running := h.running

/-- From the start of a program that fits, the loop of R110 ends with a match or a mismatch: no fault, no stall. -/
theorem evalLoop_completes {k : StageIx} (ops : List Instr) : ∀ {fuel : Nat} {s : State}, s.AtProgram k ops →
    ops.length < fuel →
    ∃ q, evalLoop k fuel s = .next { s with seq := q } ∧ (q.result = some .matched ∨ q.result = some .noMatch) := by
  induction ops with
  | nil =>
    intro fuel s h hf
    obtain ⟨fuel, rfl⟩ := Nat.exists_eq_succ_of_ne_zero (Nat.ne_of_gt hf)
    have hend : s.plen.get k ≤ s.seq.upc := Nat.le_of_eq h.ends.symm
    exact ⟨{ s.seq with result := some .matched }, by rw [evalLoop, if_pos hend]; rfl, .inl rfl⟩
  | cons op ops ih =>
    intro fuel s h hf
    obtain ⟨fuel, rfl⟩ := Nat.exists_eq_succ_of_ne_zero (Nat.ne_of_gt ((Nat.zero_le _).trans_lt hf))
    have hop := h.micro op (List.mem_cons_self ..)
    have hmore : ¬ s.plen.get k ≤ s.seq.upc := by
      have hends := h.ends
      have hcost := opCost_pos hop
      simp only [cost] at hends
      omega
    have hfit : s.seq.pos + bitsConsumed op ≤ 16 := by
      have hbits := h.bits
      simp only [List.map_cons, List.sum_cons] at hbits
      omega
    simp only [evalLoop, if_neg hmore, h.fetchMicro]
    rcases exec_micro_within hop hfit with he | he
    · exact ⟨{ s.seq with result := some .noMatch }, by rw [he]; rfl, .inr rfl⟩
    · obtain ⟨q, hq, hr⟩ := ih h.advance (fuel := fuel) (by simpa using hf)
      have hrun : (s.advance (bitsConsumed op) (opCost op)).seq.result = none := h.running
      exact ⟨q, by rw [he, andThen_next, if_pos hrun, hq]; rfl, hr⟩

/-- The evaluation of a loaded stage starts before its compiled program. -/
theorem State.StageLoaded.atProgram {s : State} {i : StageIx} (hP : s.params.legal = true) (h : s.StageLoaded i)
    (w : Word) : (s.startEval w).AtProgram i (s.stageProgram i) := by
  obtain ⟨hplen, hbudget, hslots⟩ := h
  exact
    { micro := compile_isMicro _ _ _
      expressible := compile_wf hP _ _
      ends := by simp [hplen, assemble_length]
      within := hplen.trans_le hbudget
      slots := fun a b hb => by simpa using hslots a b hb
      bits := by simpa [State.stageProgram] using compile_bits_le s.params.lmax _ _
      running := rfl }

/-- The evaluation of a loaded stage answers a match or a mismatch and changes the working registers alone (R114, R116). -/
theorem State.StageLoaded.evalStage {s : State} {i : StageIx} (hP : s.params.legal = true) (h : s.StageLoaded i)
    (w : Word) : ∃ q, evalStage i w s = .next { s with seq := q } ∧
      (q.result = some .matched ∨ q.result = some .noMatch) := by
  have hfuel : (s.stageProgram i).length < s.plen.get i + 1 := by
    rw [h.1, assemble_length, Nat.lt_succ_iff]
    exact length_le_cost (compile_isMicro _ _ _)
  exact evalLoop_completes (s.stageProgram i) (h.atProgram hP w) hfuel

/-! ### Each rule answers a next state -/

/-- A sample write within the buffer completes; it enters no state but `Captured`. -/
theorem storeSample_completes (p : Word) {s : State} (hw : s.ring.wr < s.cap) (hf : s.ctl.state ≠ .fault) :
    ∃ t, storeSample p s = .next t ∧ t.ctl.state ≠ .fault := by
  refine ⟨_, storeSample_eq_next.2 ⟨hw, rfl⟩, ?_⟩
  obtain ⟨-, -, -, -, -, -, -, hctl | ⟨-, hctl⟩⟩ := storeSample_frame (storeSample_eq_next.2 ⟨hw, rfl⟩)
  · rwa [hctl]
  · simp [hctl]

/-- The tick before the trigger completes when the active stage is loaded and the write cursor is in the buffer, and it
does not raise HardwareFault: the chain stalls on no match and no mismatch. -/
theorem captureTick_completes (p : Word) {s : State} (hP : s.params.legal = true) (hl : s.StageLoaded s.chain.stage)
    (hw : s.ring.wr < s.cap) (hf : s.ctl.state ≠ .fault) :
    ∃ t, captureTick p s = .next t ∧ t.ctl.state ≠ .fault := by
  obtain ⟨q, he, hr⟩ := hl.evalStage hP p
  have hstall : (State.chainDecide { s with seq := q }).2 ≠ .stall := by
    rw [ne_eq, State.chainDecide_stall]
    rintro ⟨hmatched, hnoMatch⟩
    exact hr.elim hmatched hnoMatch
  obtain ⟨c, hc⟩ : ∃ c, (State.chainDecide { s with seq := q }).1 = { s with seq := q, chain := c } :=
    ⟨_, State.chainDecide_frame _⟩
  simp only [captureTick, he, andThen_next]
  generalize State.chainDecide { s with seq := q } = d at hstall hc
  obtain ⟨u, signal⟩ := d
  obtain rfl : u = { s with seq := q, chain := c } := hc
  cases signal with
  | stall => exact absurd rfl hstall
  | fire => exact storeSample_completes p (s := State.fire { s with seq := q, chain := c }) hw (by simp)
  | quiet => exact storeSample_completes p (s := { s with seq := q, chain := c }) hw hf

/-- The invariant says nothing of the ports. -/
theorem State.Inv.withPorts {s : State} (h : s.Inv) (ports : Ports) : { s with ports := ports }.Inv where
  consistent := ⟨h.consistent.legal, h.consistent.memory, h.consistent.clock, h.consistent.malformed,
    h.consistent.faultCode, h.consistent.truncated⟩
  plenFits := h.plenFits
  session hi :=
    have o := h.session hi
    ⟨o.valid, o.loaded, o.stage, o.reach, o.settle, o.cursor, o.filled, o.unwrapped, o.written⟩
  phase := h.phase

/-- The invariant excludes `Fault`. -/
theorem State.Inv.not_fault {s : State} (h : s.Inv) : s.ctl.state ≠ .fault := by
  intro hf
  have hphase := h.phase
  simp [State.PhaseOk, hf] at hphase

/-- Outside `Idle` there is a slot to read and to write. -/
theorem State.Inv.wr_lt_cap {s : State} (h : s.Inv) (hi : s.ctl.state ≠ .idle) : s.ring.wr < s.cap :=
  (h.session hi).cursor

/-- While samples are read back the read cursor is in the buffer. -/
theorem State.Inv.rd_lt_cap {s : State} (h : s.Inv) (hs : s.ctl.state = .streaming) : s.ring.rd < s.cap := by
  have hphase := h.phase
  simp only [State.PhaseOk, hs] at hphase
  obtain ⟨-, -, -, -, hrd, -⟩ := hphase
  exact hrd

/-- A tick completes from the invariant and does not fault (R114, R255). -/
theorem tick_completes (p : Word) {s : State} (h : s.Inv) : ∃ t, tick p s = .next t ∧ t.ctl.state ≠ .fault := by
  unfold tick
  split
  next hk =>
    have hi : s.ctl.state ≠ .idle := by
      obtain ⟨-, hs | hs | hs⟩ := s.sampling_iff.1 hk <;> rw [hs] <;> decide
    have ok := h.session hi
    split
    next => exact storeSample_completes p ok.cursor h.not_fault
    next =>
      have hl : (s.setCtl .capturing).StageLoaded s.chain.stage := ok.loaded _ ok.stage
      exact captureTick_completes p h.consistent.legal hl ok.cursor (by simp)
  next => exact ⟨s, rfl, h.not_fault⟩

/-- A `Run` in `Idle` does not enter `Fault`. -/
theorem State.runSession_not_fault {s : State} (h : s.ctl.state ≠ .fault) : s.runSession.ctl.state ≠ .fault := by
  rcases s.runSession_cases with ⟨-, e⟩ | ⟨-, -, e⟩ | ⟨-, -, e⟩ <;> rw [e]
  · rw [State.raiseError_ctl _ _ (by decide)]; exact h
  · rw [State.raiseError_ctl _ _ (by decide)]; exact h
  · simp

/-- A command answers a next state, in every state. -/
theorem exec_command_completes {i : Instr} (h : i.isMicro = false) (s : State) : ∃ t, exec i s = .next t := by
  cases i with
  | reset => simp only [exec, execReset]; split <;> exact ⟨_, rfl⟩
  | run => simp only [exec, execRun]; split <;> exact ⟨_, rfl⟩
  | skip | matchSingleBit | matchRun => simp [Instr.isMicro] at h
  | _ => exact ⟨_, rfl⟩

/-- A frame at the command port completes in every state, and leads to `Fault` from there alone. -/
theorem command_completes (bytes : List Byte) {s : State} (h : s.ctl.state ≠ .fault) :
    ∃ t, command bytes s = .next t ∧ t.ctl.state ≠ .fault := by
  have hnext : ∃ t, command bytes s = .next t := by
    unfold command
    split
    next i hd => exact exec_command_completes (decodeFrame_not_micro hd) s
    next => exact ⟨s, rfl⟩
  obtain ⟨t, ht⟩ := hnext
  refine ⟨t, ht, ?_⟩
  rcases command_cases ht with rfl | ⟨-, -, rfl⟩ | ⟨-, -, rfl⟩ | ⟨-, c, rfl⟩
  · exact h
  · simp [Controller.reset]
  · exact State.runSession_not_fault h
  · exact h

/-- `BeginRead` completes from the invariant, in `Streaming` or where it was. -/
theorem beginRead_completes {s : State} (h : s.Inv) : ∃ t, beginRead s = .next t ∧ t.ctl.state ≠ .fault := by
  unfold beginRead
  split
  next hc =>
    have hcap : s.cap ≠ 0 := by
      have := h.wr_lt_cap (by rw [hc]; decide)
      omega
    exact ⟨_, if_neg hcap, by simp⟩
  next => exact ⟨s, rfl, h.not_fault⟩

/-- `ReadNext` completes from the invariant, in `Idle` or where it was. -/
theorem readNext_completes {s : State} (h : s.Inv) : ∃ t, readNext s = .next t ∧ t.ctl.state ≠ .fault := by
  unfold readNext
  split
  next hs =>
    refine ⟨_, if_pos (h.rd_lt_cap hs), ?_⟩
    rw [State.respond_ctl]
    split
    · simp [Controller.reset]
    · simp [hs]
  next => exact ⟨s, rfl, h.not_fault⟩

/-- Whatever the input, its rule completes from the invariant and does not fault. -/
theorem receive_completes (i : Input) {s : State} (h : s.Inv) : ∃ t, receive i s = .next t ∧ t.ctl.state ≠ .fault := by
  cases i with
  | tick p => exact tick_completes p h
  | frame bytes => exact command_completes bytes h.not_fault
  | beginRead => exact beginRead_completes h
  | readNext => exact readNext_completes h
  | powerOn => exact ⟨_, rfl, by simp [Controller.reset]⟩

/-! ### The step -/

/-- A step with an input pending is the rule of the first one, on the state from which it has been taken (R6). -/
theorem step_of_input {s : State} {i : Input} {rest : List Input} (h : s.ports.inbox = i :: rest) :
    step s = receive i { s with ports := { inbox := rest, events := [], reply := none } } := by
  simp [step, stepInput, h, State.takeInput]

/-- A step with no input pending clears the outputs of the step before (log entry 2). -/
theorem step_of_no_input {s : State} (h : s.ports.inbox = []) :
    step s = .next { s with ports := { inbox := [], events := [], reply := none } } := by
  simp [step, stepInput, h, State.clearOutputs]

/-- Settles O8: the rules of the step, input by input. -/
theorem stepTakesTheNextInput : Obligations.StepTakesTheNextInput := by
  unfold Obligations.StepTakesTheNextInput
  intro s rest
  exact ⟨fun _ => step_of_input, step_of_input, step_of_input, step_of_no_input⟩

/-- Settles O54: the invariant survives taking the input, and from it the rule of each input completes: a tick
evaluates a program of the loader, which does not stall, and every access to the buffer is at a cursor within it. -/
theorem everyStepCompletes : Obligations.EveryStepCompletes := by
  unfold Obligations.EveryStepCompletes
  intro s h
  cases hin : s.ports.inbox with
  | nil => exact ⟨_, step_of_no_input hin, h.not_fault⟩
  | cons i rest => rw [step_of_input hin]; exact receive_completes i (h.withPorts _)

end Sys2Proof.Machine
end

section
/-! SUPPORT. O51, O56, O59, O26 and O60: what a step does to the controller, the configuration and the memories. The
controller registers and the memories are followed operation by operation; a step is then one case per input. -/

namespace Sys2Proof.Machine

/-! ### The branches of the tick rule (R195, R196, R205) -/

/-- A tick that is not taken changes nothing (R205). -/
theorem tick_discarded (p : Word) {s : State} (hk : ¬ s.sampling = true) : tick p s = .next s := if_neg hk

/-- After the trigger a tick that is taken stores its sample and evaluates nothing (R196). -/
theorem tick_postTrigger (p : Word) {s : State} (hk : s.sampling = true) (hs : s.ctl.state = .postTrigger) :
    tick p s = storeSample p s := by
  rw [tick, if_pos hk, if_pos hs]

/-! ### The controller registers in step (R34, R35, R36, R206) -/

/-- What the controller registers keep between them: the part of `State.Consistent` that speaks of them alone. -/
structure Controller.InStep (c : Controller) : Prop where
  clock : c.clken = c.state.clocked
  malformed : c.err ≠ .malformedCommand
  faultCode : c.state = .fault ↔ c.err = .hardwareFault
  truncated : c.trunc = true → c.state = .streaming

/-- A state is consistent when its parameters are legal, its memories canonical and its controller registers in step. -/
theorem State.consistent_iff {s : State} :
    s.Consistent ↔ s.params.legal = true ∧ s.MemoryOk ∧ s.ctl.InStep :=
  ⟨fun h => ⟨h.legal, h.memory, h.clock, h.malformed, h.faultCode, h.truncated⟩,
    fun ⟨hl, hm, hc⟩ => ⟨hl, hm, hc.clock, hc.malformed, hc.faultCode, hc.truncated⟩⟩

theorem Controller.InStep.reset : Controller.reset.InStep := by
  constructor <;> simp [Controller.reset, CtlState.clocked]

/-- Outside `Fault` no HardwareFault is recorded. -/
theorem Controller.InStep.err_ne_hardwareFault {c : Controller} (h : c.InStep) (hf : c.state ≠ .fault) :
    c.err ≠ .hardwareFault := fun he => hf (h.faultCode.2 he)

/-- Outside `Streaming` the truncation flag is 0 (R36). -/
theorem Controller.InStep.trunc_eq_false {c : Controller} (h : c.InStep) (hs : c.state ≠ .streaming) :
    c.trunc = false := Bool.eq_false_iff.2 fun ht => hs (h.truncated ht)

/-- A change of state with the clock to match, from a state in which neither `TRUNC` nor a fault stands. -/
theorem Controller.InStep.moveTo {c : Controller} (h : c.InStep) (hf : c.state ≠ .fault) (hs : c.state ≠ .streaming)
    {q : CtlState} (hq : q ≠ .fault) : Controller.InStep { c with state := q, clken := q.clocked } where
  clock := rfl
  malformed := h.malformed
  faultCode := iff_of_false hq (h.err_ne_hardwareFault hf)
  truncated ht := by simp [h.trunc_eq_false hs] at ht

/-- HardwareFault: `STATE`, `CLKEN` and `ERR` together (R206). -/
theorem Controller.InStep.hardwareFault {c : Controller} (h : c.InStep) (hs : c.state ≠ .streaming) :
    Controller.InStep { c with state := .fault, clken := false, err := .hardwareFault } where
  clock := rfl
  malformed := by simp
  faultCode := by simp
  truncated ht := by simp [h.trunc_eq_false hs] at ht

/-- An error that is neither MalformedCommand nor HardwareFault may be recorded outside `Fault`. -/
theorem Controller.InStep.record {c : Controller} (h : c.InStep) (hf : c.state ≠ .fault) {e : ErrCode}
    (hm : e ≠ .malformedCommand) (hh : e ≠ .hardwareFault) : Controller.InStep { c with err := e } where
  clock := h.clock
  malformed := hm
  faultCode := iff_of_false hf hh
  truncated := h.truncated

/-- Entry to `Streaming`, with any truncation flag (R201). -/
theorem Controller.InStep.stream {c : Controller} (h : c.InStep) (hf : c.state ≠ .fault) (hc : c.clken = false)
    (b : Bool) : Controller.InStep { c with state := .streaming, trunc := b } where
  clock := hc
  malformed := h.malformed
  faultCode := iff_of_false (by simp) (h.err_ne_hardwareFault hf)
  truncated _ := rfl

/-! ### The memories in canonical form (R60) -/

theorem State.MemoryOk.congr {s t : State} (h : s.MemoryOk) (hp : t.params = s.params) (hi : t.imem = s.imem)
    (hb : t.buf = s.buf) : t.MemoryOk := by
  unfold State.MemoryOk at h ⊢
  rwa [hp, hi, hb]

/-- Erased memories are canonical. -/
theorem State.MemoryOk.erased (s : State) : s.resetRegisters.MemoryOk := by
  simp [State.MemoryOk]

/-- Loading the configured stages keeps the canonical form when each program fits its bank (R138, R193). -/
theorem State.MemoryOk.loadStages {s : State} (h : s.MemoryOk) (hb : s.overBudget = false) (is : List StageIx)
    (hn : is.Nodup) : (s.loadStages is).MemoryOk := by
  obtain ⟨im, pl, e⟩ := State.loadStages_frame is s
  obtain ⟨himem, hbuf⟩ := h
  refine ⟨fun k => ?_, by rw [e]; exact hbuf⟩
  rw [(State.loadStages_get is s k hn).1, show (s.loadStages is).params = s.params by rw [e]]
  split
  next hk =>
    have hfit := State.overBudget_eq_false s |>.1 hb k hk.2
    rw [State.load, State.loadSlots_imem, Four.get_set_same]
    exact Memory.wf_writeList _ (himem k) (by rwa [Nat.zero_add, assemble_length])
  next => exact himem k

/-! ### Consistency, operation by operation -/

/-- Consistency depends on the parameters, the memories and the controller alone. -/
theorem State.Consistent.congr {s t : State} (h : s.Consistent) (hp : t.params = s.params) (hi : t.imem = s.imem)
    (hb : t.buf = s.buf) (hc : t.ctl = s.ctl) : t.Consistent := by
  obtain ⟨hl, hm, hk⟩ := State.consistent_iff.1 h
  exact State.consistent_iff.2 ⟨hp ▸ hl, hm.congr hp hi hb, hc ▸ hk⟩

theorem State.Consistent.inStep {s : State} (h : s.Consistent) : s.ctl.InStep := (State.consistent_iff.1 h).2.2

/-- An update of the controller alone keeps consistency when it keeps the controller registers in step. -/
theorem State.Consistent.withCtl {s t : State} (h : s.Consistent) (hp : t.params = s.params) (hi : t.imem = s.imem)
    (hb : t.buf = s.buf) (hc : t.ctl.InStep) : t.Consistent :=
  State.consistent_iff.2 ⟨hp ▸ h.legal, h.memory.congr hp hi hb, hc⟩

/-- A session ends in a consistent state. -/
theorem State.Consistent.resetRegisters {s : State} (h : s.Consistent) : s.resetRegisters.Consistent :=
  State.consistent_iff.2 ⟨h.legal, .erased s, .reset⟩

/-- A clocked state is none of the others. -/
theorem CtlState.ne_of_clocked {q r : CtlState} (hq : q.clocked = true) (hr : r.clocked = false) : q ≠ r := by
  rintro rfl
  rw [hq] at hr; cases hr

/-- Samples are taken in clocked states. -/
theorem State.sampling_clocked {s : State} (hk : s.sampling = true) : s.ctl.state.clocked = true := by
  obtain ⟨-, hs | hs | hs⟩ := s.sampling_iff.1 hk <;> rw [hs] <;> rfl

/-- A move between two clocked states keeps consistency. -/
theorem State.Consistent.moveTo {s t : State} (h : s.Consistent) {q : CtlState} (hs : s.ctl.state.clocked = true)
    (hq : q.clocked = true) (hp : t.params = s.params) (hi : t.imem = s.imem) (hb : t.buf = s.buf)
    (hc : t.ctl = { s.ctl with state := q }) : t.Consistent := by
  refine h.withCtl hp hi hb ?_
  have hclk : q.clocked = s.ctl.clken := by rw [h.clock, hs, hq]
  have hmoved := h.inStep.moveTo (CtlState.ne_of_clocked hs rfl) (CtlState.ne_of_clocked hs rfl)
    (CtlState.ne_of_clocked hq rfl)
  rw [hclk] at hmoved
  rw [hc]; exact hmoved

/-- A sample write and the countdown after it keep consistency. -/
theorem State.Consistent.storeSample {s t : State} {p : Word} (h : s.Consistent)
    (ht : storeSample p s = .next t) : t.Consistent := by
  obtain ⟨hp, hi, -, -, -, -, -, hctl⟩ := storeSample_frame ht
  obtain ⟨hwr, rfl⟩ := storeSample_eq_next.1 ht
  refine State.consistent_iff.2 ⟨hp ▸ h.legal, ⟨fun k => ?_, ?_⟩, ?_⟩
  · rw [hp, hi]; exact h.memory.1 k
  · simpa using State.wf_putSample s h.memory.2 hwr
  · rcases hctl with hc | ⟨hs, hc⟩ <;> rw [hc]
    · exact h.inStep
    · exact h.inStep.moveTo (q := .captured) (by simp [hs]) (by simp [hs]) (by simp)

/-- A tick keeps consistency, whatever the program (R196, R206). -/
theorem State.Consistent.tick {s t : State} {p : Word} (h : s.Consistent) (ht : tick p s = .next t) :
    t.Consistent := by
  by_cases hk : s.sampling = true
  · by_cases hs : s.ctl.state = .postTrigger
    · exact h.storeSample ((tick_postTrigger p hk hs).symm.trans ht)
    · obtain ⟨u, q, -, rfl, -, hcase⟩ := captureTick_cases hk hs ht
      generalize hu : ({ s.setCtl .capturing with seq := q } : State) = u at hcase
      have hctl : u.ctl = { s.ctl with state := .capturing } := by rw [← hu]; rfl
      have hcons : u.Consistent := by
        rw [← hu]; exact h.moveTo (State.sampling_clocked hk) (q := .capturing) rfl rfl rfl rfl rfl
      have hchain : u.chainDecide.1.Consistent := by
        rw [State.chainDecide_frame]; exact hcons.congr rfl rfl rfl rfl
      have hchainCtl : u.chainDecide.1.ctl = u.ctl := by rw [State.chainDecide_frame]
      rcases hcase with ⟨-, rfl⟩ | ⟨-, -, hstore⟩ | ⟨-, hstore⟩
      · refine hchain.withCtl (by simp) (by simp) (by simp) ?_
        rw [State.raiseError_hardwareFault_ctl]
        exact hchain.inStep.hardwareFault (by simp [hchainCtl, hctl])
      · exact (hcons.moveTo (t := u.fire) (by simp [hctl, CtlState.clocked]) rfl rfl rfl rfl rfl).storeSample hstore
      · exact hchain.storeSample hstore
  · obtain rfl : s = t := Host.Outcome.next.inj ((tick_discarded p hk).symm.trans ht)
    exact h

/-- `Run` in `Idle` keeps consistency, refused or not (R192 to R194). -/
theorem State.Consistent.runSession {s : State} (h : s.Consistent) (hs : s.ctl.state = .idle) :
    s.runSession.Consistent := by
  have refuse : ∀ e, e ≠ .malformedCommand → e ≠ .hardwareFault → (s.raiseError e).Consistent := fun e hm hh => by
    refine h.withCtl (by simp) (by simp) (by simp) ?_
    rw [State.raiseError_ctl s e hh]
    exact h.inStep.record (by simp [hs]) hm hh
  rcases s.runSession_cases with ⟨-, e⟩ | ⟨-, -, e⟩ | ⟨-, hb, e⟩ <;> rw [e]
  · exact refuse _ (by decide) (by decide)
  · exact refuse _ (by decide) (by decide)
  · obtain ⟨im, pl, hload⟩ := State.loadStages_frame [0, 1, 2, 3] s
    refine State.consistent_iff.2 ⟨by rw [State.arm_params, hload]; exact h.legal, ?_, ?_⟩
    · exact (h.memory.loadStages hb [0, 1, 2, 3] (by decide)).congr rfl rfl rfl
    · rw [State.arm_ctl]; constructor <;> simp [CtlState.clocked]

/-- A frame at the command port keeps consistency. -/
theorem State.Consistent.command {s t : State} {bytes : List Byte} (h : s.Consistent)
    (ht : command bytes s = .next t) : t.Consistent := by
  rcases command_cases ht with rfl | ⟨-, -, rfl⟩ | ⟨-, hs, rfl⟩ | ⟨-, c, rfl⟩
  · exact h
  · exact h.resetRegisters
  · exact h.runSession hs
  · exact h.congr rfl rfl rfl rfl

/-- The truncation flag and its error keep consistency on the way into `Streaming` (R177, R201). -/
theorem State.Consistent.beginRead {s t : State} (h : s.Consistent) (ht : beginRead s = .next t) : t.Consistent := by
  rcases beginRead_cases ht with rfl | ⟨hs, -, rfl⟩
  · exact h
  · have hf : s.ctl.state ≠ .fault := by simp [hs]
    have hclk : s.ctl.clken = false := by rw [h.clock, hs]; rfl
    refine h.withCtl (by simp) (by simp) (by simp) ?_
    rw [State.respond_ctl, State.setCtl_ctl, State.flagTruncation_eq]
    split
    · exact (h.inStep.record hf (e := .insufficientHistory) (by decide) (by decide)).stream hf hclk true
    · exact h.inStep.stream hf hclk false

/-- A read keeps consistency, whether or not it ends the session (R202). -/
theorem State.Consistent.readNext {s t : State} (h : s.Consistent) (ht : readNext s = .next t) : t.Consistent := by
  rcases readNext_cases ht with rfl | ⟨-, -, r, rfl⟩
  · exact h
  · split
    · exact h.resetRegisters.congr rfl rfl rfl rfl
    · exact h.congr rfl rfl rfl rfl

/-- Whatever the input, its rule keeps consistency. -/
theorem State.Consistent.receive {i : Input} {s t : State} (h : s.Consistent) (ht : receive i s = .next t) :
    t.Consistent := by
  cases i with
  | tick p => exact h.tick ht
  | frame bytes => exact h.command ht
  | beginRead => exact h.beginRead ht
  | readNext => exact h.readNext ht
  | powerOn => cases ht; exact h.resetRegisters

/-- Settles O51: taking the input leaves the registers alone, and the rule of each input keeps them consistent. -/
theorem everyStepKeepsTheRegistersConsistent : Obligations.EveryStepKeepsTheRegistersConsistent := by
  unfold Obligations.EveryStepKeepsTheRegistersConsistent
  intro s t h ht
  rcases step_cases ht with ⟨-, rfl⟩ | ⟨i, rest, -, hr⟩
  · exact h.congr rfl rfl rfl rfl
  · exact State.Consistent.receive (h.congr (t := s.takeInput) rfl rfl rfl rfl) hr

/-! ### The configuration and the clock -/

/-- Outside `Idle` every command but `Reset` leaves the state as it is (R51, R192, R220). -/
theorem exec_command_outside_idle {s : State} {i : Instr} (hs : s.ctl.state ≠ .idle) (hm : i.isMicro = false)
    (hr : i ≠ .reset) : exec i s = .next s := by
  cases i with
  | skip | matchSingleBit | matchRun => simp [Instr.isMicro] at hm
  | reset => exact absurd rfl hr
  | run => exact if_neg hs
  | identify | queryMetadata => rfl
  | setClockDivisor | setSampleCounts | setFlags | setTriggerMask | setTriggerValue | setTriggerConfig =>
    exact congrArg Host.Outcome.next (s.configure_not_idle hs)

/-- Settles O26: each command but `Reset` acts in `Idle` alone. -/
theorem commandsAreDiscardedOutsideIdle : Obligations.CommandsAreDiscardedOutsideIdle := by
  unfold Obligations.CommandsAreDiscardedOutsideIdle
  intro s i hs hm hr
  exact exec_command_outside_idle hs hm hr

/-- A frame that does not decode to `Reset` is discarded outside `Idle`. -/
theorem command_outside_idle {s : State} {bytes : List Byte} (hs : s.ctl.state ≠ .idle)
    (hr : decodeFrame s.params bytes ≠ .ok .reset) : command bytes s = .next s := by
  unfold command
  split
  next i hd => exact exec_command_outside_idle hs (decodeFrame_not_micro hd) fun he => hr (he ▸ hd)
  next => rfl

/-- The ways the clock can go in a step (R34, R270): it stays as it is, it goes on when `Run` arms, it is off when the
session ends in `Idle`, or a tick that finds it on enters `Captured` or `Fault`. -/
inductive Controller.ClockArc (c c' : Controller) : Prop where
  | kept (same : c'.clken = c.clken)
  | armed (was : c.state = .idle) (is : c'.state = .armed) (on : c'.clken = true)
  | ended (is : c'.state = .idle) (off : c'.clken = false)
  | stopped (on : c.clken = true) (is : c'.state = .captured ∨ c'.state = .fault)

/-- The arcs say when the clock changes. -/
theorem Controller.ClockArc.changes {c c' : Controller} (h : c.ClockArc c') :
    (c.clken = false → c'.clken = true → c.state = .idle ∧ c'.state = .armed) ∧
      (c.clken = true → c'.clken = false → c'.state = .captured ∨ c'.state = .idle ∨ c'.state = .fault) := by
  cases h with
  | kept same => simp +contextual [same]
  | armed was is on => simp [was, is, on]
  | ended is off => simp [is, off]
  | stopped on is => exact ⟨by simp [on], fun _ _ => is.imp_right .inr⟩

/-- A sample write from a clocked controller keeps the clock, or enters `Captured` (R198). -/
theorem storeSample_clockArc {s t : State} {p : Word} {c : Controller} (ht : storeSample p s = .next t)
    (hon : c.clken = true) (hs : s.ctl.clken = c.clken) : c.ClockArc t.ctl := by
  obtain ⟨-, -, -, -, -, -, -, e | ⟨-, e⟩⟩ := storeSample_frame ht <;> rw [e]
  · exact .kept hs
  · exact .stopped hon (.inl rfl)

theorem storeSample_cfg {s t : State} {p : Word} (ht : storeSample p s = .next t) : t.cfg = s.cfg := by
  obtain ⟨-, -, -, hcfg, -⟩ := storeSample_frame ht
  exact hcfg

/-- A tick keeps the configuration and goes along an arc of the clock (R195, R196). -/
theorem tick_cfg_clockArc {s t : State} {p : Word} (ht : tick p s = .next t) :
    t.cfg = s.cfg ∧ s.ctl.ClockArc t.ctl := by
  by_cases hk : s.sampling = true
  · obtain ⟨hon, -⟩ := s.sampling_iff.1 hk
    by_cases hs : s.ctl.state = .postTrigger
    · have hstore := (tick_postTrigger p hk hs).symm.trans ht
      exact ⟨storeSample_cfg hstore, storeSample_clockArc hstore hon rfl⟩
    · obtain ⟨u, q, -, rfl, -, ⟨-, rfl⟩ | ⟨-, -, hstore⟩ | ⟨-, hstore⟩⟩ := captureTick_cases hk hs ht
      · exact ⟨by rw [State.raiseError_cfg, State.chainDecide_frame]; rfl, .stopped hon (.inr (by simp))⟩
      · exact ⟨(storeSample_cfg hstore).trans rfl, storeSample_clockArc hstore hon rfl⟩
      · rw [State.chainDecide_frame] at hstore
        exact ⟨(storeSample_cfg hstore).trans rfl, storeSample_clockArc hstore hon rfl⟩
  · obtain rfl : s = t := Host.Outcome.next.inj ((tick_discarded p hk).symm.trans ht)
    exact ⟨rfl, .kept rfl⟩

/-- Outside `Idle` the rule of an input keeps the configuration, or ends in the reset values (R207). -/
theorem receive_cfg_outside_idle {i : Input} {s t : State} (hs : s.ctl.state ≠ .idle) (ht : receive i s = .next t) :
    t.cfg = s.cfg ∨ (t.cfg = Session.reset ∧ t.ctl = Controller.reset) := by
  cases i with
  | tick p => exact .inl (tick_cfg_clockArc ht).1
  | frame bytes =>
    rcases command_cases ht with rfl | ⟨-, -, rfl⟩ | ⟨-, hidle, -⟩ | ⟨hidle, -⟩
    · exact .inl rfl
    · exact .inr ⟨rfl, rfl⟩
    · exact absurd hidle hs
    · exact absurd hidle hs
  | beginRead =>
    rcases beginRead_cases ht with rfl | ⟨-, -, rfl⟩
    · exact .inl rfl
    · exact .inl (by simp)
  | readNext =>
    rcases readNext_cases ht with rfl | ⟨-, -, r, rfl⟩
    · exact .inl rfl
    · split
      · exact .inr ⟨rfl, rfl⟩
      · exact .inl rfl
  | powerOn => cases ht; exact .inr ⟨rfl, rfl⟩

/-- Settles O56: outside `Idle` only the two resets and the end of a readback reach the configuration, and a frame that
is not `Reset` reaches nothing. -/
theorem configurationIsFrozenOutsideIdle : Obligations.ConfigurationIsFrozenOutsideIdle := by
  unfold Obligations.ConfigurationIsFrozenOutsideIdle
  refine ⟨fun s t hs ht => ?_, fun s bytes rest hs hin hr => ?_⟩
  · rcases step_cases ht with ⟨-, rfl⟩ | ⟨i, rest, -, hrec⟩
    · exact .inl rfl
    · exact receive_cfg_outside_idle (s := s.takeInput) hs hrec
  · rw [step_of_input hin]
    exact command_outside_idle (s := { s with ports := { inbox := rest, events := [], reply := none } }) hs hr

/-- `BeginRead` leaves the clock as it is (R201). -/
theorem beginRead_clken {s t : State} (ht : beginRead s = .next t) : t.ctl.clken = s.ctl.clken := by
  rcases beginRead_cases ht with rfl | ⟨-, -, rfl⟩
  · rfl
  · rw [State.respond_ctl, State.setCtl_ctl, State.flagTruncation_eq]
    split <;> rfl

/-- The rule of an input goes along an arc of the clock. -/
theorem receive_clockArc {i : Input} {s t : State} (ht : receive i s = .next t) : s.ctl.ClockArc t.ctl := by
  cases i with
  | tick p => exact (tick_cfg_clockArc ht).2
  | frame bytes =>
    rcases command_cases ht with rfl | ⟨-, -, rfl⟩ | ⟨-, hidle, rfl⟩ | ⟨-, c, rfl⟩
    · exact .kept rfl
    · exact .ended rfl rfl
    · rcases s.runSession_cases with ⟨-, e⟩ | ⟨-, -, e⟩ | ⟨-, -, e⟩ <;> rw [e]
      · exact .kept (by rw [State.raiseError_ctl _ _ (by decide)])
      · exact .kept (by rw [State.raiseError_ctl _ _ (by decide)])
      · exact .armed hidle rfl rfl
    · exact .kept rfl
  | beginRead => exact .kept (beginRead_clken ht)
  | readNext =>
    rcases readNext_cases ht with rfl | ⟨-, -, r, rfl⟩
    · exact .kept rfl
    · split
      · exact .ended rfl rfl
      · exact .kept rfl
  | powerOn => cases ht; exact .ended rfl rfl

/-- Settles O59: the rule of each input goes along an arc of the clock. -/
theorem clockChangesOnlyOnItsArcs : Obligations.ClockChangesOnlyOnItsArcs := by
  unfold Obligations.ClockChangesOnlyOnItsArcs
  intro s t ht
  rcases step_cases ht with ⟨-, rfl⟩ | ⟨i, rest, -, hrec⟩
  · exact (Controller.ClockArc.kept rfl).changes
  · exact (receive_clockArc (s := s.takeInput) hrec).changes

/-! ### The level outputs and the record of an error (R33, R35, R48, R250) -/

theorem CtlState.code_ne_seven (q : CtlState) : q.code ≠ 7#3 := by cases q <;> decide

theorem ErrCode.code_ne_six_seven (e : ErrCode) : e.code ≠ 6#3 ∧ e.code ≠ 7#3 := by cases e <;> decide

/-- Every error records its code, HardwareFault included (R250). -/
theorem State.raiseError_err (s : State) (e : ErrCode) : (s.raiseError e).ctl.err = e := by
  by_cases he : e = .hardwareFault
  · subst he; simp
  · rw [State.raiseError_ctl s e he]

/-- Settles O60: the level outputs and the codes by their definitions, the record of an error from `raiseError_err`. -/
theorem levelOutputsShowTheRegisters : Obligations.LevelOutputsShowTheRegisters := by
  unfold Obligations.LevelOutputsShowTheRegisters
  refine ⟨fun s => rfl, ⟨rfl, rfl, rfl, rfl, rfl, rfl, rfl, CtlState.code_ne_seven⟩,
    ⟨rfl, rfl, rfl, rfl, rfl, rfl, ErrCode.code_ne_six_seven⟩, fun s e => ⟨?_, ?_⟩⟩
  · exact congrArg ErrCode.code (s.raiseError_err e)
  · rw [State.raiseError_ports]

end Sys2Proof.Machine
end

section
/-! SUPPORT. O14, O17 and O45: what an evaluation, the compiler and the sample store depend on. -/

namespace Sys2Proof.Machine

/-! ### An evaluation depends on its program and the word (R115) -/

/-- Two states hold the same program for stage k: the same parameters, the same bank with its length, and the same
contents of unwritten slots. -/
structure State.SameProgram (k : StageIx) (s t : State) : Prop where
  params : s.params = t.params
  bank : s.imem.get k = t.imem.get k
  length : s.plen.get k = t.plen.get k
  unwritten : s.epoch = t.epoch

/-- The working registers are no part of the program. -/
theorem State.SameProgram.withSeq {k : StageIx} {s t : State} (h : s.SameProgram k t) (q q' : Sequencer) :
    State.SameProgram k { s with seq := q } { t with seq := q' } :=
  ⟨h.params, h.bank, h.length, h.unwritten⟩

theorem State.SameProgram.imemRead {k : StageIx} {s t : State} (h : s.SameProgram k t) (a : Nat) :
    s.imemRead k a = t.imemRead k a := by
  simp only [State.imemRead, State.imemSlot, h.params, h.bank, h.unwritten]

/-- The same program at the same `UPC` fetches the same instruction, or faults alike. -/
theorem State.SameProgram.fetchMicro {k : StageIx} {s t : State} (h : s.SameProgram k t) (hq : s.seq = t.seq) :
    s.fetchMicro k = t.fetchMicro k := by
  simp only [State.fetchMicro, h.imemRead, h.length, h.params, hq]

/-- The loop of R110 on the same program from the same working registers faults alike or ends in the same ones. -/
theorem State.SameProgram.evalLoop {k : StageIx} (fuel : Nat) : ∀ {s t : State}, s.SameProgram k t → s.seq = t.seq →
    (∃ e, evalLoop k fuel s = .fault e ∧ evalLoop k fuel t = .fault e) ∨
      (∃ q, evalLoop k fuel s = .next { s with seq := q } ∧ evalLoop k fuel t = .next { t with seq := q }) := by
  have ends : ∀ {s t : State} (r : EvalResult), s.seq = t.seq →
      ∃ q, s.endEval r = { s with seq := q } ∧ t.endEval r = { t with seq := q } := fun {s t} r hq =>
    ⟨{ s.seq with result := some r }, rfl, by rw [hq]; rfl⟩
  induction fuel with
  | zero =>
    intro s t _ hq
    obtain ⟨q, hs, ht⟩ := ends .stall hq
    exact .inr ⟨q, congrArg _ hs, congrArg _ ht⟩
  | succ fuel ih =>
    intro s t h hq
    simp only [Machine.evalLoop, ← h.length, ← hq, ← h.fetchMicro hq]
    split
    next =>
      obtain ⟨q, hs, ht⟩ := ends .matched hq
      exact .inr ⟨q, congrArg _ hs, congrArg _ ht⟩
    next =>
      split
      next e _ => exact .inl ⟨e, rfl, rfl⟩
      next =>
        obtain ⟨q, hs, ht⟩ := ends .stall hq
        exact .inr ⟨q, congrArg _ hs, congrArg _ ht⟩
      next i hf =>
        obtain ⟨q, -, hexec, -⟩ := exec_micro_seq (fetchMicro_isMicro hf) s.seq
        rw [hexec s rfl, hexec t hq.symm, andThen_next, andThen_next]
        split
        next => exact ih (h.withSeq q q) rfl
        next => exact .inr ⟨q, rfl, rfl⟩

/-- Settles O14: an evaluation loads the working registers first, and its loop reads the program and them alone. -/
theorem evaluationDependsOnItsProgramAlone : Obligations.EvaluationDependsOnItsProgramAlone := by
  unfold Obligations.EvaluationDependsOnItsProgramAlone
  intro k w s t hp hi hl he
  have same : s.SameProgram k t := ⟨hp, hi, hl, he⟩
  simp only [evalStage, ← hl]
  exact State.SameProgram.evalLoop _ (same.withSeq _ _) rfl

/-! ### Value bits under a zero mask (R130) -/

/-- A compared run depends on the value bits of its own positions alone. -/
theorem compileCompared_congr (lmax : Nat) {value value' : Word} : ∀ fuel r n, n ≤ r →
    (∀ p, r - n ≤ p → p < r → value.getLsbD p = value'.getLsbD p) →
    compileCompared lmax value fuel r n = compileCompared lmax value' fuel r n := by
  intro fuel
  induction fuel with
  | zero => intro r n _ _; rfl
  | succ fuel ih =>
    intro r n hn same
    simp only [compileCompared]
    split
    next => rfl
    next hn0 =>
      split
      next => rw [same (r - 1) (by omega) (by omega)]
      next =>
        have piece : value.extractLsb' (r - min n lmax) (min n lmax) =
            value'.extractLsb' (r - min n lmax) (min n lmax) := by
          apply BitVec.eq_of_getLsbD_eq
          intro i hi
          rw [BitVec.getLsbD_extractLsb', BitVec.getLsbD_extractLsb', same _ (by omega) (by omega)]
        rw [piece, ih _ _ (by omega) fun p hlo hhi => same p (by omega) (by omega)]

/-- The scan depends on the value bits under the mask alone. -/
theorem compileFrom_congr (lmax : Nat) {mask value value' : Word}
    (same : ∀ p, mask.getLsbD p = true → value.getLsbD p = value'.getLsbD p) : ∀ fuel r,
    compileFrom lmax mask value fuel r = compileFrom lmax mask value' fuel r := by
  intro fuel
  induction fuel with
  | zero => intro r; rfl
  | succ fuel ih =>
    intro r
    simp only [compileFrom, ih]
    split
    next => rfl
    next =>
      split
      next hbit =>
        obtain ⟨hle, hrun, -⟩ := runLength_maximal mask (mask.getLsbD (r - 1)) r
        rw [compileCompared_congr lmax _ r _ hle fun p hlo hhi => same p ?_]
        have hmask := hrun (r - 1 - p) (by omega)
        rwa [hbit, show r - 1 - (r - 1 - p) = p by omega] at hmask
      next => rfl

/-- Values that agree under the mask have the same bits where the mask is 1. -/
theorem getLsbD_eq_of_and_eq {mask value value' : Word} (h : value &&& mask = value' &&& mask) (p : Nat)
    (hp : mask.getLsbD p = true) : value.getLsbD p = value'.getLsbD p := by
  simpa [hp] using congrArg (fun v : Word => v.getLsbD p) h

/-- Settles O17: the scan reads the value in compared runs alone, and there the mask is 1. -/
theorem dontCareBitsDoNotInfluenceTheProgram : Obligations.DontCareBitsDoNotInfluenceTheProgram := by
  unfold Obligations.DontCareBitsDoNotInfluenceTheProgram
  intro lmax mask value value' h
  simp only [compile, compileFrom_congr lmax (getLsbD_eq_of_and_eq h)]

/-! ### The layout of the sample store (R64) -/

/-- The low half of a byte of the store is its even nibble. -/
theorem State.storeByte_low (s : State) (a : Nat) : (s.storeByte a).extractLsb' 0 4 = s.nibble (2 * a) :=
  BitVec.extractLsb'_append_eq_right

/-- The high half of a byte of the store is its odd nibble. -/
theorem State.storeByte_high (s : State) (a : Nat) : (s.storeByte a).extractLsb' 4 4 = s.nibble (2 * a + 1) :=
  BitVec.extractLsb'_append_eq_left

/-- Nibble j of a stored sample is the j-th nibble of its slot. -/
theorem State.sampleAt_nibble (s : State) (slot : Nat) {j : Nat} (hj : j < s.groupCount) :
    (s.sampleAt slot).extractLsb' (4 * j) 4 = s.nibble (slot * s.groupCount + j) :=
  joinNibbles_extract _ j _ (by rw [State.nibbles_length]; exact s.groupCount_le) (s.nibbles_getElem? _ _ j hj)

/-- With a group enabled, fewer than g nibbles lie beyond the last slot. -/
theorem State.capNibbles_lt (s : State) (hg : 1 ≤ s.groupCount) :
    s.params.capNibbles < s.cap * s.groupCount + s.groupCount := by
  have hcap : s.cap = s.params.capNibbles / s.groupCount := if_neg (Nat.ne_of_gt hg)
  rw [hcap]
  exact Nat.lt_div_mul_add hg

/-- Settles O45, part by part: the halves of a byte, the nibbles of a slot, and the bounds of the store. -/
theorem sampleStoreLayout : Obligations.SampleStoreLayout := by
  unfold Obligations.SampleStoreLayout
  refine ⟨fun s q => ?_, fun s slot j hj => s.sampleAt_nibble slot hj, fun s slot j hs hj => ⟨?_, ?_⟩,
    State.capNibbles_lt⟩
  · split
    next heven => rw [State.storeByte_low, show 2 * (q / 2) = q by omega]
    next hodd => rw [State.storeByte_high, show 2 * (q / 2) + 1 = q by omega]
  · have hnext : (slot + 1) * s.groupCount ≤ s.cap * s.groupCount := Nat.mul_le_mul_right _ hs
    rw [Nat.succ_mul] at hnext
    omega
  · exact s.cap_mul_groupCount_le

end Sys2Proof.Machine
end

section
/-! SUPPORT. O53: the invariant of a run, kept by every step. What an armed session keeps is taken apart into its
configuration with the programs, its stage chain and its buffer; each operation touches one of the three, and each state
of the controller adds the clause of `State.PhaseOk` that its operations hand on. -/

namespace Sys2Proof.Machine

/-! ### What `Validate` establishes (R192) -/

/-- The facts of a valid configuration that a session leans on: a configured stage, the walk to a capture stage, and
`POST` between 1 and the capacity. -/
theorem State.validate_facts {s : State} (h : s.validate = true) :
    1 ≤ s.stageCount ∧ captureReachable s.cfg s.stageCount 4 0 = true ∧ 1 ≤ s.cfg.post.toNat ∧
      s.cfg.post.toNat ≤ s.cap := by
  unfold State.validate at h
  split_ifs at h with hgroups hcount hlow hmode hreach hzero htotal hcap
  have hr : captureReachable s.cfg s.stageCount 4 0 = true := by simpa using hreach
  exact ⟨by omega, hr, by omega, by omega⟩

/-- The walk to a capture stage goes on from the successor of a stage that is none (R192 d). -/
theorem captureReachable_next {c : Session} {n fuel : Nat} {i : StageIx} (h : captureReachable c n fuel i = true)
    (hs : (c.stages.get i).starts = false) :
    (c.stages.get i).next.val < n ∧ ∃ fuel', captureReachable c n fuel' (c.stages.get i).next = true := by
  cases fuel with
  | zero => simp [captureReachable] at h
  | succ fuel =>
    simp only [captureReachable, hs, Bool.false_eq_true, if_false] at h
    split_ifs at h with hv hn
    exact ⟨by omega, fuel, h⟩

/-! ### The three parts of a session -/

/-- The configuration is valid and its programs are loaded. -/
structure State.ProgramsOk (s : State) : Prop where
  valid : s.validate = true
  loaded : ∀ i : StageIx, i.val < s.stageCount → s.StageLoaded i

/-- The active stage is configured and leads to a capture stage, with `SETTLE` within its delay (R38, R158). -/
structure State.ChainOk (s : State) : Prop where
  stage : s.chain.stage.val < s.stageCount
  reach : ∃ fuel, captureReachable s.cfg s.stageCount fuel s.chain.stage = true
  settle : s.chain.settle ≤ (s.cfg.stages.get s.chain.stage).delay

/-- The write cursor is in the buffer and the slots that `FILL` counts are written (R42, R43, R183). -/
structure State.BufferOk (s : State) : Prop where
  cursor : s.ring.wr < s.cap
  filled : s.ring.fill ≤ s.cap
  unwrapped : s.ring.fill < s.cap → s.ring.wr = s.ring.fill
  written : s.FilledWritten

/-- What holds of an armed session, in its three parts. -/
theorem State.sessionOk_iff {s : State} : s.SessionOk ↔ s.ProgramsOk ∧ s.ChainOk ∧ s.BufferOk :=
  ⟨fun o => ⟨⟨o.valid, o.loaded⟩, ⟨o.stage, o.reach, o.settle⟩, ⟨o.cursor, o.filled, o.unwrapped, o.written⟩⟩,
    fun ⟨⟨hv, hl⟩, ⟨hs, hr, hd⟩, ⟨hc, hf, hu, hw⟩⟩ => ⟨hv, hl, hs, hr, hd, hc, hf, hu, hw⟩⟩

theorem State.StageLoaded.congr {s t : State} {i : StageIx} (h : s.StageLoaded i) (hp : t.params = s.params)
    (hc : t.cfg = s.cfg) (hi : t.imem = s.imem) (hl : t.plen = s.plen) : t.StageLoaded i := by
  unfold State.StageLoaded at h ⊢
  rwa [State.stageProgram_congr hp hc, hp, hi, hl]

theorem State.ProgramsOk.congr {s t : State} (h : s.ProgramsOk) (hp : t.params = s.params) (hc : t.cfg = s.cfg)
    (hi : t.imem = s.imem) (hl : t.plen = s.plen) : t.ProgramsOk where
  valid := (State.validate_congr hp hc).trans h.valid
  loaded i hn := (h.loaded i (by rwa [State.stageCount_congr hc] at hn)).congr hp hc hi hl

theorem State.ChainOk.congr {s t : State} (h : s.ChainOk) (hc : t.cfg = s.cfg) (hch : t.chain = s.chain) :
    t.ChainOk := by
  obtain ⟨hs, hr, hd⟩ := h
  exact ⟨by rwa [hch, State.stageCount_congr hc], by rwa [hch, hc, State.stageCount_congr hc], by rwa [hch, hc]⟩

theorem State.BufferOk.congr {s t : State} (h : s.BufferOk) (hp : t.params = s.params) (hc : t.cfg = s.cfg)
    (hb : t.buf = s.buf) (hw : t.ring.wr = s.ring.wr) (hf : t.ring.fill = s.ring.fill) : t.BufferOk := by
  obtain ⟨hcursor, hfilled, hunwrapped, hwritten⟩ := h
  have hcap := State.cap_congr hp hc
  refine ⟨by rwa [hw, hcap], by rwa [hf, hcap], by rwa [hw, hf, hcap], ?_⟩
  unfold State.FilledWritten at hwritten ⊢
  rwa [hf, hb, State.groupCount_congr hc]

/-- A session is kept by every update that leaves its registers, its memories and its cursor alone. -/
theorem State.SessionOk.congr {s t : State} (o : s.SessionOk) (hp : t.params = s.params := by simp)
    (hc : t.cfg = s.cfg := by simp) (hi : t.imem = s.imem := by simp) (hl : t.plen = s.plen := by simp)
    (hch : t.chain = s.chain := by simp) (hb : t.buf = s.buf := by simp) (hw : t.ring.wr = s.ring.wr := by simp)
    (hf : t.ring.fill = s.ring.fill := by simp) : t.SessionOk := by
  obtain ⟨programs, chain, buffer⟩ := State.sessionOk_iff.1 o
  exact State.sessionOk_iff.2 ⟨programs.congr hp hc hi hl, chain.congr hc hch, buffer.congr hp hc hb hw hf⟩

/-! ### The stage chain within a session (R154, R155, R158) -/

/-- What the chain's step can do to the chain: nothing, count a settling match, or go on to the next stage. -/
theorem State.chainDecide_cases (s : State) :
    s.chainDecide.1 = s ∨
    (s.chain.settle < (s.cfg.stages.get s.chain.stage).delay ∧
      s.chainDecide.1 = { s with chain := { s.chain with settle := s.chain.settle + 1 } }) ∨
    ((s.cfg.stages.get s.chain.stage).starts = false ∧
      s.chainDecide.1 = { s with chain := { stage := (s.cfg.stages.get s.chain.stage).next, settle := 0 } }) := by
  unfold State.chainDecide State.chainMatched
  split
  next =>
    dsimp only
    split_ifs with hsettle hstarts hnext
    · exact .inr (.inl ⟨hsettle, rfl⟩)
    · exact .inl rfl
    · exact .inr (.inr ⟨by simpa using hstarts, rfl⟩)
    · exact .inl rfl
  all_goals exact .inl rfl

/-- The chain's step stays on the walk to a capture stage. -/
theorem State.ChainOk.chainDecide {s : State} (h : s.ChainOk) : s.chainDecide.1.ChainOk := by
  obtain ⟨hstage, ⟨fuel, hreach⟩, -⟩ := id h
  rcases s.chainDecide_cases with e | ⟨hlt, e⟩ | ⟨hstarts, e⟩ <;> rw [e]
  · exact h
  · exact ⟨hstage, ⟨fuel, hreach⟩, by dsimp only; bv_omega⟩
  · obtain ⟨hnext, hwalk⟩ := captureReachable_next hreach hstarts
    exact ⟨hnext, hwalk, Nat.zero_le _⟩

/-! ### The buffer within a session (R171 to R173) -/

/-- A cell that is written stays written. -/
theorem Memory.isSome_writeList {w : Nat} {m : Memory w} {b : Nat} (h : (Memory.read? m b).isSome) (a : Nat)
    (vs : List (BitVec w)) : (Memory.read? (Memory.writeList m a vs) b).isSome := by
  by_cases hout : b < a ∨ a + vs.length ≤ b
  · rwa [Memory.read?_writeList_outside _ _ _ _ hout]
  · have hin := Memory.read?_writeList_inside vs m a (b - a) (by omega)
    rw [show a + (b - a) = b by omega, List.getElem?_eq_getElem (by omega)] at hin
    rw [hin]; rfl

/-- A sample write moves the cursor on and writes the slot that `FILL` comes to count. -/
theorem State.BufferOk.writeSample {s : State} (h : s.BufferOk) (v : Word) : (s.writeSample v).BufferOk := by
  obtain ⟨hcursor, hfilled, hunwrapped, hwritten⟩ := h
  have hcap : (s.writeSample v).cap = s.cap := State.cap_congr (by simp) (by simp)
  have hg : (s.writeSample v).groupCount = s.groupCount := State.groupCount_congr (by simp)
  refine ⟨?_, ?_, ?_, fun slot j hslot hj => ?_⟩
  · rw [hcap, State.writeSample_ring]
    exact Nat.mod_lt _ (by omega)
  · rw [hcap, State.writeSample_ring]
    exact Nat.min_le_right _ _
  · simp only [hcap, State.writeSample_ring]
    intro hlt
    have hnext : s.ring.wr + 1 < s.cap := by omega
    rw [Nat.mod_eq_of_lt hnext]
    omega
  · simp only [hg, State.writeSample_ring] at hslot hj
    simp only [hg, State.writeSample_buf, State.putSample_buf]
    by_cases hnew : slot = s.ring.wr
    · subst hnew
      rw [Memory.read?_writeList_inside _ _ _ _ (by rwa [splitNibbles_length]), splitNibbles_getElem? _ _ _ hj]
      rfl
    · have hold : slot < s.ring.fill := by omega
      exact Memory.isSome_writeList (hwritten slot j hold hj) _ _

/-- A sample write keeps a session. -/
theorem State.SessionOk.writeSample {s : State} (o : s.SessionOk) (v : Word) : (s.writeSample v).SessionOk := by
  obtain ⟨programs, chain, buffer⟩ := State.sessionOk_iff.1 o
  exact State.sessionOk_iff.2 ⟨programs.congr (by simp) (by simp) (by simp) (by simp),
    chain.congr (by simp) (by simp), buffer.writeSample v⟩

/-- `effPost` lies between 1 and the capacity in a session (R175, R179). -/
theorem State.SessionOk.effPost_bounds {s : State} (o : s.SessionOk) : 1 ≤ s.effPost ∧ s.effPost ≤ s.cap := by
  obtain ⟨-, -, hpost, hcap⟩ := State.validate_facts o.valid
  exact ⟨s.effPost_pos hpost, s.effPost_le_cap (hpost.trans hcap)⟩

/-! ### The clause of each controller state -/

section
variable {s : State}

theorem State.phaseOk_idle (h : s.ctl.state = .idle) :
    s.PhaseOk ↔ s.chain = Chain.reset ∧ s.ring = Ring.reset ∧ s.plen = Four.all 0 := by
  simp [State.PhaseOk, h]

theorem State.phaseOk_armed (h : s.ctl.state = .armed) :
    s.PhaseOk ↔
      s.chain = Chain.reset ∧ s.ring.wr = 0 ∧ s.ring.fill = 0 ∧ s.ring.trigv = false ∧ s.ctl.err = .none := by
  simp [State.PhaseOk, h]

theorem State.phaseOk_capturing (h : s.ctl.state = .capturing) :
    s.PhaseOk ↔ s.ring.trigv = false ∧ s.ctl.err = .none := by
  simp [State.PhaseOk, h]

theorem State.phaseOk_postTrigger (h : s.ctl.state = .postTrigger) :
    s.PhaseOk ↔ s.ring.trigv = true ∧ s.ring.trig < s.cap ∧ s.ctl.err = .none ∧
      1 ≤ s.ring.countdown.toNat ∧ s.ring.countdown.toNat ≤ s.effPost ∧
      s.effPost ≤ s.ring.fill + s.ring.countdown.toNat ∧
      (s.ring.fill < s.cap → s.ring.trig + s.effPost = s.ring.fill + s.ring.countdown.toNat) := by
  simp [State.PhaseOk, h]

theorem State.phaseOk_captured (h : s.ctl.state = .captured) :
    s.PhaseOk ↔ s.ring.trigv = true ∧ s.ring.trig < s.cap ∧ s.ctl.err = .none ∧
      s.effPost ≤ s.ring.fill ∧ (s.ring.fill < s.cap → s.ring.trig + s.effPost = s.ring.fill) := by
  simp [State.PhaseOk, h]

theorem State.phaseOk_streaming (h : s.ctl.state = .streaming) :
    s.PhaseOk ↔ s.ring.trigv = true ∧ (s.ctl.err = .insufficientHistory ↔ s.ctl.trunc = true) ∧
      1 ≤ s.ring.remain ∧ s.ring.remain ≤ s.ring.fill ∧ s.ring.rd < s.cap ∧
      (s.ring.fill < s.cap → s.ring.rd + s.ring.remain = s.ring.fill) := by
  simp [State.PhaseOk, h]

end

/-! ### `Idle` -/

/-- In `Idle` the invariant is consistency with the registers of the session at reset. -/
theorem State.Inv.of_idle {t : State} (hc : t.Consistent) (hs : t.ctl.state = .idle) (hch : t.chain = Chain.reset)
    (hr : t.ring = Ring.reset) (hl : t.plen = Four.all 0) : t.Inv where
  consistent := hc
  plenFits k := by simp [hl]
  session hne := absurd hs hne
  phase := (State.phaseOk_idle hs).2 ⟨hch, hr, hl⟩

/-- The return to the reset values, from any consistent state. -/
theorem State.Inv.resetRegisters {s : State} (h : s.Inv) : s.resetRegisters.Inv :=
  .of_idle h.consistent.resetRegisters rfl rfl rfl rfl

/-- An update in `Idle` that leaves the registers of the session alone. -/
theorem State.Inv.stay_idle {s t : State} (h : s.Inv) (hs : s.ctl.state = .idle) (hc : t.Consistent)
    (ht : t.ctl.state = .idle) (hch : t.chain = s.chain) (hr : t.ring = s.ring) (hl : t.plen = s.plen) : t.Inv := by
  obtain ⟨hchain, hring, hplen⟩ := (State.phaseOk_idle hs).1 h.phase
  exact .of_idle hc ht (hch.trans hchain) (hr.trans hring) (hl.trans hplen)

/-! ### `Run` (R192 to R194) -/

theorem mem_allStages : ∀ i : StageIx, i ∈ ([0, 1, 2, 3] : List StageIx) := by decide

/-- After the loader each configured stage holds its program (R138, R194). -/
theorem State.loadStages_stageLoaded {s : State} (hb : s.overBudget = false) {i : StageIx}
    (hi : i.val < s.stageCount) : (s.loadStages [0, 1, 2, 3]).StageLoaded i := by
  obtain ⟨im, pl, e⟩ := State.loadStages_frame [0, 1, 2, 3] s
  obtain ⟨himem, hplen⟩ := State.loadStages_get [0, 1, 2, 3] s i (by decide)
  rw [if_pos ⟨mem_allStages i, hi⟩] at himem hplen
  have hprog : (s.loadStages [0, 1, 2, 3]).stageProgram i = s.stageProgram i :=
    State.stageProgram_congr (by rw [e]) (by rw [e]) i
  unfold State.StageLoaded
  rw [hprog, himem, hplen, show (s.loadStages [0, 1, 2, 3]).params = s.params by rw [e]]
  refine ⟨by simp [State.load], ?_, fun a b hab => ?_⟩
  · rw [assemble_length]; exact s.overBudget_eq_false.1 hb i hi
  · have hlt : a < (assemble (s.stageProgram i)).length := (List.getElem?_eq_some_iff.1 hab).1
    have hread := Memory.read?_writeList_inside _ (s.imem.get i) 0 a hlt
    rw [Nat.zero_add, hab] at hread
    simpa [State.load] using hread

/-- After the loader every program length fits its bank. -/
theorem State.loadStages_plenFits {s : State} (h : ∀ k, s.plen.get k ≤ s.params.budget) (hb : s.overBudget = false)
    (k : StageIx) : (s.loadStages [0, 1, 2, 3]).plen.get k ≤ s.params.budget := by
  rw [(State.loadStages_get [0, 1, 2, 3] s k (by decide)).2]
  split
  next hk =>
    have hfit := s.overBudget_eq_false.1 hb k hk.2
    simpa [State.load, assemble_length] using hfit
  next => exact h k

/-- `Run` in `Idle` keeps the invariant: a refusal records its error there, and arming starts a session. -/
theorem State.Inv.runSession {s : State} (h : s.Inv) (hs : s.ctl.state = .idle) : s.runSession.Inv := by
  have hcons := h.consistent.runSession hs
  rcases s.runSession_cases with ⟨-, e⟩ | ⟨-, -, e⟩ | ⟨hv, hb, e⟩ <;> rw [e] at hcons ⊢
  · exact h.stay_idle hs hcons (by rw [State.raiseError_ctl _ _ (by decide)]; exact hs) (by simp) (by simp) (by simp)
  · exact h.stay_idle hs hcons (by rw [State.raiseError_ctl _ _ (by decide)]; exact hs) (by simp) (by simp) (by simp)
  · obtain ⟨hcount, hreach, hpost, hcap⟩ := State.validate_facts hv
    have hplen := State.loadStages_plenFits h.plenFits hb
    have hload : ∀ i : StageIx, i.val < s.stageCount → (s.loadStages [0, 1, 2, 3]).StageLoaded i :=
      fun i hi => State.loadStages_stageLoaded hb hi
    obtain ⟨im, pl, hframe⟩ := State.loadStages_frame [0, 1, 2, 3] s
    rw [hframe] at hplen hload hcons ⊢
    refine ⟨hcons, hplen, fun _ => State.sessionOk_iff.2 ⟨?_, ?_, ?_⟩,
      (State.phaseOk_armed rfl).2 ⟨rfl, rfl, rfl, rfl, rfl⟩⟩
    · exact ⟨hv, fun i hi => (hload i hi).congr rfl rfl rfl rfl⟩
    · exact ⟨hcount, ⟨4, hreach⟩, Nat.zero_le _⟩
    · exact ⟨hpost.trans hcap, Nat.zero_le _, fun _ => rfl, fun slot j hslot _ => absurd hslot (Nat.not_lt_zero _)⟩

/-- A frame at the command port keeps the invariant. -/
theorem State.Inv.command {s t : State} {bytes : List Byte} (h : s.Inv) (ht : command bytes s = .next t) : t.Inv := by
  have hcons := h.consistent.command ht
  rcases command_cases ht with rfl | ⟨-, -, rfl⟩ | ⟨-, hs, rfl⟩ | ⟨hs, c, rfl⟩
  · exact h
  · exact h.resetRegisters
  · exact h.runSession hs
  · exact h.stay_idle hs hcons hs rfl rfl rfl

/-! ### The tick (R153 to R158, R195 to R198) -/

/-- The first tick of a session enters `Capturing` (R195). -/
theorem State.Inv.enterCapturing {s : State} (h : s.Inv) (hs : s.ctl.state = .armed ∨ s.ctl.state = .capturing) :
    (s.setCtl .capturing).Inv where
  consistent := h.consistent.moveTo (q := .capturing) (by rcases hs with hs | hs <;> rw [hs] <;> rfl) rfl rfl rfl rfl rfl
  plenFits := h.plenFits
  session _ := (h.session (by rcases hs with hs | hs <;> simp [hs])).congr
  phase := by
    rw [State.phaseOk_capturing rfl]
    rcases hs with hs | hs
    · obtain ⟨-, -, -, htrig, herr⟩ := (State.phaseOk_armed hs).1 h.phase
      exact ⟨htrig, herr⟩
    · exact (State.phaseOk_capturing hs).1 h.phase

/-- The invariant says nothing of the working registers (R40). -/
theorem State.Inv.withSeq {s : State} (h : s.Inv) (q : Sequencer) : { s with seq := q }.Inv where
  consistent := h.consistent.congr rfl rfl rfl rfl
  plenFits := h.plenFits
  session hi := (h.session hi).congr
  phase := h.phase

/-- In `Capturing` the stage chain may move along the walk to a capture stage. -/
theorem State.Inv.withChain {s : State} (h : s.Inv) (hs : s.ctl.state = .capturing) {c : Chain}
    (hc : State.ChainOk { s with chain := c }) : { s with chain := c }.Inv where
  consistent := h.consistent.congr rfl rfl rfl rfl
  plenFits := h.plenFits
  session _ := by
    obtain ⟨programs, -, buffer⟩ := State.sessionOk_iff.1 (h.session (by simp [hs]))
    exact State.sessionOk_iff.2 ⟨programs.congr rfl rfl rfl rfl, hc, buffer.congr rfl rfl rfl rfl rfl⟩
  phase := (State.phaseOk_capturing (s := { s with chain := c }) hs).2 ((State.phaseOk_capturing hs).1 h.phase)

/-- The chain's step in `Capturing` keeps the invariant. -/
theorem State.Inv.chainDecide {s : State} (h : s.Inv) (hs : s.ctl.state = .capturing) : s.chainDecide.1.Inv := by
  obtain ⟨-, chain, -⟩ := State.sessionOk_iff.1 (h.session (by simp [hs]))
  have hchain := chain.chainDecide
  rw [State.chainDecide_frame] at hchain ⊢
  exact h.withChain hs hchain

/-- The trigger: the countdown starts at `effPost`, and before the buffer has wrapped the trigger slot is `FILL` (R197). -/
theorem State.Inv.fire {s : State} (h : s.Inv) (hs : s.ctl.state = .capturing) : s.fire.Inv where
  consistent := h.consistent.moveTo (q := .postTrigger) (by rw [hs]; rfl) rfl rfl rfl rfl rfl
  plenFits := h.plenFits
  session _ := (h.session (by simp [hs])).congr
  phase := by
    obtain ⟨-, herr⟩ := (State.phaseOk_capturing hs).1 h.phase
    have o := h.session (by simp [hs])
    have hcount : (BitVec.ofNat 32 s.effPost).toNat = s.effPost := by
      rw [BitVec.toNat_ofNat, Nat.mod_eq_of_lt s.effPost_lt]
    rw [State.phaseOk_postTrigger rfl, State.effPost_congr (s := s) (t := s.fire) rfl rfl,
      State.cap_congr (s := s) (t := s.fire) rfl rfl, State.fire_ring]
    simp only [hcount]
    exact ⟨trivial, o.cursor, herr, o.effPost_bounds.1, le_rfl, Nat.le_add_left _ _,
      fun hlt => by rw [o.unwrapped hlt]⟩

/-- A sample write hands on the clause of its state, and the last sample to come brings that of `Captured` (R198). -/
theorem State.PhaseOk.storeSample {s : State} (v : Word) (h : s.PhaseOk) (o : s.SessionOk)
    (hs : s.ctl.state = .capturing ∨ s.ctl.state = .postTrigger) : (s.writeSample v).countDown.PhaseOk := by
  have hcap : (s.writeSample v).countDown.cap = s.cap := State.cap_congr (by simp) (by simp)
  have heff : (s.writeSample v).countDown.effPost = s.effPost := State.effPost_congr (by simp) (by simp)
  have hbound := o.effPost_bounds
  have hfill := o.filled
  rcases hs with hs | hs
  · rw [State.countDown_other _ (by simp [hs]), State.phaseOk_capturing (by simpa using hs)]
    simpa using (State.phaseOk_capturing hs).1 h
  · obtain ⟨htrigv, htrig, herr, hpos, hle, henough, hexact⟩ := (State.phaseOk_postTrigger hs).1 h
    by_cases hmore : 1 < s.ring.countdown.toNat
    · have hdec : (s.ring.countdown - 1).toNat = s.ring.countdown.toNat - 1 := by bv_omega
      have e := (s.writeSample v).countDown_more (by simpa using hs) (by simpa using hmore)
      rw [State.phaseOk_postTrigger (by rw [e]; simpa using hs), hcap, heff, e]
      simp only [State.writeSample_ring, State.writeSample_ctl, hdec]
      exact ⟨htrigv, htrig, herr, by omega, by omega, by omega, by omega⟩
    · have e := (s.writeSample v).countDown_last (by simpa using hs) (by simp; omega)
      rw [State.phaseOk_captured (by rw [e]), hcap, heff, e]
      simp only [State.writeSample_ring, State.writeSample_ctl]
      exact ⟨htrigv, htrig, herr, by omega, by omega⟩

/-- A sample write and the countdown after it keep the invariant. -/
theorem State.Inv.storeSample {s t : State} {p : Word} (h : s.Inv)
    (hs : s.ctl.state = .capturing ∨ s.ctl.state = .postTrigger) (ht : storeSample p s = .next t) : t.Inv := by
  have hcons := h.consistent.storeSample ht
  have o := h.session (by rcases hs with hs | hs <;> simp [hs])
  obtain ⟨-, rfl⟩ := storeSample_eq_next.1 ht
  exact
    { consistent := hcons
      plenFits := fun k => by simpa using h.plenFits k
      session := fun _ => (o.writeSample (pack s.cfg.groups p)).congr
      phase := State.PhaseOk.storeSample _ h.phase o hs }

/-- A tick keeps the invariant: the program of the active stage does not stall, so the tick stores its sample. -/
theorem State.Inv.tick {s t : State} {p : Word} (h : s.Inv) (ht : tick p s = .next t) : t.Inv := by
  by_cases hk : s.sampling = true
  · by_cases hs : s.ctl.state = .postTrigger
    · exact h.storeSample (.inr hs) ((tick_postTrigger p hk hs).symm.trans ht)
    · have hbefore : s.ctl.state = .armed ∨ s.ctl.state = .capturing := by
        obtain ⟨-, ha | hc | hp⟩ := s.sampling_iff.1 hk
        · exact .inl ha
        · exact .inr hc
        · exact absurd hp hs
      have hentered := h.enterCapturing hbefore
      have o := hentered.session (by simp)
      obtain ⟨u, q, heval, rfl, -, hcase⟩ := captureTick_cases hk hs ht
      obtain ⟨q', heval', hresult⟩ := (o.loaded _ o.stage).evalStage hentered.consistent.legal p
      obtain rfl : q = q' := congrArg State.seq (Host.Outcome.next.inj (heval.symm.trans heval'))
      have hu := hentered.withSeq q
      rcases hcase with ⟨hstall, -⟩ | ⟨-, -, hstore⟩ | ⟨-, hstore⟩
      · obtain ⟨hmatched, hnoMatch⟩ := (State.chainDecide_stall _).1 hstall
        exact absurd hresult (not_or.2 ⟨hmatched, hnoMatch⟩)
      · exact (hu.fire rfl).storeSample (.inr rfl) hstore
      · exact (hu.chainDecide rfl).storeSample (.inl (by rw [State.chainDecide_frame]; rfl)) hstore
  · obtain rfl : s = t := Host.Outcome.next.inj ((tick_discarded p hk).symm.trans ht)
    exact h

/-! ### The readback (R176 to R178, R201, R202) -/

@[simp] theorem State.openWindow_wr (s : State) : s.openWindow.ring.wr = s.ring.wr := rfl
@[simp] theorem State.openWindow_fill (s : State) : s.openWindow.ring.fill = s.ring.fill := rfl
@[simp] theorem State.openWindow_trigv (s : State) : s.openWindow.ring.trigv = s.ring.trigv := rfl

/-- The window of R176 lies within what has been written, and before the buffer has wrapped it ends at `FILL`. -/
theorem State.openWindow_bounds {s : State} (o : s.SessionOk) (htrig : s.ring.trig < s.cap)
    (hfill : s.effPost ≤ s.ring.fill) (hexact : s.ring.fill < s.cap → s.ring.trig + s.effPost = s.ring.fill) :
    1 ≤ s.openWindow.ring.remain ∧ s.openWindow.ring.remain ≤ s.ring.fill ∧ s.openWindow.ring.rd < s.cap ∧
      (s.ring.fill < s.cap → s.openWindow.ring.rd + s.openWindow.ring.remain = s.ring.fill) := by
  have hpos := o.effPost_bounds.1
  have hd : s.historyCount ≤ s.ring.fill - s.effPost := by
    rw [State.historyCount, minus_of_le hfill]; exact Nat.min_le_right _ _
  have hcap : (0 : Int) < s.cap := by omega
  have hnonneg := Int.emod_nonneg ((s.ring.trig : Int) - s.historyCount) hcap.ne'
  have hlt := Int.emod_lt_of_pos ((s.ring.trig : Int) - s.historyCount) hcap
  simp only [State.openWindow]
  refine ⟨by omega, by omega, by omega, fun hf => ?_⟩
  have htf := hexact hf
  rw [Int.emod_eq_of_lt (by omega) (by omega)]
  omega

/-- `BeginRead` keeps the invariant: the error is InsufficientHistory exactly when the window is short (R177). -/
theorem State.Inv.beginRead {s t : State} (h : s.Inv) (ht : beginRead s = .next t) : t.Inv := by
  have hcons := h.consistent.beginRead ht
  rcases beginRead_cases ht with rfl | ⟨hs, -, rfl⟩
  · exact h
  · have o := h.session (by simp [hs])
    obtain ⟨htrigv, htrig, herr, hfill, hexact⟩ := (State.phaseOk_captured hs).1 h.phase
    refine ⟨hcons, fun k => by simpa using h.plenFits k, fun _ => o.congr, ?_⟩
    rw [State.phaseOk_streaming rfl, State.cap_congr (s := s) (by simp) (by simp)]
    have hwindow := State.openWindow_bounds o htrig hfill hexact
    refine ⟨by simpa using htrigv, ?_, by simpa using hwindow⟩
    rw [State.respond_ctl, State.setCtl_ctl, State.flagTruncation_eq]
    split
    · simp
    · simp [herr]

/-- `ReadNext` keeps the invariant: the window shrinks by the sample it returns, and its end is the end of the session. -/
theorem State.Inv.readNext {s t : State} (h : s.Inv) (ht : readNext s = .next t) : t.Inv := by
  rcases readNext_cases ht with rfl | ⟨hs, hrd, r, rfl⟩
  · exact h
  · obtain ⟨htrigv, herr, hremain, hle, -, hexact⟩ := (State.phaseOk_streaming hs).1 h.phase
    have hdec : s.stepCursor.ring.remain = s.ring.remain - 1 := minus_of_le hremain
    split
    next => exact h.resetRegisters.withPorts _
    next hmore =>
      refine State.Inv.withPorts (s := s.stepCursor)
        ⟨h.consistent.congr rfl rfl rfl rfl, h.plenFits, fun _ => (h.session (by simp [hs])).congr, ?_⟩ _
      rw [State.phaseOk_streaming (s := s.stepCursor) hs, State.cap_congr (s := s) (t := s.stepCursor) rfl rfl, hdec]
      rw [hdec] at hmore
      refine ⟨htrigv, herr, by omega, by simp; omega, Nat.mod_lt _ (by omega), fun hf => ?_⟩
      have hend := hexact hf
      simp only [State.stepCursor_ring] at hf ⊢
      rw [Nat.mod_eq_of_lt (by omega)]
      omega

/-! ### The step -/

/-- Whatever the input, its rule keeps the invariant. -/
theorem State.Inv.receive {i : Input} {s t : State} (h : s.Inv) (ht : receive i s = .next t) : t.Inv := by
  cases i with
  | tick p => exact h.tick ht
  | frame bytes => exact h.command ht
  | beginRead => exact h.beginRead ht
  | readNext => exact h.readNext ht
  | powerOn => cases ht; exact h.resetRegisters

/-- Settles O53: the invariant survives taking the input, and the rule of each input keeps it. -/
theorem everyStepKeepsTheInvariant : Obligations.EveryStepKeepsTheInvariant := by
  unfold Obligations.EveryStepKeepsTheInvariant
  intro s t h ht
  rcases step_cases ht with ⟨-, rfl⟩ | ⟨i, rest, -, hr⟩
  · exact h.withPorts _
  · exact State.Inv.receive (s := s.takeInput) (h.withPorts _) hr

end Sys2Proof.Machine
end

section
/-! SUPPORT. O44 and O2: the packed sample and the command frames, each read back field by field. -/

/-! ### The place of a group in the packed sample (R65) -/

namespace Sys2Proof.Machine

/-- The numbers of the enabled groups, lowest first. -/
def enabledGroups (groups : BitVec 4) : List Nat := [0, 1, 2, 3].filter groups.getLsbD

/-- The nibbles of the packed sample are those of the enabled groups, in the order of the groups. -/
theorem enabledNibbles_eq_map (groups : BitVec 4) (p : Word) :
    enabledNibbles groups p = (enabledGroups groups).map fun k => p.extractLsb' (4 * k) 4 := by
  rw [enabledGroups, ← List.filterMap_eq_filter, List.map_filterMap, enabledNibbles]
  congr 1
  funext k
  by_cases hk : groups.getLsbD k <;> simp [hk, Option.guard]

/-- An enabled group comes after as many groups as are enabled below it. -/
theorem enabledGroups_getElem? : ∀ (groups : BitVec 4) (k : Fin 4), groups.getLsbD k = true →
    (enabledGroups groups)[popcount4 (groups &&& BitVec.ofNat 4 (2 ^ k.val - 1))]? = some k.val := by decide

/-- So its nibble stands in that place among the enabled ones. -/
theorem enabledNibbles_getElem? {groups : BitVec 4} (p : Word) {k : Nat} (hk : k < 4) (he : groups.getLsbD k = true) :
    (enabledNibbles groups p)[popcount4 (groups &&& BitVec.ofNat 4 (2 ^ k - 1))]? = some (p.extractLsb' (4 * k) 4) := by
  rw [enabledNibbles_eq_map, List.getElem?_map, enabledGroups_getElem? groups ⟨k, hk⟩ he, Option.map_some]

/-- Settles O44: the nibbles of the enabled groups stand in the packed sample in their order, and there are no others. -/
theorem packPutsEnabledGroupsInOrder : Obligations.PackPutsEnabledGroupsInOrder := by
  unfold Obligations.PackPutsEnabledGroupsInOrder
  refine ⟨fun groups p k hk he => ?_, pack_lt, by decide, by decide, by decide, by decide⟩
  have hlen : (enabledNibbles groups p).length ≤ 4 := (enabledNibbles_length groups p).trans_le (popcount4_le groups)
  exact joinNibbles_extract _ _ _ hlen (enabledNibbles_getElem? p hk he)

end Sys2Proof.Machine

namespace Sys2Proof

/-! ### A field between other fields -/

/-- Above a low part of c bits a field is read as it stands without that part. -/
theorem extractLsb'_append_add {a c : Nat} (x : BitVec a) (lo : BitVec c) (j n : Nat) :
    (x ++ lo).extractLsb' (c + j) n = x.extractLsb' j n := by
  rw [BitVec.extractLsb'_append_eq_of_le (Nat.le_add_right c j), Nat.add_sub_cancel_left]

theorem getLsbD_append_add {a c : Nat} (x : BitVec a) (lo : BitVec c) (j : Nat) :
    (x ++ lo).getLsbD (c + j) = x.getLsbD j := by
  rw [BitVec.getLsbD_append, if_neg (Nat.not_lt.2 (Nat.le_add_right c j)), Nat.add_sub_cancel_left]

/-- A field comes back whatever stands above and below it. -/
theorem extractLsb'_middle {a b c : Nat} (hi : BitVec a) (x : BitVec b) (lo : BitVec c) :
    (hi ++ x ++ lo).extractLsb' c b = x :=
  (extractLsb'_append_add (hi ++ x) lo 0 b).trans BitVec.extractLsb'_append_eq_right

/-- A one-bit field in the lowest place comes back, -/
theorem getLsbD_lowest {a : Nat} (hi : BitVec a) (b : Bool) : (hi ++ BitVec.ofBool b).getLsbD 0 = b := by
  rw [BitVec.getLsbD_append, if_pos Nat.one_pos, BitVec.getLsbD_ofBool]
  simp

/-- and so it does between other fields. -/
theorem getLsbD_middle {a c : Nat} (hi : BitVec a) (b : Bool) (lo : BitVec c) :
    (hi ++ BitVec.ofBool b ++ lo).getLsbD c = b :=
  (getLsbD_append_add (hi ++ BitVec.ofBool b) lo 0).trans (getLsbD_lowest hi b)

/-! ### The fields of a command's parameter (R92) -/

/-- A count that fits its 16-bit field comes back from it. -/
theorem setWidth_extractLsb'_of_lt {x : BitVec 32} (h : x.toNat < 65536) : (x.extractLsb' 0 16).setWidth 32 = x := by
  apply BitVec.eq_of_toNat_eq
  rw [BitVec.toNat_setWidth, BitVec.extractLsb'_toNat, Nat.shiftRight_zero]
  omega

/-- The stage index stands in `P[17:16]`. -/
theorem stageField_append (hi : BitVec 14) (i : StageIx) (lo : Word) : stageField (hi ++ stageBits i ++ lo) = i :=
  congrArg BitVec.toFin (extractLsb'_middle hi (stageBits i) lo)

/-- Above `DELAY` and the two stage indices the bits of `SetTriggerConfig` begin at `P[20]`. -/
theorem getLsbD_above_stages {a : Nat} (flags : BitVec a) (next stage : BitVec 2) (delay : Word) (j : Nat) :
    (flags ++ next ++ stage ++ delay).getLsbD (20 + j) = flags.getLsbD j := by
  rw [show 20 + j = 16 + (2 + (2 + j)) by omega]
  simp only [getLsbD_append_add]

/-- The mode bit is 1 for `Serial`. -/
theorem modeBit_eq_ofBool (m : TriggerMode) : modeBit m = BitVec.ofBool (m = .serial) := by
  cases m <;> rfl

/-- The parameter of `SetTriggerConfig` carries all its fields beside the stage index. -/
theorem stageFields_append (hi : BitVec 9) (i : StageIx) (f : StageFields) :
    stageFields (hi ++ modeBit f.mode ++ BitVec.ofBool f.starts ++ BitVec.ofBool f.nextv ++ stageBits f.next ++
      stageBits i ++ f.delay) = f := by
  obtain ⟨delay, next, nextv, starts, mode⟩ := f
  have habove := getLsbD_above_stages (hi ++ BitVec.ofBool (mode = .serial) ++ BitVec.ofBool starts ++
    BitVec.ofBool nextv) (stageBits next) (stageBits i) delay
  rw [modeBit_eq_ofBool, stageFields, StageFields.mk.injEq]
  refine ⟨BitVec.extractLsb'_append_eq_right, congrArg BitVec.toFin ?_, ?_, ?_, ?_⟩
  · exact (extractLsb'_append_add _ delay 2 2).trans (extractLsb'_middle _ (stageBits next) _)
  · exact (habove 0).trans (getLsbD_lowest _ nextv)
  · exact (habove 1).trans (getLsbD_middle _ starts _)
  · rw [(habove 2).trans ((getLsbD_append_add _ _ 1).trans (getLsbD_middle hi _ _))]
    cases mode <;> rfl

/-! ### Frames (R90, R91) -/

/-- Settles O2: the opcode of each frame selects its command, and the fields of the parameter come back from it. -/
theorem commandDecodesFromItsFrame : Obligations.CommandDecodesFromItsFrame := by
  unfold Obligations.CommandDecodesFromItsFrame
  intro P i hP hm hw
  obtain ⟨hreset, hrun, hidentify, hmetadata⟩ := decodeC1_opcodes hP
  have hc5 := decodeC5_opcodes hP
  rw [encode, if_neg (by simp [hm])]
  cases i with
  | skip | matchSingleBit | matchRun => simp [Instr.isMicro] at hm
  | reset => exact (decodeFrame_c1 hP (by simp [OpcodeTable.c1])).trans hreset
  | run => exact (decodeFrame_c1 hP (by simp [OpcodeTable.c1])).trans hrun
  | identify => exact (decodeFrame_c1 hP (by simp [OpcodeTable.c1])).trans hidentify
  | queryMetadata => exact (decodeFrame_c1 hP (by simp [OpcodeTable.c1])).trans hmetadata
  | setClockDivisor d =>
    obtain ⟨hdivisor, -⟩ := hc5 d
    exact (decodeFrame_frameC5 hP (by simp [OpcodeTable.c5]) _).trans hdivisor
  | setSampleCounts total post =>
    simp only [Instr.wf, Bool.and_eq_true, decide_eq_true_eq] at hw
    obtain ⟨htotal, hpost⟩ := hw
    obtain ⟨-, hcounts, -⟩ := hc5 (post.extractLsb' 0 16 ++ total.extractLsb' 0 16)
    rw [encodeFrame, decodeFrame_frameC5 hP (by simp [OpcodeTable.c5]), hcounts,
      BitVec.extractLsb'_append_eq_right, BitVec.extractLsb'_append_eq_left,
      setWidth_extractLsb'_of_lt htotal, setWidth_extractLsb'_of_lt hpost]
  | setFlags groups rle =>
    obtain ⟨-, -, hflags, -⟩ := hc5 (0#27 ++ BitVec.ofBool rle ++ groups)
    have hgroups : (0#27 ++ BitVec.ofBool rle ++ groups).extractLsb' 0 4 = groups := BitVec.extractLsb'_append_eq_right
    have hrle : (0#27 ++ BitVec.ofBool rle ++ groups).getLsbD 4 = rle := getLsbD_middle _ rle _
    rw [encodeFrame, decodeFrame_frameC5 hP (by simp [OpcodeTable.c5]), hflags, hgroups, hrle]
  | setTriggerMask i mask =>
    obtain ⟨-, -, -, hmask, -⟩ := hc5 (0#14 ++ stageBits i ++ mask)
    rw [encodeFrame, decodeFrame_frameC5 hP (by simp [OpcodeTable.c5]), hmask, stageField_append,
      BitVec.extractLsb'_append_eq_right]
  | setTriggerValue i value =>
    obtain ⟨-, -, -, -, hvalue, -⟩ := hc5 (0#14 ++ stageBits i ++ value)
    rw [encodeFrame, decodeFrame_frameC5 hP (by simp [OpcodeTable.c5]), hvalue, stageField_append,
      BitVec.extractLsb'_append_eq_right]
  | setTriggerConfig i f =>
    obtain ⟨-, -, -, -, -, hconfig⟩ := hc5 (0#9 ++ modeBit f.mode ++ BitVec.ofBool f.starts ++ BitVec.ofBool f.nextv ++
      stageBits f.next ++ stageBits i ++ f.delay)
    rw [encodeFrame, decodeFrame_frameC5 hP (by simp [OpcodeTable.c5]), hconfig, stageFields_append, stageField_append]

end Sys2Proof
end

section
/-! SUPPORT. O9 and O57: the round of the evaluation loop, and who writes the memories. -/

namespace Sys2Proof.Machine

/-! ### One round of the evaluation loop (R110) -/

/-- Before the end of the program, a round of the loop runs the instruction it fetches. -/
theorem evalLoop_of_fetch {k : StageIx} (fuel : Nat) {s : State} {i : Instr} (hmore : s.seq.upc < s.plen.get k)
    (hfetch : s.fetchMicro k = .ok (some i)) :
    evalLoop k (fuel + 1) s = andThen (exec i s) fun t => if t.seq.result = none then evalLoop k fuel t else .next t := by
  rw [evalLoop, if_neg (Nat.not_le.2 hmore), hfetch]

/-- A micro-operation has a first slot. -/
theorem encodeSlots_first {i : Instr} (hm : i.isMicro = true) : ∃ b, (encodeSlots i)[0]? = some b :=
  ⟨_, List.getElem?_eq_getElem (by rw [encodeSlots_length]; exact opCost_pos hm)⟩

/-- Settles O9: the first slot of the encoding lies within the program, and the fetch reads the encoding back. -/
theorem evaluationRunsTheFetchedInstruction : Obligations.EvaluationRunsTheFetchedInstruction := by
  unfold Obligations.EvaluationRunsTheFetchedInstruction
  intro k fuel s i hm hw slots
  rw [encode, if_pos hm] at slots
  obtain ⟨b, hb⟩ := encodeSlots_first hm
  obtain ⟨hmore, -⟩ := slots 0 b hb
  exact evalLoop_of_fetch fuel hmore (State.fetchMicro_encoded hm hw slots)

/-! ### What can happen to the memories (R61, R62, R74, R282) -/

/-- The memories, the lengths of the programs and the free values of unwritten cells are as they were. -/
structure State.SameMemories (s t : State) : Prop where
  buf : t.buf = s.buf
  imem : t.imem = s.imem
  plen : t.plen = s.plen
  epoch : t.epoch = s.epoch

/-- The sample store is as it was outside the slot at `WR`, and the instruction memories are as they were. -/
structure State.WritesSlot (s t : State) : Prop where
  imem : t.imem = s.imem
  plen : t.plen = s.plen
  epoch : t.epoch = s.epoch
  outside : ∀ q, q < s.ring.wr * s.groupCount ∨ s.ring.wr * s.groupCount + s.groupCount ≤ q → t.nibble q = s.nibble q

/-- A `Run` has armed: only the banks of configured stages have been written. -/
structure State.Arms (s t : State) : Prop where
  armed : t.ctl.state = .armed
  buf : t.buf = s.buf
  epoch : t.epoch = s.epoch
  unconfigured : ∀ i : StageIx, s.stageCount ≤ i.val → t.imem.get i = s.imem.get i ∧ t.plen.get i = s.plen.get i

/-- Both memories have become unspecified as a whole. -/
structure State.Erases (s t : State) : Prop where
  buf : t.buf = []
  imem : t.imem = Four.all []
  plen : t.plen = Four.all 0
  epoch : t.epoch = s.epoch + 1

theorem State.SameMemories.refl (s : State) : s.SameMemories s := ⟨rfl, rfl, rfl, rfl⟩

/-- What comes after a change outside the memories may be said of the state before it. -/
theorem State.WritesSlot.of_same {s u t : State} (h : u.WritesSlot t) (same : s.SameMemories u)
    (hwr : u.ring.wr = s.ring.wr) (hcfg : u.cfg = s.cfg) : s.WritesSlot t where
  imem := h.imem.trans same.imem
  plen := h.plen.trans same.plen
  epoch := h.epoch.trans same.epoch
  outside q hq := by
    rw [← hwr, ← State.groupCount_congr hcfg] at hq
    exact (h.outside q hq).trans (State.nibble_congr same.buf same.epoch q)

/-- A sample write puts its nibbles into the cells of its slot (R62, R64). -/
theorem State.nibble_putSample_outside (s : State) {slot : Nat} (v : Word) {q : Nat}
    (h : q < slot * s.groupCount ∨ slot * s.groupCount + s.groupCount ≤ q) : (s.putSample slot v).nibble q = s.nibble q := by
  simp only [State.nibble, State.putSample_buf, State.putSample_epoch]
  rw [Memory.read?_writeList_outside _ _ _ _ (by rwa [splitNibbles_length])]

/-! ### The memories, rule by rule -/

/-- The tick's write reaches the slot at `WR` alone (R62). -/
theorem storeSample_writesSlot {s t : State} {p : Word} (ht : storeSample p s = .next t) : s.WritesSlot t := by
  obtain ⟨-, himem, hplen, -, hepoch, -⟩ := storeSample_frame ht
  obtain ⟨-, rfl⟩ := storeSample_eq_next.1 ht
  refine ⟨himem, hplen, hepoch, fun q hq => ?_⟩
  rw [State.nibble_congr (s := s.putSample s.ring.wr (pack s.cfg.groups p)) (by simp) (by simp)]
  exact s.nibble_putSample_outside _ hq

/-- A tick leaves the memories alone, or it samples and writes one slot (R196, R205). -/
theorem tick_memories {s t : State} {p : Word} (ht : tick p s = .next t) :
    s.SameMemories t ∨ s.sampling = true ∧ s.WritesSlot t := by
  by_cases hk : s.sampling = true
  · by_cases hs : s.ctl.state = .postTrigger
    · exact .inr ⟨hk, storeSample_writesSlot ((tick_postTrigger p hk hs).symm.trans ht)⟩
    · obtain ⟨u, q, -, rfl, -, ⟨-, rfl⟩ | ⟨-, -, hstore⟩ | ⟨-, hstore⟩⟩ := captureTick_cases hk hs ht
      · left
        rw [State.chainDecide_frame]
        constructor <;> simp
      · exact .inr ⟨hk, (storeSample_writesSlot hstore).of_same ⟨rfl, rfl, rfl, rfl⟩ rfl rfl⟩
      · rw [State.chainDecide_frame] at hstore
        exact .inr ⟨hk, (storeSample_writesSlot hstore).of_same ⟨rfl, rfl, rfl, rfl⟩ rfl rfl⟩
  · obtain rfl : s = t := Host.Outcome.next.inj ((tick_discarded p hk).symm.trans ht)
    exact .inl (.refl s)

/-- A bank whose stage is not configured is not loaded (R194). -/
theorem State.loadStages_unconfigured (s : State) {is : List StageIx} (hn : is.Nodup) {i : StageIx}
    (hi : s.stageCount ≤ i.val) :
    (s.loadStages is).imem.get i = s.imem.get i ∧ (s.loadStages is).plen.get i = s.plen.get i := by
  have hnot : ¬ (i ∈ is ∧ i.val < s.stageCount) := fun h => Nat.not_lt.2 hi h.2
  obtain ⟨himem, hplen⟩ := State.loadStages_get is s i hn
  exact ⟨himem.trans (if_neg hnot), hplen.trans (if_neg hnot)⟩

/-- `Run` in `Idle` leaves the memories alone when it is refused, and else loads the configured stages (R192 to R194). -/
theorem State.runSession_memories (s : State) : s.SameMemories s.runSession ∨ s.Arms s.runSession := by
  obtain ⟨-, -, -, hbuf, hepoch⟩ := s.runSession_frame
  rcases s.runSession_cases with ⟨-, e⟩ | ⟨-, -, e⟩ | ⟨-, -, e⟩
  · left; rw [e]; constructor <;> simp
  · left; rw [e]; constructor <;> simp
  · refine .inr ⟨by rw [e]; rfl, hbuf, hepoch, fun i hi => ?_⟩
    rw [e]; exact s.loadStages_unconfigured (by decide) hi

theorem State.erases_resetRegisters (s : State) : s.Erases s.resetRegisters := ⟨rfl, rfl, rfl, rfl⟩

/-- A frame leaves the memories alone, or is a `Run` that arms, or a `Reset` that discards the session. -/
theorem command_memories {s t : State} {bytes : List Byte} (ht : command bytes s = .next t) :
    s.SameMemories t ∨ (decodeFrame s.params bytes = .ok .run ∧ s.ctl.state = .idle ∧ s.Arms t) ∨
      (decodeFrame s.params bytes = .ok .reset ∧ s.ctl.state ≠ .fault ∧ s.Erases t) := by
  rcases command_cases ht with rfl | ⟨hd, hs, rfl⟩ | ⟨hd, hs, rfl⟩ | ⟨-, c, rfl⟩
  · exact .inl (.refl t)
  · exact .inr (.inr ⟨hd, hs, s.erases_resetRegisters⟩)
  · exact s.runSession_memories.imp_right fun h => .inl ⟨hd, hs, h⟩
  · exact .inl ⟨rfl, rfl, rfl, rfl⟩

/-- `BeginRead` leaves the memories alone (R201). -/
theorem beginRead_memories {s t : State} (ht : beginRead s = .next t) : s.SameMemories t := by
  rcases beginRead_cases ht with rfl | ⟨-, -, rfl⟩
  · exact .refl t
  · constructor <;> simp

/-- `ReadNext` leaves the memories alone, or ends the session in `Streaming` (R202). -/
theorem readNext_memories {s t : State} (ht : readNext s = .next t) :
    s.SameMemories t ∨ s.ctl.state = .streaming ∧ s.Erases t := by
  rcases readNext_cases ht with rfl | ⟨hs, -, r, rfl⟩
  · exact .inl (.refl t)
  · split
    · exact .inr ⟨hs, rfl, rfl, rfl, rfl⟩
    · exact .inl ⟨rfl, rfl, rfl, rfl⟩

/-- The ways the memories can go when the rule of an input is run: each change belongs to one input. -/
inductive State.MemoryWriter (s t : State) : Input → Prop where
  | none {i : Input} (same : s.SameMemories t) : s.MemoryWriter t i
  | tick {p : Word} (sampled : s.sampling = true) (slot : s.WritesSlot t) : s.MemoryWriter t (.tick p)
  | run {bytes : List Byte} (decodes : decodeFrame s.params bytes = .ok .run) (idle : s.ctl.state = .idle)
      (arms : s.Arms t) : s.MemoryWriter t (.frame bytes)
  | reset {bytes : List Byte} (decodes : decodeFrame s.params bytes = .ok .reset) (sound : s.ctl.state ≠ .fault)
      (erased : s.Erases t) : s.MemoryWriter t (.frame bytes)
  | readNext (streaming : s.ctl.state = .streaming) (erased : s.Erases t) : s.MemoryWriter t .readNext
  | powerOn (erased : s.Erases t) : s.MemoryWriter t .powerOn

/-- Whatever the input, its rule is one of the writers. -/
theorem receive_memoryWriter {i : Input} {s t : State} (ht : receive i s = .next t) : s.MemoryWriter t i := by
  cases i with
  | tick p => exact (tick_memories ht).elim .none fun ⟨hk, h⟩ => .tick hk h
  | frame bytes =>
    rcases command_memories ht with h | ⟨hd, hs, h⟩ | ⟨hd, hs, h⟩
    · exact .none h
    · exact .run hd hs h
    · exact .reset hd hs h
  | beginRead => exact .none (beginRead_memories ht)
  | readNext => exact (readNext_memories ht).elim .none fun ⟨hs, h⟩ => .readNext hs h
  | powerOn => cases ht; exact .powerOn s.erases_resetRegisters

/-- Settles O57: taking the input leaves the memories alone, and the rule of the input writes them in one of the ways
named. -/
theorem memoriesHaveOneWriterEach : Obligations.MemoriesHaveOneWriterEach := by
  unfold Obligations.MemoriesHaveOneWriterEach
  intro s t ht
  rcases step_cases ht with ⟨-, rfl⟩ | ⟨i, rest, hin, hrec⟩
  · exact .inl ⟨rfl, rfl, rfl, rfl⟩
  · cases receive_memoryWriter (s := s.takeInput) hrec with
    | none same => exact .inl ⟨same.buf, same.imem, same.plen, same.epoch⟩
    | tick sampled slot => exact .inr (.inl ⟨_, rest, hin, sampled, slot.imem, slot.plen, slot.epoch, slot.outside⟩)
    | run decodes idle arms =>
      exact .inr (.inr (.inl ⟨_, rest, hin, decodes, idle, arms.armed, arms.buf, arms.epoch, arms.unconfigured⟩))
    | reset decodes sound erased =>
      exact .inr (.inr (.inr ⟨rest, .inr (.inr ⟨_, hin, decodes, sound⟩), erased.buf, erased.imem, erased.plen,
        erased.epoch⟩))
    | readNext streaming erased =>
      exact .inr (.inr (.inr ⟨rest, .inr (.inl ⟨hin, streaming⟩), erased.buf, erased.imem, erased.plen, erased.epoch⟩))
    | powerOn erased =>
      exact .inr (.inr (.inr ⟨rest, .inl hin, erased.buf, erased.imem, erased.plen, erased.epoch⟩))

end Sys2Proof.Machine
end

section
/-! SUPPORT. O1, O3, O4, O16 and O5: the slots that decode are exactly the encodings of expressible micro-operations,
and a compiled program is what its scan says. -/

/-! ### The two directions of the slot decoder (R81 to R87) -/

namespace Sys2Proof

open Sys2Proof.Machine

/-- In its own space a micro-operation is its slots. -/
theorem encode_of_isMicro (P : Params) {i : Instr} (hm : i.isMicro = true) : encode P i = encodeSlots i := if_pos hm

/-- Slots decode when their first instruction does; its first slot tells what is left (R87). -/
theorem decodeSlots_eq_ok_iff {P : Params} {bs rest : List Byte} {i : Instr} :
    decodeSlots P bs = .ok (i, rest) ↔
      ∃ b0 tail, bs = b0 :: tail ∧ decodeMicro P b0 tail.head? = .ok i ∧ tail.drop (slotCount b0 - 1) = rest := by
  cases bs with
  | nil => simp [decodeSlots]
  | cons b0 tail => cases hd : decodeMicro P b0 tail.head? <;> simp [decodeSlots, hd]

/-- Settles O1: the one or two slots of the encoding decode to it, and `slotCount` drops exactly the second. -/
theorem microOpDecodesFromItsSlots : Obligations.MicroOpDecodesFromItsSlots := by
  unfold Obligations.MicroOpDecodesFromItsSlots
  intro P i rest hm hw
  rw [encode_of_isMicro P hm, decodeSlots_eq_ok_iff]
  rcases encodeSlots_decodes hm hw with ⟨b0, hslots, hcount, hd⟩ | ⟨b0, lit, hslots, hcount, hd⟩
  · exact ⟨b0, rest, by rw [hslots]; rfl, hd _, by rw [hcount]; rfl⟩
  · exact ⟨b0, lit :: rest, by rw [hslots]; rfl, hd, by rw [hcount]; rfl⟩

/-- A slot with `op` = `00` and no reserved bit is a `Skip` slot (R81). -/
theorem skipSlot_of_fields : ∀ b : Byte, opField b = 0b00#2 → b.extractLsb' 4 2 = 0#2 →
    0b0000#4 ++ b.extractLsb' 0 4 = b := by decide

/-- A slot with `op` = `01` and no reserved bit is a `MatchSingleBit` slot (R82). -/
theorem singleBitSlot_of_fields : ∀ b : Byte, opField b = 0b01#2 → b.extractLsb' 1 5 = 0#5 →
    0b0100000#7 ++ BitVec.ofBool (b.getLsbD 0) = b := by decide

/-- A slot with `op` = `10` and no reserved bit is the first slot of a `MatchRun` (R83). -/
theorem matchRunSlot_of_fields : ∀ b : Byte, opField b = 0b10#2 → b.extractLsb' 3 3 = 0#3 →
    0b10000#5 ++ b.extractLsb' 0 3 = b := by decide

/-- What `decodeSkip` reads from a slot with `op` = `00` is expressible, and the slot is its encoding. -/
theorem decodeSkip_ok (P : Params) {b0 : Byte} {i : Instr} (hop : opField b0 = 0b00#2) (h : decodeSkip b0 = .ok i) :
    i.wf P = true ∧ encodeSlots i = [b0] := by
  unfold decodeSkip at h
  split at h
  next hres =>
    cases h
    have hn := (b0.extractLsb' 0 4).isLt
    refine ⟨by simp only [Instr.wf, Bool.and_eq_true, decide_eq_true_eq]; omega, ?_⟩
    rw [encodeSlots, Nat.add_sub_cancel, BitVec.ofNat_toNat, BitVec.setWidth_eq, skipSlot_of_fields b0 hop hres]
  next => cases h

/-- The same for `decodeMatchSingleBit` and `op` = `01`. -/
theorem decodeMatchSingleBit_ok (P : Params) {b0 : Byte} {i : Instr} (hop : opField b0 = 0b01#2)
    (h : decodeMatchSingleBit b0 = .ok i) : i.wf P = true ∧ encodeSlots i = [b0] := by
  unfold decodeMatchSingleBit at h
  split at h
  next hres =>
    cases h
    exact ⟨rfl, by rw [encodeSlots, singleBitSlot_of_fields b0 hop hres]⟩
  next => cases h

/-- The same for `decodeMatchRun` and `op` = `10`, where the encoding is the slot and the literal after it. -/
theorem decodeMatchRun_ok {P : Params} {b0 : Byte} {b1 : Option Byte} {i : Instr} (hop : opField b0 = 0b10#2)
    (h : decodeMatchRun P b0 b1 = .ok i) : i.wf P = true ∧ ∃ lit, b1 = some lit ∧ encodeSlots i = [b0, lit] := by
  simp only [decodeMatchRun, ite_not] at h
  split at h
  next hres =>
    split at h
    next => cases h
    next hlmax =>
      cases b1 with
      | none => cases h
      | some lit =>
        simp only at h
        split at h
        next hhigh =>
          cases h
          have hlen := (b0.extractLsb' 0 3).isLt
          have hlit := (ushiftRight_eq_zero lit _).1 hhigh
          refine ⟨?_, lit, rfl, ?_⟩
          · simp only [Instr.wf, hlit, decide_true, Bool.and_true, Bool.and_eq_true, decide_eq_true_eq]
            omega
          · rw [encodeSlots, Nat.add_sub_cancel, BitVec.ofNat_toNat, BitVec.setWidth_eq,
              matchRunSlot_of_fields b0 hop hres]
        next => cases h
  next => cases h

/-- What a first slot and the slot after it decode to is expressible, and its encoding is the first slot or both,
as the first slot tells (R87). -/
theorem decodeMicro_ok {P : Params} {b0 : Byte} {b1 : Option Byte} {i : Instr} (h : decodeMicro P b0 b1 = .ok i) :
    i.wf P = true ∧ ((encodeSlots i = [b0] ∧ slotCount b0 = 1) ∨
      ∃ lit, b1 = some lit ∧ encodeSlots i = [b0, lit] ∧ slotCount b0 = 2) := by
  unfold decodeMicro at h
  split at h
  next hop =>
    obtain ⟨hw, hslots⟩ := decodeSkip_ok P hop h
    exact ⟨hw, .inl ⟨hslots, by rw [slotCount, hop]; rfl⟩⟩
  next =>
    split at h
    next hop =>
      obtain ⟨hw, hslots⟩ := decodeMatchSingleBit_ok P hop h
      exact ⟨hw, .inl ⟨hslots, by rw [slotCount, hop]; rfl⟩⟩
    next =>
      split at h
      next hop =>
        obtain ⟨hw, lit, hb1, hslots⟩ := decodeMatchRun_ok hop h
        exact ⟨hw, .inr ⟨lit, hb1, hslots, by rw [slotCount, hop]; rfl⟩⟩
      next => cases h

/-- Settles O3: the slots that the decoder takes off are the encoding of what it returns. -/
theorem decodedSlotsAreTheEncoding : Obligations.DecodedSlotsAreTheEncoding := by
  unfold Obligations.DecodedSlotsAreTheEncoding
  intro P bs rest i h
  obtain ⟨b0, tail, rfl, hd, rfl⟩ := decodeSlots_eq_ok_iff.1 h
  have hm : i.isMicro = true := decodeMicro_isMicro hd
  obtain ⟨hw, henc⟩ := decodeMicro_ok hd
  refine ⟨hm, hw, ?_⟩
  rw [encode_of_isMicro P hm]
  rcases henc with ⟨hslots, hcount⟩ | ⟨lit, hlit, hslots, hcount⟩
  · rw [hslots, hcount]; rfl
  · obtain ⟨tail, rfl⟩ := List.head?_eq_some_iff.1 hlit
    rw [hslots, hcount]; rfl

/-! ### The refused slots (R86) -/

/-- The decoder refuses exactly the slots that begin with no encoding, since it takes encodings and nothing else. -/
theorem decodeSlots_refuses_iff (P : Params) (bs : List Byte) :
    (∃ e, decodeSlots P bs = .error e) ↔
      ¬ ∃ i rest, i.isMicro = true ∧ i.wf P = true ∧ bs = encode P i ++ rest := by
  constructor
  · rintro ⟨e, he⟩ ⟨i, rest, hm, hw, rfl⟩
    rw [microOpDecodesFromItsSlots P i rest hm hw] at he
    cases he
  · intro hnone
    cases hd : decodeSlots P bs with
    | error e => exact ⟨e, rfl⟩
    | ok r => exact absurd ⟨r.1, r.2, decodedSlotsAreTheEncoding P bs r.2 r.1 hd⟩ hnone

/-- The value of a `Skip` slot, -/
theorem skipSlot_toNat : ∀ c : BitVec 4, (0b0000#4 ++ c).toNat = c.toNat := by decide

/-- of a `MatchSingleBit` slot, -/
theorem singleBitSlot_toNat : ∀ p : Bool, (0b0100000#7 ++ BitVec.ofBool p).toNat = 0x40 + p.toNat := by decide

/-- and of the first slot of a `MatchRun`. -/
theorem matchRunSlot_toNat : ∀ c : BitVec 3, (0b10000#5 ++ c).toNat = 0x80 + c.toNat := by decide

/-- The byte ranges of the slots that an expressible micro-operation begins, in the complement of R86's list. -/
theorem begins_with_encoding_iff (P : Params) (b0 : Byte) (rest : List Byte) :
    (∃ i tail, i.isMicro = true ∧ i.wf P = true ∧ b0 :: rest = encode P i ++ tail) ↔
      b0.toNat ≤ 0x0F ∨ (0x40 ≤ b0.toNat ∧ b0.toNat ≤ 0x41) ∨
        (0x80 ≤ b0.toNat ∧ b0.toNat ≤ 0x87 ∧ b0.toNat - 0x80 + 1 ≤ P.lmax ∧
          ∃ lit tail, rest = lit :: tail ∧ lit.toNat < 2 ^ (b0.toNat - 0x80 + 1)) := by
  constructor
  · rintro ⟨i, tail, hm, hw, hbs⟩
    rw [encode_of_isMicro P hm] at hbs
    cases i with
    | skip n =>
      obtain ⟨rfl, -⟩ := List.cons.inj hbs
      rw [skipSlot_toNat]
      exact .inl (Nat.le_of_lt_succ (BitVec.isLt _))
    | matchSingleBit p =>
      obtain ⟨rfl, -⟩ := List.cons.inj hbs
      have hp := p.toNat_le
      rw [singleBitSlot_toNat]
      omega
    | matchRun len lit =>
      obtain ⟨rfl, rfl⟩ := List.cons.inj hbs
      simp only [Instr.wf, Bool.and_eq_true, decide_eq_true_eq] at hw
      obtain ⟨⟨⟨h1, hlmax⟩, h8⟩, hlit⟩ := hw
      have hback : (BitVec.ofNat 3 (len - 1)).toNat + 1 = len := toNat_ofNat_pred_add_one h1 h8
      rw [matchRunSlot_toNat, Nat.add_sub_cancel_left, hback]
      exact .inr (.inr ⟨by omega, by omega, hlmax, lit, tail, rfl, hlit⟩)
    | _ => simp [Instr.isMicro] at hm
  · rintro (hskip | ⟨hlo, hhi⟩ | ⟨hlo, hhi, hlmax, lit, tail, rfl, hlit⟩)
    · have hb : b0 = 0b0000#4 ++ BitVec.ofNat 4 b0.toNat := by
        apply BitVec.eq_of_toNat_eq
        rw [skipSlot_toNat, BitVec.toNat_ofNat]
        omega
      refine ⟨.skip (b0.toNat + 1), rest, rfl, ?_, congrArg (· :: rest) hb⟩
      simp only [Instr.wf, Bool.and_eq_true, decide_eq_true_eq]
      omega
    · have hb : b0 = 0b0100000#7 ++ BitVec.ofBool (b0.toNat = 0x41) := by
        apply BitVec.eq_of_toNat_eq
        rw [singleBitSlot_toNat]
        by_cases h1 : b0.toNat = 0x41
        · simp [h1]
        · simp only [h1, decide_false, Bool.toNat_false]
          omega
      exact ⟨.matchSingleBit (b0.toNat = 0x41), rest, rfl, rfl, congrArg (· :: rest) hb⟩
    · have hb : b0 = 0b10000#5 ++ BitVec.ofNat 3 (b0.toNat - 0x80) := by
        apply BitVec.eq_of_toNat_eq
        rw [matchRunSlot_toNat, BitVec.toNat_ofNat]
        omega
      refine ⟨.matchRun (b0.toNat - 0x80 + 1) lit, tail, rfl, ?_, ?_⟩
      · simp only [Instr.wf, hlit, decide_true, Bool.and_true, Bool.and_eq_true, decide_eq_true_eq]
        omega
      · rw [encode_of_isMicro P (i := .matchRun _ lit) rfl, encodeSlots, Nat.add_sub_cancel, ← hb]
        rfl

/-- Settles O4: the ranges of R86 are those that no encoding begins. -/
theorem illegalSlotsAreRefused : Obligations.IllegalSlotsAreRefused := by
  unfold Obligations.IllegalSlotsAreRefused
  intro P b0 rest
  have hb := b0.isLt
  rw [decodeSlots_refuses_iff, begins_with_encoding_iff]
  cases rest with
  | nil =>
    simp only [or_true, and_true, reduceCtorEq, false_and, exists_false, and_false, or_false]
    omega
  | cons lit tail =>
    have hlit : (∃ l t, lit :: tail = l :: t ∧ l.toNat < 2 ^ (b0.toNat - 0x80 + 1)) ↔
        lit.toNat < 2 ^ (b0.toNat - 0x80 + 1) := by simp
    have hlit' : (∃ l t, lit :: tail = l :: t ∧ 2 ^ (b0.toNat - 0x80 + 1) ≤ l.toNat) ↔
        2 ^ (b0.toNat - 0x80 + 1) ≤ lit.toNat := by simp
    rw [hlit, hlit']
    simp only [reduceCtorEq, false_or]
    omega

/-- Settles O5: six words, evaluated. -/
theorem sampleWordsDecode : Obligations.SampleWordsDecode := by
  unfold Obligations.SampleWordsDecode
  decide

end Sys2Proof

namespace Sys2Proof.Machine

/-! ### A compiled program is the scan of its mask (R132 to R135) -/

/-- Between compared bits r-1 .. r-n and a scan of the bits below, where the run ends, the greedy cut of R134 and R135
continues the scan upwards. -/
theorem scans_compileCompared {lmax : Nat} (h2 : 2 ≤ lmax) (h8 : lmax ≤ 8) (mask value : Word) {ops : List Instr} :
    ∀ fuel r n, n ≤ fuel → n ≤ r → (∀ j, j < n → mask.getLsbD (r - 1 - j) = true) →
      (r = n ∨ mask.getLsbD (r - n - 1) = false) → Scans lmax mask value (r - n) ops →
      Scans lmax mask value r (compileCompared lmax value fuel r n ++ ops) := by
  intro fuel
  induction fuel with
  | zero =>
    intro r n hfuel _ _ _ hops
    obtain rfl : n = 0 := by omega
    exact hops
  | succ fuel ih =>
    intro r n hfuel hle hrun hend hops
    simp only [compileCompared]
    split
    next h0 => subst h0; exact hops
    next h0 =>
      split
      next h1 =>
        subst h1
        exact ⟨hle, hrun 0 Nat.one_pos, rfl, hend, hops⟩
      next h1 =>
        have hlen : min n lmax ≤ n := Nat.min_le_left n lmax
        have hpiece : ∀ j, j < min n lmax →
            ((value.extractLsb' (r - min n lmax) (min n lmax)).setWidth 8).getLsbD (min n lmax - 1 - j) =
              value.getLsbD (r - 1 - j) := by
          intro j hj
          rw [BitVec.getLsbD_setWidth, BitVec.getLsbD_extractLsb',
            show r - min n lmax + (min n lmax - 1 - j) = r - 1 - j by omega]
          simp only [show min n lmax - 1 - j < 8 by omega, show min n lmax - 1 - j < min n lmax by omega, decide_true,
            Bool.true_and]
        have hlit : ((value.extractLsb' (r - min n lmax) (min n lmax)).setWidth 8).toNat < 2 ^ min n lmax := by
          rw [BitVec.toNat_setWidth]
          exact (Nat.mod_le _ _).trans_lt (BitVec.isLt _)
        have hcut : min n lmax = lmax ∨ r = min n lmax ∨ mask.getLsbD (r - min n lmax - 1) = false := by
          rcases Nat.le_total lmax n with hl | hl
          · exact .inl (Nat.min_eq_right hl)
          · rw [Nat.min_eq_left hl]; exact .inr hend
        refine ⟨by omega, Nat.min_le_right n lmax, by omega, fun j hj => hrun j (by omega), hpiece, hlit, hcut, ?_⟩
        refine ih _ _ (by omega) (by omega) (fun j hj => ?_) ?_ ?_
        · rw [show r - min n lmax - 1 - j = r - 1 - (min n lmax + j) by omega]
          exact hrun _ (by omega)
        · rw [show r - min n lmax - (n - min n lmax) - 1 = r - n - 1 by omega]
          exact hend.imp_left fun h => by omega
        · rwa [show r - min n lmax - (n - min n lmax) = r - n by omega]

/-- From position r - 1 down the compiler emits the scan. -/
theorem scans_compileFrom {lmax : Nat} (h2 : 2 ≤ lmax) (h8 : lmax ≤ 8) (mask value : Word) : ∀ fuel r, r ≤ fuel →
    Scans lmax mask value r (compileFrom lmax mask value fuel r) := by
  intro fuel
  induction fuel with
  | zero => intro r hr; exact Nat.le_zero.1 hr
  | succ fuel ih =>
    intro r hr
    simp only [compileFrom]
    split
    next h0 => exact h0
    next h0 =>
      have hpos := runLength_pos mask h0
      obtain ⟨hle, hrun, hend⟩ := runLength_maximal mask (mask.getLsbD (r - 1)) r
      have hrest := ih (r - runLength mask (mask.getLsbD (r - 1)) r) (by omega)
      split
      next hbit =>
        rw [hbit] at hle hrun hend hrest ⊢
        exact scans_compileCompared h2 h8 mask value _ _ _ le_rfl hle hrun
          (hend.imp Eq.symm Bool.eq_false_of_not_eq_true) hrest
      next hbit =>
        rw [Bool.eq_false_of_not_eq_true hbit] at hpos hle hrun hend hrest ⊢
        exact ⟨hpos, hle, hrun, hend.imp Eq.symm Bool.eq_true_of_not_eq_false, hrest⟩

/-- The program of a non-zero mask is the scan of the whole word. -/
theorem compile_scans {lmax : Nat} (h2 : 2 ≤ lmax) (h8 : lmax ≤ 8) {mask : Word} (hmask : mask ≠ 0#16) (value : Word) :
    Scans lmax mask value 16 (compile lmax mask value) := by
  rw [compile, if_neg hmask]
  exact scans_compileFrom h2 h8 mask value 16 16 le_rfl

/-! ### What a scan keeps (R89, R136, R137) -/

section
variable {lmax r : Nat} {mask value : Word} {op : Instr} {ops : List Instr}

/-- The first operation of a scan takes no more bits than there are, costs no more slots than it takes bits, and hands
on a scan of the bits below. -/
theorem Scans.head (h : Scans lmax mask value r (op :: ops)) :
    bitsConsumed op ≤ r ∧ opCost op ≤ bitsConsumed op ∧ Scans lmax mask value (r - bitsConsumed op) ops := by
  cases op with
  | skip n =>
    obtain ⟨hpos, hle, -, -, hrest⟩ := h
    exact ⟨hle, hpos, hrest⟩
  | matchSingleBit p =>
    obtain ⟨hpos, -, -, -, hrest⟩ := h
    exact ⟨hpos, le_rfl, hrest⟩
  | matchRun len lit =>
    obtain ⟨hlen, -, hle, -, -, -, -, hrest⟩ := h
    exact ⟨hle, hlen, hrest⟩
  | _ => exact h.elim

/-- The first operation of a scan of at most a word is an encodable micro-operation (R84) and no `MatchRun` of
length 1 (R89). -/
theorem Scans.head_encodable {P : Params} (h8 : P.lmax ≤ 8) (hr : r ≤ 16) (h : Scans P.lmax mask value r (op :: ops)) :
    op.isMicro = true ∧ op.wf P = true ∧ ∀ lit, op ≠ .matchRun 1 lit := by
  cases op with
  | skip n =>
    obtain ⟨hpos, hle, -⟩ := h
    exact ⟨rfl, by simp only [Instr.wf, Bool.and_eq_true, decide_eq_true_eq]; omega, fun _ => nofun⟩
  | matchSingleBit p => exact ⟨rfl, rfl, fun _ => nofun⟩
  | matchRun len lit =>
    obtain ⟨hlen, hlmax, -, -, -, hlit, -⟩ := h
    refine ⟨rfl, ?_, fun l heq => ?_⟩
    · simp only [Instr.wf, hlit, decide_true, Bool.and_true, Bool.and_eq_true, decide_eq_true_eq]
      omega
    · cases heq; omega
  | _ => exact h.elim

/-- After a `Skip` stands no `Skip`: its run was maximal, so the next bit is compared (R133). -/
theorem Scans.not_skip_skip {n m : Nat} : ¬ Scans lmax mask value r (.skip n :: .skip m :: ops) := by
  rintro ⟨-, -, -, hend, hpos, hle, hrun, -⟩
  have hbit := hrun 0 hpos
  rw [Nat.sub_zero] at hbit
  rcases hend with hend | hend
  · omega
  · rw [hend] at hbit; cases hbit

/-- Where neighbouring mask bits differ every run is one bit long, so the first operation costs a slot for a bit. -/
theorem Scans.head_of_alternating (alternates : ∀ p, p + 1 < r → mask.getLsbD p ≠ mask.getLsbD (p + 1))
    (h : Scans lmax mask value r (op :: ops)) : opCost op = bitsConsumed op := by
  have hne (h2 : 2 ≤ r) : mask.getLsbD (r - 1 - 1) ≠ mask.getLsbD (r - 1 - 0) := by
    have hp := alternates (r - 1 - 1) (by omega)
    rwa [show r - 1 - 1 + 1 = r - 1 - 0 by omega] at hp
  cases op with
  | skip n =>
    obtain ⟨hpos, hle, hrun, -⟩ := h
    have hn : ¬ 2 ≤ n := fun h2 => hne (h2.trans hle) ((hrun 1 (by omega)).trans (hrun 0 (by omega)).symm)
    change 1 = n
    omega
  | matchSingleBit p => rfl
  | matchRun len lit =>
    obtain ⟨hlen, -, hle, hrun, -⟩ := h
    exact absurd ((hrun 1 (by omega)).trans (hrun 0 (by omega)).symm) (hne (hlen.trans hle))
  | _ => exact h.elim

/-- A scan consumes every bit (R137 a). -/
theorem Scans.bits : ∀ {ops r}, Scans lmax mask value r ops → (ops.map bitsConsumed).sum = r
  | [], _, h => Eq.symm h
  | _ :: _, _, h => by
    obtain ⟨hle, -, hrest⟩ := h.head
    rw [List.map_cons, List.sum_cons, hrest.bits, Nat.add_sub_cancel' hle]

/-- It costs no more slots than bits (R137 b), -/
theorem Scans.cost_le : ∀ {ops r}, Scans lmax mask value r ops → cost ops ≤ r
  | [], r, _ => Nat.zero_le r
  | _ :: _, _, h => by
    obtain ⟨hle, hcost, hrest⟩ := h.head
    have := hrest.cost_le
    rw [cost]
    omega

/-- and exactly as many where neighbouring mask bits differ. -/
theorem Scans.cost_of_alternating : ∀ {ops r}, (∀ p, p + 1 < r → mask.getLsbD p ≠ mask.getLsbD (p + 1)) →
    Scans lmax mask value r ops → cost ops = r
  | [], _, _, h => Eq.symm h
  | _ :: _, _, alternates, h => by
    obtain ⟨hle, -, hrest⟩ := h.head
    have := hrest.cost_of_alternating fun p hp => alternates p (by omega)
    rw [cost, h.head_of_alternating alternates]
    omega

/-- Every operation of a scan of at most a word is encodable, and none is a `MatchRun` of length 1. -/
theorem Scans.encodable {P : Params} (h8 : P.lmax ≤ 8) : ∀ {ops r}, r ≤ 16 → Scans P.lmax mask value r ops →
    ∀ op ∈ ops, op.isMicro = true ∧ op.wf P = true ∧ ∀ lit, op ≠ .matchRun 1 lit
  | [], _, _, _ => nofun
  | _ :: _, _, hr, h => by
    obtain ⟨-, -, hrest⟩ := h.head
    exact List.forall_mem_cons.2 ⟨h.head_encodable h8 hr, hrest.encodable h8 (by omega)⟩

/-- No two neighbours in a scan are `Skip`s (R137 c). -/
theorem Scans.no_neighbouring_skips {n m : Nat} : ∀ {ops r}, Scans lmax mask value r ops → ∀ j : Nat,
    ops[j]? = some (.skip n) → ops[j + 1]? ≠ some (.skip m)
  | [], _, _, _, hn => nomatch hn
  | [_], _, _, _, _ => nofun
  | _ :: _ :: _, _, h, 0, hn => fun hm => by
    cases hn; cases hm
    exact h.not_skip_skip
  | _ :: _ :: _, _, h, j + 1, hn => by
    obtain ⟨-, -, hrest⟩ := h.head
    exact hrest.no_neighbouring_skips j hn

end

/-- In the mask `0x5555` neighbouring bits differ. -/
theorem alternating_0x5555 : ∀ p, p + 1 < 16 → (0x5555#16).getLsbD p ≠ (0x5555#16).getLsbD (p + 1) := by
  have all : ∀ p : Fin 15, (0x5555#16).getLsbD p ≠ (0x5555#16).getLsbD (p + 1) := by decide
  exact fun p hp => all ⟨p, by omega⟩

/-- Settles O16: the bounds are those of a scan of 16 bits; the all-zero mask has the empty program. -/
theorem compiledProgramsKeepTheirBounds : Obligations.CompiledProgramsKeepTheirBounds := by
  unfold Obligations.CompiledProgramsKeepTheirBounds
  intro P mask value h2 h8
  have hcost : cost (compile P.lmax 0x5555#16 value) = 16 :=
    (compile_scans h2 h8 (by decide) value).cost_of_alternating alternating_0x5555
  by_cases hmask : mask = 0#16
  · subst hmask
    rw [compile, if_pos rfl]
    exact ⟨rfl, Nat.zero_le _, hcost, nofun, fun _ _ _ => nofun⟩
  · have hscan := compile_scans h2 h8 hmask value
    rw [if_neg hmask]
    exact ⟨hscan.bits, hscan.cost_le, hcost, hscan.encodable h8 le_rfl, fun j _ _ => hscan.no_neighbouring_skips j⟩

end Sys2Proof.Machine
end

section
/-! SUPPORT. O10, O11, O12, O13, O19, O20 and O42: what a micro-operation does, said by the bits it compares; that an
evaluation ends; and that a compiled program computes masked equality. A round of the loop is one equation over the
decoder, an instruction is one of three equations over `Sequencer.Passes`, and the scan of R132 ties the bits that the
instructions compare to the bits of the mask. -/

namespace Sys2Proof.Machine

/-! ### One round of the loop, by the decoder (R86, R87, R110) -/

/-- The slot after the one at `UPC`, where the first slot asks for it and the program has it (R87, R113). -/
def State.literalSlot (s : State) (k : StageIx) : Option Byte :=
  if slotCount (s.imemSlot k s.seq.upc) = 2 ∧ s.seq.upc + 1 < s.plen.get k then some (s.imemSlot k (s.seq.upc + 1))
  else none

/-- Within a program that fits its bank the fetch never faults: it decodes the slots that stand at `UPC`. -/
theorem State.fetchMicro_within {s : State} {k : StageIx} (hmore : s.seq.upc < s.plen.get k)
    (hfit : s.plen.get k ≤ s.params.budget) :
    s.fetchMicro k = .ok (decodeMicro s.params (s.imemSlot k s.seq.upc) (s.literalSlot k)).toOption := by
  have read : ∀ a, a < s.plen.get k → s.imemRead k a = .ok (s.imemSlot k a) := fun a ha =>
    if_pos (ha.trans_le hfit)
  unfold State.fetchMicro State.literalSlot
  rw [read _ hmore]
  dsimp only
  split
  next h => rw [read _ h.2]
  next => rfl

/-- A round at the end of the program ends the evaluation with a match. -/
theorem evalLoop_of_end {k : StageIx} (fuel : Nat) {s : State} (hend : s.plen.get k ≤ s.seq.upc) :
    evalLoop k (fuel + 1) s = .next (s.endEval .matched) := by
  rw [evalLoop, if_pos hend]

/-- A round on an illegal encoding ends the evaluation with a stall (R86, R114). -/
theorem evalLoop_of_illegal {k : StageIx} (fuel : Nat) {s : State} (hmore : s.seq.upc < s.plen.get k)
    (hfetch : s.fetchMicro k = .ok none) : evalLoop k (fuel + 1) s = .next (s.endEval .stall) := by
  rw [evalLoop, if_neg (Nat.not_le.2 hmore), hfetch]

/-- Where the slots at `UPC` are legal exactly under `C` and then encode `i`, a round runs `i` under `C` and stalls
otherwise. -/
theorem evalLoop_of_decode {k : StageIx} (fuel : Nat) {s : State} {i : Instr} {C : Prop} [Decidable C]
    (hmore : s.seq.upc < s.plen.get k) (hfit : s.plen.get k ≤ s.params.budget)
    (hdecode : (decodeMicro s.params (s.imemSlot k s.seq.upc) (s.literalSlot k)).toOption = if C then some i else none) :
    evalLoop k (fuel + 1) s =
      if C then andThen (exec i s) fun t => if t.seq.result = none then evalLoop k fuel t else .next t
      else .next (s.endEval .stall) := by
  have hfetch := State.fetchMicro_within hmore hfit
  rw [hdecode] at hfetch
  split
  next hC => exact evalLoop_of_fetch fuel hmore (by rw [hfetch, if_pos hC])
  next hC => exact evalLoop_of_illegal fuel hmore (by rw [hfetch, if_neg hC])

/-- The slots with `op` = `00` (R81, R86). -/
theorem decodeMicro_op_skip (P : Params) {b0 : Byte} (b1 : Option Byte) (hop : opField b0 = 0b00#2) :
    (decodeMicro P b0 b1).toOption =
      if b0.extractLsb' 4 2 = 0#2 then some (.skip ((b0.extractLsb' 0 4).toNat + 1)) else none := by
  rw [decodeMicro, if_pos hop, decodeSkip]
  split <;> rfl

/-- The slots with `op` = `01` (R82, R86). -/
theorem decodeMicro_op_matchSingleBit (P : Params) {b0 : Byte} (b1 : Option Byte) (hop : opField b0 = 0b01#2) :
    (decodeMicro P b0 b1).toOption =
      if b0.extractLsb' 1 5 = 0#5 then some (.matchSingleBit (b0.getLsbD 0)) else none := by
  rw [decodeMicro, if_neg (by rw [hop]; decide), if_pos hop, decodeMatchSingleBit]
  split <;> rfl

/-- The slots with `op` = `10`, where `lit` stands after the first and belongs to the program under `C` (R83, R86). -/
theorem decodeMicro_op_matchRun (P : Params) {b0 lit : Byte} {C : Prop} [Decidable C] (hop : opField b0 = 0b10#2) :
    (decodeMicro P b0 (if C then some lit else none)).toOption =
      if b0.extractLsb' 3 3 = 0#3 ∧ (b0.extractLsb' 0 3).toNat + 1 ≤ P.lmax ∧ C ∧
          lit.toNat < 2 ^ ((b0.extractLsb' 0 3).toNat + 1) then
        some (.matchRun ((b0.extractLsb' 0 3).toNat + 1) lit) else none := by
  rw [decodeMicro, if_neg (by rw [hop]; decide), if_neg (by rw [hop]; decide), if_pos hop]
  simp only [decodeMatchRun]
  generalize (b0.extractLsb' 0 3).toNat + 1 = len
  split
  next hres => rw [if_neg fun ⟨h, _⟩ => hres h]; rfl
  next hres =>
    split
    next hlmax => rw [if_neg fun ⟨_, h, _⟩ => Nat.not_lt.2 h hlmax]; rfl
    next hlmax =>
      by_cases hC : C
      · rw [if_pos hC]
        dsimp only
        split
        next hlit =>
          rw [if_pos ⟨not_not.1 hres, Nat.not_lt.1 hlmax, hC, (ushiftRight_eq_zero lit len).1 hlit⟩]; rfl
        next hlit => rw [if_neg fun ⟨_, _, _, h⟩ => hlit ((ushiftRight_eq_zero lit len).2 h)]; rfl
      · rw [if_neg hC, if_neg fun ⟨_, _, h, _⟩ => hC h]; rfl

/-! ### One instruction, by the bits it compares (R111 to R114) -/

/-- The bits of `SR` from `POS` on are what the instruction wants there: nothing for `Skip` (R111), the polarity (R112),
the literal with its bit L-1 first (R113). -/
def Sequencer.Passes (q : Sequencer) : Instr → Prop
  | .matchSingleBit p => q.sr.getLsbD (15 - q.pos) = p
  | .matchRun len lit => ∀ j, j < len → q.sr.getLsbD (15 - q.pos - j) = lit.getLsbD (len - 1 - j)
  | _ => True

/-- `MatchSingleBit`'s comparison. -/
theorem Sequencer.bitDiffers_eq_false_iff {q : Sequencer} (p : Bool) :
    q.bitDiffers p = false ↔ q.Passes (.matchSingleBit p) := by
  simp [Sequencer.bitDiffers, Sequencer.Passes]

/-- Within the word, `MatchRun`'s comparison of two numbers is the comparison of their bits. -/
theorem Sequencer.runDiffers_eq_false_iff {q : Sequencer} {len : Nat} (lit : Byte) (hfit : q.pos + len ≤ 16) :
    q.runDiffers len lit = false ↔ q.Passes (.matchRun len lit) := by
  have bit : ∀ j, j < len → (q.nextBits len).getLsbD (len - 1 - j) = q.sr.getLsbD (15 - q.pos - j) := by
    intro j hj
    rw [Sequencer.nextBits, BitVec.getLsbD_extractLsb', show 16 - q.pos - len + (len - 1 - j) = 15 - q.pos - j by omega,
      decide_eq_true (by omega : len - 1 - j < len), Bool.true_and]
  have litBit : ∀ j, j < len → (lit.setWidth len).getLsbD (len - 1 - j) = lit.getLsbD (len - 1 - j) := by
    intro j hj
    rw [BitVec.getLsbD_setWidth, decide_eq_true (by omega : len - 1 - j < len), Bool.true_and]
  simp only [Sequencer.runDiffers, bne_eq_false_iff_eq, Sequencer.Passes]
  constructor
  · intro heq j hj
    rw [← bit j hj, heq, litBit j hj]
  · intro hpass
    apply BitVec.eq_of_getLsbD_eq
    intro p hp
    have h := hpass (len - 1 - p) (by omega)
    rwa [← bit _ (by omega), ← litBit _ (by omega), show len - 1 - (len - 1 - p) = p by omega] at h

/-- A micro-operation that would consume past the 16th bit stalls (R114). -/
theorem exec_of_overrun {i : Instr} (hm : i.isMicro = true) {s : State} (hover : 16 < s.seq.pos + bitsConsumed i) :
    exec i s = .next (s.endEval .stall) := by
  have hoverrun : s.seq.overrun (bitsConsumed i) = true := decide_eq_true hover
  cases i with
  | skip n => exact if_pos hoverrun
  | matchSingleBit p => exact if_pos hoverrun
  | matchRun len lit => exact if_pos hoverrun
  | _ => simp [Instr.isMicro] at hm

/-- A micro-operation within the word whose bits are as it wants goes on past its own bits and slots. -/
theorem exec_of_passes {i : Instr} (hm : i.isMicro = true) {s : State} (hfit : s.seq.pos + bitsConsumed i ≤ 16)
    (hpass : s.seq.Passes i) : exec i s = .next (s.advance (bitsConsumed i) (opCost i)) := by
  have fits : ¬ s.seq.overrun (bitsConsumed i) = true := by simpa [Sequencer.overrun] using hfit
  cases i with
  | skip n => exact if_neg fits
  | matchSingleBit p =>
    have same := (Sequencer.bitDiffers_eq_false_iff p).2 hpass
    exact (if_neg fits).trans (if_neg (ne_true_of_eq_false same))
  | matchRun len lit =>
    have same := (Sequencer.runDiffers_eq_false_iff (len := len) lit hfit).2 hpass
    exact (if_neg fits).trans (if_neg (ne_true_of_eq_false same))
  | _ => simp [Instr.isMicro] at hm

/-- A micro-operation within the word whose bits are not as it wants ends the evaluation with a mismatch. -/
theorem exec_of_not_passes {i : Instr} (hm : i.isMicro = true) {s : State} (hfit : s.seq.pos + bitsConsumed i ≤ 16)
    (hfail : ¬ s.seq.Passes i) : exec i s = .next (s.endEval .noMatch) := by
  have fits : ¬ s.seq.overrun (bitsConsumed i) = true := by simpa [Sequencer.overrun] using hfit
  cases i with
  | skip n => exact absurd trivial hfail
  | matchSingleBit p =>
    have differs := mt (Sequencer.bitDiffers_eq_false_iff p).1 hfail
    exact (if_neg fits).trans (if_pos (eq_true_of_ne_false differs))
  | matchRun len lit =>
    have differs := mt (Sequencer.runDiffers_eq_false_iff (len := len) lit hfit).1 hfail
    exact (if_neg fits).trans (if_pos (eq_true_of_ne_false differs))
  | _ => simp [Instr.isMicro] at hm

/-- Settles O10: the decoder reads the slot, and `Skip` compares nothing. -/
theorem skipAdvancesOrStalls : Obligations.SkipAdvancesOrStalls := by
  unfold Obligations.SkipAdvancesOrStalls
  refine ⟨fun k fuel s b0 hmore hfit hb0 hop => ?_, fun n s hfit => ?_, fun n s hover => ?_⟩
  · exact evalLoop_of_decode fuel hmore hfit (by rw [hb0]; exact decodeMicro_op_skip _ _ hop)
  · exact exec_of_passes (i := .skip n) rfl hfit trivial
  · exact exec_of_overrun (i := .skip n) rfl hover

/-- Settles O11: the decoder reads the slot, and the bit compared is the polarity or not. -/
theorem matchSingleBitCompares : Obligations.MatchSingleBitCompares := by
  unfold Obligations.MatchSingleBitCompares
  refine ⟨fun k fuel s b0 hmore hfit hb0 hop => ?_, fun p s hfit heq => ?_, fun p s hfit hne => ?_,
    fun p s hover => ?_⟩
  · exact evalLoop_of_decode fuel hmore hfit (by rw [hb0]; exact decodeMicro_op_matchSingleBit _ _ hop)
  · exact exec_of_passes (i := .matchSingleBit p) rfl hfit heq
  · exact exec_of_not_passes (i := .matchSingleBit p) rfl hfit hne
  · exact exec_of_overrun (i := .matchSingleBit p) rfl hover

/-- Settles O12: the decoder reads both slots where the program has both, and the run compared differs in some bit or in
none. -/
theorem matchRunComparesBitByBit : Obligations.MatchRunComparesBitByBit := by
  unfold Obligations.MatchRunComparesBitByBit
  refine ⟨fun k fuel s b0 b1 hmore hfit hb0 hb1 hop => ?_, fun len lit s hfit heq => ?_,
    fun len lit s hfit ⟨j, hj, hne⟩ => ?_, fun len lit s hover => ?_⟩
  · have htwo : slotCount b0 = 2 := if_pos hop
    refine evalLoop_of_decode fuel hmore hfit ?_
    simp only [State.literalSlot, hb0, hb1, htwo, true_and]
    exact decodeMicro_op_matchRun _ hop
  · exact exec_of_passes (i := .matchRun len lit) rfl hfit heq
  · exact exec_of_not_passes (i := .matchRun len lit) rfl hfit fun hpass => hne (hpass j hj)
  · exact exec_of_overrun (i := .matchRun len lit) rfl hover

/-! ### An evaluation ends (R110, R114) -/

/-- The instruction that is fetched lies within the program with all its slots (R113). -/
theorem State.fetchMicro_fits {s : State} {k : StageIx} {i : Instr} (hmore : s.seq.upc < s.plen.get k)
    (hfit : s.plen.get k ≤ s.params.budget) (hfetch : s.fetchMicro k = .ok (some i)) :
    s.seq.upc + opCost i ≤ s.plen.get k := by
  rw [State.fetchMicro_within hmore hfit] at hfetch
  cases hd : decodeMicro s.params (s.imemSlot k s.seq.upc) (s.literalSlot k) with
  | error e => rw [hd] at hfetch; cases hfetch
  | ok i' =>
    rw [hd] at hfetch
    cases hfetch
    rw [← encodeSlots_length]
    rcases (decodeMicro_ok hd).2 with ⟨hslots, -⟩ | ⟨lit, hlit, hslots, -⟩
    · rw [hslots]; exact hmore
    · rw [State.literalSlot, Option.ite_none_right_eq_some] at hlit
      rw [hslots]; exact hlit.1.2

/-- From `s` the loop ends within n rounds whatever bound above n it is given, with a result, and with the working
registers in their ranges. -/
def State.EvalEnds (s : State) (k : StageIx) (n : Nat) : Prop :=
  ∃ q r, (∀ fuel, n < fuel → evalLoop k fuel s = .next { s with seq := q }) ∧ q.result = some r ∧
    q.sr = s.seq.sr ∧ q.pos ≤ 16 ∧ q.upc ≤ s.plen.get k

/-- The loop ends in the round at hand. -/
theorem State.EvalEnds.of_round {s : State} {k : StageIx} {n : Nat} {q : Sequencer} {r : EvalResult}
    (hround : ∀ fuel, evalLoop k (fuel + 1) s = .next { s with seq := q }) (hr : q.result = some r)
    (hsr : q.sr = s.seq.sr) (hpos : q.pos ≤ 16) (hupc : q.upc ≤ s.plen.get k) : s.EvalEnds k n := by
  refine ⟨q, r, fun fuel hf => ?_, hr, hsr, hpos, hupc⟩
  obtain ⟨fuel, rfl⟩ := Nat.exists_eq_succ_of_ne_zero (Nat.ne_of_gt ((Nat.zero_le n).trans_lt hf))
  exact hround fuel

/-- The round at hand hands on to a state from which the loop ends. -/
theorem State.EvalEnds.of_rest {s : State} {k : StageIx} {n : Nat} {q : Sequencer}
    (hround : ∀ fuel, evalLoop k (fuel + 1) s = evalLoop k fuel { s with seq := q }) (hsr : q.sr = s.seq.sr)
    (hrest : State.EvalEnds { s with seq := q } k n) : s.EvalEnds k (n + 1) := by
  obtain ⟨q', r, hends, hr, hsr', hpos, hupc⟩ := hrest
  refine ⟨q', r, fun fuel hf => ?_, hr, hsr'.trans hsr, hpos, hupc⟩
  obtain ⟨fuel, rfl⟩ := Nat.exists_eq_succ_of_ne_zero (Nat.ne_of_gt ((Nat.zero_le _).trans_lt hf))
  rw [hround, hends fuel (Nat.lt_of_succ_lt_succ hf)]

/-- The instruction at `UPC` ends the loop, or hands on within the word and the program and past its own slots, where
the loop has one round less to go. -/
theorem State.EvalEnds.of_fetch {s : State} {k : StageIx} {n : Nat} {i : Instr} (hmore : s.seq.upc < s.plen.get k)
    (hfit : s.plen.get k ≤ s.params.budget) (hpos : s.seq.pos ≤ 16) (hfetch : s.fetchMicro k = .ok (some i))
    (rest : ∀ q : Sequencer, q.pos ≤ 16 → q.upc ≤ s.plen.get k → s.seq.upc < q.upc →
      State.EvalEnds { s with seq := q } k n) : s.EvalEnds k (n + 1) := by
  have hm := fetchMicro_isMicro hfetch
  have hslots := State.fetchMicro_fits hmore hfit hfetch
  have hcost := opCost_pos hm
  obtain ⟨q, hsr, hexec, hcases⟩ := exec_micro_seq hm s.seq
  have hround : ∀ fuel, evalLoop k (fuel + 1) s =
      if q.result = none then evalLoop k fuel { s with seq := q } else .next { s with seq := q } := fun fuel => by
    rw [evalLoop_of_fetch fuel hmore hfetch, hexec s rfl, andThen_next]
  cases hr : q.result with
  | some r =>
    have hranges : q.pos ≤ 16 ∧ q.upc ≤ s.plen.get k := by
      rcases hcases with ⟨-, hp, hu⟩ | ⟨-, hp, hu⟩ | ⟨-, hp, hu⟩ <;> omega
    exact .of_round (fun fuel => by rw [hround, hr]; rfl) hr hsr hranges.1 hranges.2
  | none =>
    simp only [hr, reduceCtorEq, false_and, false_or] at hcases
    obtain ⟨-, hpos', hupc⟩ := hcases
    exact .of_rest (fun fuel => by rw [hround, if_pos hr]) hsr (rest q hpos' (by omega) (by omega))

/-- Within a program that fits its bank the loop ends in as many rounds as there are slots left. -/
theorem State.evalEnds {k : StageIx} (n : Nat) : ∀ {s : State}, s.plen.get k ≤ s.params.budget →
    s.seq.pos ≤ 16 → s.seq.upc ≤ s.plen.get k → s.plen.get k ≤ s.seq.upc + n → s.EvalEnds k n := by
  induction n with
  | zero =>
    intro s _ hpos hupc hleft
    exact .of_round (fun fuel => evalLoop_of_end fuel hleft) rfl rfl hpos hupc
  | succ n ih =>
    intro s hfit hpos hupc hleft
    by_cases hend : s.plen.get k ≤ s.seq.upc
    · exact .of_round (fun fuel => evalLoop_of_end fuel hend) rfl rfl hpos hupc
    · have hmore : s.seq.upc < s.plen.get k := Nat.not_le.1 hend
      obtain ⟨o, ho⟩ : ∃ o, s.fetchMicro k = .ok o := ⟨_, State.fetchMicro_within hmore hfit⟩
      cases o with
      | none => exact .of_round (fun fuel => evalLoop_of_illegal fuel hmore ho) rfl rfl hpos hupc
      | some i =>
        refine .of_fetch hmore hfit hpos ho fun q hpos' hupc' hnext => ih hfit hpos' hupc' ?_
        dsimp only
        omega

/-- The empty program matches at once. -/
theorem evalStage_of_empty {k : StageIx} (w : Word) {s : State} (hempty : s.plen.get k = 0) :
    evalStage k w s = .next ((s.startEval w).endEval .matched) :=
  evalLoop_of_end _ (Nat.le_of_eq hempty)

/-- Settles O13: an evaluation starts within its program, with all of the bound `PLEN` + 1 to go. -/
theorem evaluationEndsAndWritesOnlyWorkingRegisters : Obligations.EvaluationEndsAndWritesOnlyWorkingRegisters := by
  unfold Obligations.EvaluationEndsAndWritesOnlyWorkingRegisters
  refine ⟨fun k w s hfit => ?_, fun k w s hempty => evalStage_of_empty w hempty⟩
  obtain ⟨q, r, hends, hr, hsr, hpos, hupc⟩ : (s.startEval w).EvalEnds k (s.plen.get k) :=
    State.evalEnds _ hfit (Nat.zero_le _) (Nat.zero_le _) (Nat.le_add_left _ _)
  have heval : evalStage k w s = .next { s with seq := q } := hends _ (Nat.lt_succ_self _)
  exact ⟨q, r, heval, hr, hsr, hpos, hupc, fun fuel hf => (hends fuel hf).trans heval.symm⟩

/-! ### A compiled program is masked equality (R116) -/

/-- The words agree under the mask in the n positions from r - 1 down. -/
def AgreeFrom (mask value w : Word) (r n : Nat) : Prop :=
  ∀ j, j < n → mask.getLsbD (r - 1 - j) = true → w.getLsbD (r - 1 - j) = value.getLsbD (r - 1 - j)

/-- Agreement in n positions and in the m below them. -/
theorem agreeFrom_add_iff {mask value w : Word} {r n m : Nat} :
    AgreeFrom mask value w r (n + m) ↔ AgreeFrom mask value w r n ∧ AgreeFrom mask value w (r - n) m := by
  have shift : ∀ j, r - n - 1 - j = r - 1 - (n + j) := fun j => by omega
  constructor
  · intro h
    refine ⟨fun j hj => h j (by omega), fun j hj => ?_⟩
    rw [shift]; exact h (n + j) (by omega)
  · rintro ⟨hfirst, hrest⟩ j hj
    by_cases hn : j < n
    · exact hfirst j hn
    · have h := hrest (j - n) (by omega)
      rwa [shift, Nat.add_sub_cancel' (Nat.not_lt.1 hn)] at h

/-- Agreement in all sixteen positions is masked equality. -/
theorem agreeFrom_word_iff {mask value w : Word} : AgreeFrom mask value w 16 16 ↔ w &&& mask = value &&& mask := by
  constructor
  · intro h
    apply BitVec.eq_of_getLsbD_eq
    intro p hp
    have hagree := h (15 - p) (by omega)
    rw [show 16 - 1 - (15 - p) = p by omega] at hagree
    rw [BitVec.getLsbD_and, BitVec.getLsbD_and]
    cases hbit : mask.getLsbD p with
    | true => rw [hagree hbit]
    | false => rw [Bool.and_false, Bool.and_false]
  · intro h j _
    exact getLsbD_eq_of_and_eq h _

/-- At position r - 1 the first operation of a scan passes exactly the words that agree with the value, under the mask, in
the bits it consumes. -/
theorem Scans.head_passes_iff {lmax r : Nat} {mask value : Word} {op : Instr} {ops : List Instr}
    (h : Scans lmax mask value r (op :: ops)) {q : Sequencer} (hpos : q.pos + r = 16) :
    q.Passes op ↔ AgreeFrom mask value q.sr r (bitsConsumed op) := by
  have place : 15 - q.pos = r - 1 := by omega
  cases op with
  | skip n =>
    obtain ⟨-, -, hrun, -⟩ := h
    refine iff_of_true trivial fun j hj hbit => ?_
    rw [hrun j hj] at hbit; cases hbit
  | matchSingleBit p =>
    obtain ⟨-, hbit, rfl, -⟩ := h
    simp [Sequencer.Passes, AgreeFrom, bitsConsumed, place, hbit]
  | matchRun len lit =>
    obtain ⟨-, -, -, hrun, hlit, -⟩ := h
    refine forall₂_congr fun j hj => ?_
    rw [place, hlit j hj, hrun j hj, eq_self, true_imp_iff]
  | _ => exact h.elim

/-- From position r - 1, a scan of the bits below it evaluates to a match where the word agrees with the value there, and
to a mismatch elsewhere. -/
theorem evalLoop_of_scan {k : StageIx} {lmax : Nat} {mask value : Word} (ops : List Instr) :
    ∀ {fuel r : Nat} {s : State}, s.AtProgram k ops → ops.length < fuel → Scans lmax mask value r ops →
      s.seq.pos + r = 16 → ∃ t, evalLoop k fuel s = .next t ∧
        (t.seq.result = some .matched ∧ AgreeFrom mask value s.seq.sr r r ∨
          t.seq.result = some .noMatch ∧ ¬ AgreeFrom mask value s.seq.sr r r) := by
  induction ops with
  | nil =>
    intro fuel r s hprog hfuel hscan _
    obtain ⟨fuel, rfl⟩ := Nat.exists_eq_succ_of_ne_zero (Nat.ne_of_gt hfuel)
    obtain rfl : r = 0 := hscan
    exact ⟨_, evalLoop_of_end fuel (Nat.le_of_eq hprog.ends.symm), .inl ⟨rfl, fun j hj => absurd hj (Nat.not_lt_zero j)⟩⟩
  | cons op ops ih =>
    intro fuel r s hprog hfuel hscan hpos
    obtain ⟨fuel, rfl⟩ := Nat.exists_eq_succ_of_ne_zero (Nat.ne_of_gt ((Nat.zero_le _).trans_lt hfuel))
    have hm := hprog.micro op (List.mem_cons_self ..)
    have hmore : s.seq.upc < s.plen.get k := by
      have hends := hprog.ends
      have hcost := opCost_pos hm
      rw [cost] at hends
      omega
    obtain ⟨hle, -, hrest⟩ := hscan.head
    have hfit : s.seq.pos + bitsConsumed op ≤ 16 := by omega
    have hsplit := agreeFrom_add_iff (mask := mask) (value := value) (w := s.seq.sr) (r := r) (n := bitsConsumed op)
      (m := r - bitsConsumed op)
    rw [Nat.add_sub_cancel' hle, ← hscan.head_passes_iff hpos] at hsplit
    rw [evalLoop_of_fetch fuel hmore hprog.fetchMicro, hsplit]
    by_cases hpass : s.seq.Passes op
    · have hrun : (s.advance (bitsConsumed op) (opCost op)).seq.result = none := hprog.running
      rw [exec_of_passes hm hfit hpass, andThen_next, if_pos hrun]
      simpa only [hpass, true_and, State.advance_seq] using ih hprog.advance (Nat.lt_of_succ_lt_succ hfuel) hrest
        (by rw [State.advance_seq]; dsimp only; omega)
    · rw [exec_of_not_passes hm hfit hpass]
      exact ⟨_, rfl, .inr ⟨rfl, fun h => hpass h.1⟩⟩

/-- Settles O19: the all-zero mask has the empty program, which matches every word; any other has the scan of the whole
word. -/
theorem compiledProgramIsMaskedEquality : Obligations.CompiledProgramIsMaskedEquality := by
  unfold Obligations.CompiledProgramIsMaskedEquality
  intro s k mask value w hP hplen hbudget hslots
  obtain ⟨h2, h8, -⟩ := Params.legal_parts hP
  by_cases hmask : mask = 0#16
  · subst hmask
    refine ⟨_, evalStage_of_empty w (hplen.trans (by rw [compile, if_pos rfl]; rfl)), ?_⟩
    rw [if_pos (by rw [BitVec.and_zero, BitVec.and_zero])]; rfl
  · have hmicro := compile_isMicro s.params.lmax mask value
    have hprog : (s.startEval w).AtProgram k (compile s.params.lmax mask value) :=
      { micro := hmicro
        expressible := compile_wf hP mask value
        ends := by rw [State.startEval_plen, hplen, assemble_length]; exact Nat.zero_add _
        within := hbudget
        slots := fun a b hb => by simpa using hslots a b hb
        bits := by simpa using compile_bits_le s.params.lmax mask value
        running := rfl }
    have hfuel : (compile s.params.lmax mask value).length < s.plen.get k + 1 := by
      rw [hplen, assemble_length, Nat.lt_succ_iff]
      exact length_le_cost hmicro
    obtain ⟨t, ht, hres⟩ := evalLoop_of_scan _ hprog hfuel (compile_scans h2 h8 hmask value) (Nat.zero_add 16)
    refine ⟨t, ht, ?_⟩
    rcases hres with ⟨hr, hagree⟩ | ⟨hr, hagree⟩ <;>
      simp only [State.startEval_seq, agreeFrom_word_iff] at hagree
    · rw [hr, if_pos hagree]
    · rw [hr, if_neg hagree]

/-- A loaded stage is masked equality with its mask and value. -/
theorem State.StageLoaded.evalStage_maskedEquality {s : State} {i : StageIx} (hP : s.params.legal = true)
    (h : s.StageLoaded i) (w : Word) : ∃ u, Machine.evalStage i w s = .next u ∧
      u.seq.result = some (if w &&& (s.cfg.stages.get i).mask = (s.cfg.stages.get i).value &&& (s.cfg.stages.get i).mask
        then .matched else .noMatch) := by
  obtain ⟨hplen, hbudget, hslots⟩ := h
  exact compiledProgramIsMaskedEquality s i _ _ w hP hplen (hplen.trans_le hbudget) hslots

/-- A `Run` that ends in `Armed` took R194's way: it was not refused. -/
theorem State.runSession_armed {s : State} (hidle : s.ctl.state = .idle) (harmed : s.runSession.ctl.state = .armed) :
    s.overBudget = false ∧ s.runSession = (s.loadStages [0, 1, 2, 3]).arm := by
  have refused : ∀ e, e ≠ .hardwareFault → s.runSession ≠ s.raiseError e := by
    intro e he heq
    rw [heq, State.raiseError_ctl _ _ he] at harmed
    exact absurd (hidle.symm.trans harmed) (by decide)
  rcases s.runSession_cases with ⟨-, heq⟩ | ⟨-, -, heq⟩ | ⟨-, hbudget, heq⟩
  · exact absurd heq (refused _ (by decide))
  · exact absurd heq (refused _ (by decide))
  · exact ⟨hbudget, heq⟩

/-- Settles O20: a `Run` that arms has loaded every configured stage, and left the configuration as the host wrote it. -/
theorem armedStagesImplementMaskedEquality : Obligations.ArmedStagesImplementMaskedEquality := by
  unfold Obligations.ArmedStagesImplementMaskedEquality
  intro s t i w hP hidle hrun harmed hi
  obtain rfl : s.runSession = t := by
    rw [exec, execRun, if_pos hidle] at hrun
    exact Host.Outcome.next.inj hrun
  obtain ⟨hbudget, heq⟩ := State.runSession_armed hidle harmed
  obtain ⟨hparams, hcfg, -⟩ := s.runSession_frame
  have hloaded : s.runSession.StageLoaded i := by
    rw [heq]
    exact (State.loadStages_stageLoaded hbudget hi).congr rfl rfl rfl rfl
  rw [← hcfg]
  exact hloaded.evalStage_maskedEquality (hparams ▸ hP) w

/-! ### A stall is a HardwareFault (R114, R206, R255) -/

/-- Settles O42: a stall in the working registers is the chain's stall, and the tick then raises the error without a
write. -/
theorem stallRaisesHardwareFault : Obligations.StallRaisesHardwareFault := by
  unfold Obligations.StallRaisesHardwareFault
  intro s u p hclk hstate heval hstall
  obtain ⟨q, rfl, -⟩ := evalStage_next heval
  have hsampling : s.sampling = true := s.sampling_iff.2 ⟨hclk, hstate.imp_right .inl⟩
  have hbefore : s.ctl.state ≠ .postTrigger := by rcases hstate with h | h <;> rw [h] <;> decide
  have hchain : State.chainDecide { s.setCtl .capturing with seq := q } =
      ({ s.setCtl .capturing with seq := q }, .stall) := by
    rw [State.chainDecide, hstall]
  rw [tick, if_pos hsampling, if_neg hbefore, captureTick, State.setCtl_chain, heval, andThen_next, hchain]
  exact congrArg Host.Outcome.next (State.raiseError_hardwareFault_eq _)

end Sys2Proof.Machine
end

section
/-! SUPPORT. O15, O18, O24 and O25: the compiler's scan, what `load` writes and leaves, and the `Run` that arms. -/

namespace Sys2Proof.Machine

/-- Settles O15: the predicate `Scans` holds of what the compiler emits, run by run (`scans_compileFrom`). -/
theorem compilerScansMaximalRuns : Obligations.CompilerScansMaximalRuns := by
  unfold Obligations.CompilerScansMaximalRuns
  intro lmax mask value h2 h8 hmask
  exact compile_scans h2 h8 hmask value

/-! ### The loader, slot by slot (R138, R282) -/

section
variable {s t : State} {k : StageIx}

/-- A slot depends on its own bank and on the number of erasures. -/
theorem State.imemSlot_congr_bank (hbank : t.imem.get k = s.imem.get k) (hepoch : t.epoch = s.epoch) (a : Nat) :
    t.imemSlot k a = s.imemSlot k a := by
  rw [State.imemSlot, State.imemSlot, hbank, hepoch]

theorem State.load_imem_same (s : State) (k : StageIx) (ops : List Instr) :
    (s.load k ops).imem.get k = Memory.writeList (s.imem.get k) 0 (assemble ops) := by
  rw [State.load, State.loadSlots_imem, Four.get_set_same]

theorem State.load_plen (s : State) (k : StageIx) (ops : List Instr) :
    (s.load k ops).plen = s.plen.set k (cost ops) := by
  rw [State.load, State.loadSlots_plen, assemble_length]

theorem State.imemSlot_load_inside {ops : List Instr} {a : Nat} {b : Byte} (hab : (assemble ops)[a]? = some b) :
    (s.load k ops).imemSlot k a = b := by
  have hlt : a < (assemble ops).length := (List.getElem?_eq_some_iff.1 hab).1
  have hread := Memory.read?_writeList_inside (assemble ops) (s.imem.get k) 0 a hlt
  rw [Nat.zero_add, hab] at hread
  rw [State.imemSlot, State.load_imem_same, hread, Option.getD_some]

theorem State.imemSlot_load_beyond {ops : List Instr} {a : Nat} (ha : cost ops ≤ a) :
    (s.load k ops).imemSlot k a = s.imemSlot k a := by
  have hout : 0 + (assemble ops).length ≤ a := by rwa [Nat.zero_add, assemble_length]
  rw [State.imemSlot, State.load_imem_same, Memory.read?_writeList_outside _ _ _ _ (.inr hout)]
  rfl

theorem State.imemSlot_load_other (ops : List Instr) {k' : StageIx} (hne : k' ≠ k) (a : Nat) :
    (s.load k ops).imemSlot k' a = s.imemSlot k' a := by
  have hbank : (s.load k ops).imem.get k' = s.imem.get k' := by
    rw [State.load, State.loadSlots_imem, Four.get_set_ne _ _ hne]
  exact State.imemSlot_congr_bank hbank rfl a

end

/-- Settles O18: the slots are read through the memory's rules for a run of cells; the frame is that of `loadSlots`. -/
theorem loadWritesTheProgram : Obligations.LoadWritesTheProgram := by
  unfold Obligations.LoadWritesTheProgram
  intro s k ops _
  exact ⟨assemble_length ops, fun _ _ => State.imemSlot_load_inside, fun _ => State.imemSlot_load_beyond,
    fun _ a hne => State.imemSlot_load_other ops hne a, s.load_plen k ops, rfl⟩

/-! ### The `Run` that arms (R194) -/

/-- `Run` in `Idle` with a valid configuration within budget loads the stages and arms. -/
theorem exec_run_arms {s : State} (hidle : s.ctl.state = .idle) (hvalid : s.validate = true)
    (hbudget : ∀ i : StageIx, i.val < s.stageCount → cost (s.stageProgram i) ≤ s.params.budget) :
    exec .run s = .next (s.loadStages [0, 1, 2, 3]).arm := by
  rw [exec, execRun, if_pos hidle, State.runSession, hvalid, s.overBudget_eq_false.2 hbudget]
  rfl

/-- A configured stage's bank and program length after all loads are those after its own load (R194). -/
theorem State.loadStages_configured (s : State) {i : StageIx} (hi : i.val < s.stageCount) :
    (s.loadStages [0, 1, 2, 3]).imem.get i = (s.load i (s.stageProgram i)).imem.get i ∧
      (s.loadStages [0, 1, 2, 3]).plen.get i = cost (s.stageProgram i) := by
  obtain ⟨himem, hplen⟩ := State.loadStages_get [0, 1, 2, 3] s i (by decide)
  rw [if_pos ⟨mem_allStages i, hi⟩] at himem hplen
  exact ⟨himem, by rw [hplen, State.load_plen, Four.get_set_same]⟩

/-- Settles O24: the loads change the instruction memories alone and arming the registers R194 names; each configured
bank is as its own load left it. -/
theorem runArmsAValidConfiguration : Obligations.RunArmsAValidConfiguration := by
  unfold Obligations.RunArmsAValidConfiguration
  intro s hidle hvalid hbudget
  obtain ⟨im, pl, hframe⟩ := State.loadStages_frame [0, 1, 2, 3] s
  refine ⟨_, exec_run_arms hidle hvalid hbudget, by rw [hframe]; rfl, fun i hi => ?_, fun i hi => ?_⟩
  · obtain ⟨hbank, hplen⟩ := s.loadStages_configured hi
    have hslot : ∀ a, (s.loadStages [0, 1, 2, 3]).arm.imemSlot i a = (s.load i (s.stageProgram i)).imemSlot i a :=
      State.imemSlot_congr_bank hbank (by rw [hframe]; rfl)
    exact ⟨hplen, fun a b hab => (hslot a).trans (State.imemSlot_load_inside hab),
      fun a ha => (hslot a).trans (State.imemSlot_load_beyond ha)⟩
  · exact And.symm (s.loadStages_unconfigured (by decide) hi)

/-- Settles O25: a compiled program costs at most 16 slots, so the budget refuses no stage. -/
theorem sixteenSlotsNeverOverflow : Obligations.SixteenSlotsNeverOverflow := by
  unfold Obligations.SixteenSlotsNeverOverflow
  intro s hP hsixteen hidle hvalid
  obtain ⟨h2, h8, -⟩ := Params.legal_parts hP
  have hbudget : ∀ i : StageIx, i.val < s.stageCount → cost (s.stageProgram i) ≤ s.params.budget := by
    intro i _
    obtain ⟨-, hcost, -⟩ :=
      compiledProgramsKeepTheirBounds s.params (s.cfg.stages.get i).mask (s.cfg.stages.get i).value h2 h8
    exact hcost.trans hsixteen
  exact ⟨_, exec_run_arms hidle hvalid hbudget, rfl, rfl⟩

end Sys2Proof.Machine
end

section
/-! SUPPORT. O39, O40 and O41: a tick before the trigger whose evaluation does not stall. What the chain decides is one
equation per branch (R153 to R158), what a sample write leaves behind is `State.Wrote`, and a quiet tick and a firing tick
are each the write of R196 after the chain's decision. -/

namespace Sys2Proof.Machine

/-! ### What the chain decides on a result (R153 to R158) -/

/-- No match leaves the chain alone (R153). -/
theorem State.chainDecide_noMatch {s : State} (hr : s.seq.result = some .noMatch) : s.chainDecide = (s, .quiet) := by
  rw [State.chainDecide, hr]

/-- The chain's registers after a match that does not fire: a settling stage counts, a settled one hands over to its
successor if it has one (R154, R155, R158). -/
def State.chainAfterMatch (s : State) : Chain :=
  if s.chain.settle < (s.cfg.stages.get s.chain.stage).delay then
    { stage := s.chain.stage, settle := s.chain.settle + 1 }
  else if (s.cfg.stages.get s.chain.stage).nextv = true then
    { stage := (s.cfg.stages.get s.chain.stage).next, settle := 0 }
  else s.chain

/-- A match on a stage that is settling, or that does not start capture, is quiet (R154, R155, R158). -/
theorem State.chainDecide_matched_quiet {s : State} (hr : s.seq.result = some .matched)
    (hq : s.chain.settle < (s.cfg.stages.get s.chain.stage).delay ∨ (s.cfg.stages.get s.chain.stage).starts = false) :
    s.chainDecide = ({ s with chain := s.chainAfterMatch }, .quiet) := by
  rw [State.chainDecide, hr]
  dsimp only [State.chainMatched, State.chainAfterMatch]
  by_cases hsettling : s.chain.settle < (s.cfg.stages.get s.chain.stage).delay
  · rw [if_pos hsettling, if_pos hsettling]
  · have hstarts := hq.resolve_left hsettling
    rw [if_neg hsettling, if_neg hsettling, if_neg (by simp [hstarts])]
    by_cases hnext : (s.cfg.stages.get s.chain.stage).nextv = true
    · rw [if_pos hnext, if_pos hnext]
    · rw [if_neg hnext, if_neg hnext]

/-- A match on a settled capture stage fires, and the chain keeps its registers (R156). -/
theorem State.chainDecide_matched_fire {s : State} (hr : s.seq.result = some .matched)
    (hsettled : s.chain.settle = (s.cfg.stages.get s.chain.stage).delay)
    (hstarts : (s.cfg.stages.get s.chain.stage).starts = true) : s.chainDecide = (s, .fire) := by
  have hfire := s.chainDecide_fire.2 ⟨hr, hsettled ▸ BitVec.lt_irrefl _, hstarts⟩
  exact Prod.ext (s.chainDecide_fire_state hfire) hfire

/-! ### The tick, by what the chain decides (R195, R196) -/

section
variable {s u v : State} {p : Word}

/-- Before the trigger a tick that is taken is step (3) of R196 in `Capturing` (R195). -/
theorem tick_beforeTrigger (hclk : s.ctl.clken = true) (hstate : s.ctl.state = .armed ∨ s.ctl.state = .capturing) :
    tick p s = captureTick p (s.setCtl .capturing) := by
  have hbefore : s.ctl.state ≠ .postTrigger := by rcases hstate with h | h <;> rw [h] <;> decide
  rw [tick, if_pos (s.sampling_iff.2 ⟨hclk, hstate.imp_right .inl⟩), if_neg hbefore]

theorem captureTick_quiet (heval : evalStage s.chain.stage p s = .next u) (hchain : u.chainDecide = (v, .quiet)) :
    captureTick p s = storeSample p v := by
  rw [captureTick, heval, andThen_next, hchain]

theorem captureTick_fire (heval : evalStage s.chain.stage p s = .next u) (hchain : u.chainDecide = (v, .fire)) :
    captureTick p s = storeSample p v.fire := by
  rw [captureTick, heval, andThen_next, hchain]

end

/-! ### The sample write and the countdown (R171 to R173, R198) -/

/-- The countdown leaves the inputs still to come and the read-port result alone. -/
theorem State.countDown_inputs (s : State) :
    s.countDown.ports.inbox = s.ports.inbox ∧ s.countDown.ports.reply = s.ports.reply := by
  unfold State.countDown
  split
  · dsimp only; split <;> exact ⟨rfl, rfl⟩
  · exact ⟨rfl, rfl⟩

/-- In `PostTrigger` with a sample to come, the countdown counts it, and the last one completes the capture (R198). -/
theorem State.countDown_postTrigger {s : State} (hs : s.ctl.state = .postTrigger) (hc : 1 ≤ s.ring.countdown.toNat) :
    s.countDown = { s with
      ring := { s.ring with countdown := s.ring.countdown - 1 }
      ctl := if s.ring.countdown.toNat = 1 then { s.ctl with state := .captured, clken := false } else s.ctl
      ports := { s.ports with
        events := s.ports.events ++ if s.ring.countdown.toNat = 1 then [.done] else [] } } := by
  by_cases hlast : s.ring.countdown.toNat = 1
  · have hzero : s.ring.countdown - 1 = 0#32 := by bv_omega
    rw [s.countDown_last hs hlast, if_pos hlast, if_pos hlast, hzero]
  · rw [s.countDown_more hs (by omega), if_neg hlast, if_neg hlast, List.append_nil]

/-- Storing a sample is the write of R171 to R173, whatever the countdown then does. -/
theorem storeSample_wrote {s t : State} {p : Word} (ht : storeSample p s = .next t) : State.Wrote p s t := by
  obtain ⟨hparams, himem, hplen, hcfg, hepoch, -⟩ := storeSample_frame ht
  have hothers := (storeSample_writesSlot ht).outside
  obtain ⟨-, rfl⟩ := storeSample_eq_next.1 ht
  obtain ⟨cd, hring⟩ := (s.writeSample (pack s.cfg.groups p)).countDown_ring
  obtain ⟨hinbox, hreply⟩ := (s.writeSample (pack s.cfg.groups p)).countDown_inputs
  refine ⟨?_, hothers, by simp, by simp, hparams, hcfg, himem, hplen, hepoch, by simp [hring], by simp [hring],
    by simp [hinbox], by simp [hreply]⟩
  rw [State.sampleAt_congr (s := s.writeSample (pack s.cfg.groups p)) (by simp) (by simp) (by simp)]
  exact s.sampleAt_writeSample_same (pack_lt _ _)

/-- `State.Wrote` does not depend on the controller, the chain, the working registers, the trigger registers and the
events of the state before the write. -/
theorem State.Wrote.of_update {s t : State} {p : Word} {ctl : Controller} {chain : Chain} {seq : Sequencer} {trig : Nat}
    {trigv : Bool} {cd : BitVec 32} {events : List Event}
    (h : State.Wrote p { s with
      ctl := ctl, chain := chain, seq := seq
      ring := { s.ring with trig := trig, trigv := trigv, countdown := cd }
      ports := { s.ports with events := events } } t) : State.Wrote p s t :=
  ⟨h.stored, h.others, h.cursor, h.filled, h.params, h.cfg, h.imem, h.plen, h.epoch, h.rd, h.remain, h.inbox, h.reply⟩

/-- Outside `PostTrigger` storing a sample is the write alone (R196). -/
theorem storeSample_beforeTrigger {s : State} (p : Word) (hs : s.ctl.state ≠ .postTrigger) (hwr : s.ring.wr < s.cap) :
    ∃ t, storeSample p s = .next t ∧ State.Wrote p s t ∧ t.ctl = s.ctl ∧ t.chain = s.chain ∧
      t.ring.trig = s.ring.trig ∧ t.ring.trigv = s.ring.trigv ∧ t.ring.countdown = s.ring.countdown ∧
      t.ports.events = s.ports.events ++ s.wrapEvents := by
  have ht : storeSample p s = .next (s.writeSample (pack s.cfg.groups p)).countDown :=
    storeSample_eq_next.2 ⟨hwr, rfl⟩
  refine ⟨_, ht, storeSample_wrote ht, ?_⟩
  rw [State.countDown_other _ (by simpa using hs)]
  simp [State.wrapEvents]

/-- In `PostTrigger` storing a sample also counts it, and the last one completes the capture (R196, R198). -/
theorem storeSample_postTrigger {s : State} (p : Word) (hs : s.ctl.state = .postTrigger) (hwr : s.ring.wr < s.cap)
    (hc : 1 ≤ s.ring.countdown.toNat) :
    ∃ t, storeSample p s = .next t ∧ State.Wrote p s t ∧ t.chain = s.chain ∧ t.seq = s.seq ∧
      t.ring.trig = s.ring.trig ∧ t.ring.trigv = s.ring.trigv ∧ t.ring.countdown.toNat = s.ring.countdown.toNat - 1 ∧
      t.ctl = (if s.ring.countdown.toNat = 1 then { s.ctl with state := .captured, clken := false } else s.ctl) ∧
      t.ports.events = s.ports.events ++ s.wrapEvents ++ (if s.ring.countdown.toNat = 1 then [.done] else []) := by
  have ht : storeSample p s = .next (s.writeSample (pack s.cfg.groups p)).countDown :=
    storeSample_eq_next.2 ⟨hwr, rfl⟩
  refine ⟨_, ht, storeSample_wrote ht, ?_⟩
  have hdec : (s.ring.countdown - 1#32).toNat = s.ring.countdown.toNat - 1 := by bv_omega
  rw [State.countDown_postTrigger (by simpa using hs) (by simpa using hc)]
  simp [hdec, State.wrapEvents, -BitVec.toNat_sub]

/-! ### The quiet tick and the firing tick (R153 to R156, R196, R197) -/

/-- A tick on which the chain is quiet completes in `Capturing` with the sample written (R153 to R155, R158, R196). -/
theorem tick_quiet {s u : State} {p : Word} {c : Chain} (hclk : s.ctl.clken = true)
    (hstate : s.ctl.state = .armed ∨ s.ctl.state = .capturing)
    (heval : evalStage s.chain.stage p (s.setCtl .capturing) = .next u) (hwr : s.ring.wr < s.cap)
    (hchain : u.chainDecide = ({ u with chain := c }, .quiet)) :
    ∃ t, tick p s = .next t ∧ State.Wrote p s t ∧ t.ctl = { s.ctl with state := .capturing } ∧ t.chain = c ∧
      t.ring.trig = s.ring.trig ∧ t.ring.trigv = s.ring.trigv ∧ t.ring.countdown = s.ring.countdown ∧
      t.ports.events = s.ports.events ++ s.wrapEvents := by
  have htick := (tick_beforeTrigger hclk hstate).trans (captureTick_quiet heval hchain)
  obtain ⟨q, rfl, -⟩ := evalStage_next heval
  obtain ⟨t, hstore, hwrote, hframe⟩ :=
    storeSample_beforeTrigger (s := { s.setCtl .capturing with seq := q, chain := c }) p (by simp) hwr
  exact ⟨t, htick.trans hstore, hwrote.of_update (s := s), hframe⟩

/-- `COUNTDOWN` holds all of `effPost` when the chain has fired (R175, R197). -/
theorem State.fire_countdown_toNat (s : State) : s.fire.ring.countdown.toNat = s.effPost := by
  rw [State.fire_ring, BitVec.toNat_ofNat, Nat.mod_eq_of_lt s.effPost_lt]

/-- Settles O39: the chain is quiet on a mismatch and keeps its registers. -/
theorem tickWithoutMatchOnlyWrites : Obligations.TickWithoutMatchOnlyWrites := by
  unfold Obligations.TickWithoutMatchOnlyWrites
  intro s u p hclk hstate heval hresult hwr
  obtain ⟨q, rfl, -⟩ := evalStage_next heval
  exact tick_quiet hclk hstate heval hwr (State.chainDecide_noMatch hresult)

/-- Settles O40: the chain is quiet on such a match, and its registers become `chainAfterMatch`. -/
theorem tickWithMatchSettlesOrAdvances : Obligations.TickWithMatchSettlesOrAdvances := by
  unfold Obligations.TickWithMatchSettlesOrAdvances
  intro s u p hclk hstate heval hresult hwr hstage
  obtain ⟨q, rfl, -⟩ := evalStage_next heval
  exact tick_quiet hclk hstate heval hwr (State.chainDecide_matched_quiet hresult (hstage.imp_right And.right))

/-- Settles O41: the chain fires, and the sample is then stored in `PostTrigger` with `COUNTDOWN` = `effPost`. -/
theorem tickFiresTheTrigger : Obligations.TickFiresTheTrigger := by
  unfold Obligations.TickFiresTheTrigger
  intro s u p hclk hstate heval hresult hwr hsettled hstarts heff
  have htick := tick_beforeTrigger (p := p) hclk hstate
  obtain ⟨q, rfl, -⟩ := evalStage_next heval
  have hfire := State.chainDecide_matched_fire (s := { s.setCtl .capturing with seq := q }) hresult hsettled hstarts
  have hcount : (State.fire { s.setCtl .capturing with seq := q }).ring.countdown.toNat = s.effPost :=
    State.fire_countdown_toNat _
  obtain ⟨t, hstore, hwrote, hchain, -, htrig, htrigv, hcd, hctl, hevents⟩ :=
    storeSample_postTrigger (s := State.fire { s.setCtl .capturing with seq := q }) p rfl hwr (hcount.symm ▸ heff)
  rw [hcount] at hcd hctl hevents
  refine ⟨t, (htick.trans (captureTick_fire heval hfire)).trans hstore, hwrote.of_update (s := s), hchain, htrig, htrigv,
    hcd, fun hle _ => ?_, hctl, hevents⟩
  rw [hcd, ← s.effPost_of_le hle]
  omega

end Sys2Proof.Machine
end

section
/-! SUPPORT. O46: what the write of one sample does to the record of the session, and the tick that makes the write. A
quiet tick stays in `Capturing`, where the record is all there is to keep; a firing tick and the ticks after it count the
samples from the trigger on, and both are one store in `PostTrigger`. -/

namespace Sys2Proof.Machine

/-! ### The record, by the state of the controller -/

section
variable {s t : State} {h : List Word} {K : Nat} {p : Word}

theorem State.recorded_capturing (hs : s.ctl.state = .capturing) : s.Recorded h K ↔ s.Holds h := by
  simp [State.Recorded, hs]

theorem State.recorded_postTrigger (hs : s.ctl.state = .postTrigger) :
    s.Recorded h K ↔ s.Holds h ∧ s.ring.trig = K % s.cap ∧ K < h.length ∧ 1 ≤ s.ring.countdown.toNat ∧
      h.length + s.ring.countdown.toNat = K + s.effPost := by
  simp [State.Recorded, hs]

theorem State.recorded_captured (hs : s.ctl.state = .captured) :
    s.Recorded h K ↔ s.Holds h ∧ s.ring.trig = K % s.cap ∧ h.length = K + s.effPost := by
  simp [State.Recorded, hs]

/-! ### The write of one sample (R171, R173, R181) -/

/-- The record depends on the sample store, its geometry and the write side of the buffer. -/
theorem State.Holds.congr (hh : s.Holds h) (hp : t.params = s.params) (hc : t.cfg = s.cfg) (hb : t.buf = s.buf)
    (he : t.epoch = s.epoch) (hwr : t.ring.wr = s.ring.wr) (hfill : t.ring.fill = s.ring.fill) : t.Holds h := by
  obtain ⟨hcursor, hcount, hsamples⟩ := hh
  have hcap := State.cap_congr hp hc
  refine ⟨by rw [hwr, hcap, hcursor], by rw [hfill, hcap, hcount], fun n v hlive hv => ?_⟩
  rw [hcap] at hlive ⊢
  rw [State.sampleAt_congr hb he hc, hsamples n v hlive hv]

theorem State.Wrote.cap (hw : State.Wrote p s t) : t.cap = s.cap := State.cap_congr hw.params hw.cfg

/-- The write of one slot leaves the sample in every other slot alone. -/
theorem State.Wrote.sampleAt_other (hw : State.Wrote p s t) {slot : Nat} (hne : slot ≠ s.ring.wr) :
    t.sampleAt slot = s.sampleAt slot := by
  rw [State.sampleAt, State.groupCount_congr hw.cfg,
    State.nibbles_of_same _ _ fun j hj => hw.others _ (slot_cells_disjoint hne hj)]
  rfl

/-- Two indices less than `c` apart have different slots. -/
theorem mod_ne_mod_of_lt {n m c : Nat} (hlt : n < m) (hnear : m < n + c) : n % c ≠ m % c := fun heq => by
  have hdvd : c ∣ m - n := (Nat.modEq_iff_dvd' hlt.le).1 heq
  have hle := Nat.le_of_dvd (by omega) hdvd
  omega

/-- The write appends its sample to the record: the slot at `WR` was that of the sample the new one overwrites, and of no
other sample that is still in the buffer. -/
theorem State.Holds.append (hh : s.Holds h) (hw : State.Wrote p s t) :
    t.Holds (h ++ [pack s.cfg.groups p]) := by
  obtain ⟨hcursor, hcount, hsamples⟩ := hh
  have hlen : (h ++ [pack s.cfg.groups p]).length = h.length + 1 := by simp
  refine ⟨?_, ?_, fun n v hlive hv => ?_⟩
  · rw [hw.cursor, hw.cap, hcursor, hlen, Nat.mod_add_mod]
  · rw [hw.filled, hw.cap, hcount, hlen]; omega
  · rw [hlen, hw.cap] at hlive
    rw [hw.cap]
    by_cases hold : n < h.length
    · rw [List.getElem?_append_left hold] at hv
      have hslot : n % s.cap ≠ s.ring.wr := hcursor ▸ mod_ne_mod_of_lt hold (by omega)
      rw [hw.sampleAt_other hslot, hsamples n v (by omega) hv]
    · have hn : n = h.length := by
        have := (List.getElem?_eq_some_iff.1 hv).1
        omega
      subst hn
      rw [List.getElem?_concat_length] at hv
      rw [← hcursor, hw.stored, Option.some.inj hv]

/-! ### The store, before and after the trigger (R174, R175, R198) -/

/-- Before the trigger the store appends to the record, and nothing else is to be kept. -/
theorem State.Holds.storeSample_capturing (hh : s.Holds h) (hs : s.ctl.state = .capturing)
    (ht : storeSample p s = .next t) : t.Recorded (h ++ [pack s.cfg.groups p]) K := by
  obtain ⟨hwr, -⟩ := storeSample_eq_next.1 ht
  obtain ⟨t', ht', hwrote, hctl, -⟩ := storeSample_beforeTrigger p (by rw [hs]; decide) hwr
  obtain rfl : t = t' := Host.Outcome.next.inj (ht.symm.trans ht')
  exact (State.recorded_capturing (by rw [hctl, hs])).2 (hh.append hwrote)

/-- From the trigger on, the trigger sample included, the store appends to the record and counts its sample. -/
theorem State.Holds.storeSample_postTrigger (hh : s.Holds h) (hs : s.ctl.state = .postTrigger)
    (htrig : s.ring.trig = K % s.cap) (hK : K ≤ h.length) (hpos : 1 ≤ s.ring.countdown.toNat)
    (hcount : h.length + s.ring.countdown.toNat = K + s.effPost) (ht : storeSample p s = .next t) :
    t.Recorded (h ++ [pack s.cfg.groups p]) K := by
  obtain ⟨hwr, -⟩ := storeSample_eq_next.1 ht
  obtain ⟨t', ht', hwrote, -, -, htrig', -, hcd, hctl, -⟩ := Machine.storeSample_postTrigger p hs hwr hpos
  obtain rfl : t = t' := Host.Outcome.next.inj (ht.symm.trans ht')
  have hslot : t.ring.trig = K % t.cap := by rw [htrig', htrig, hwrote.cap]
  have heff : t.effPost = s.effPost := State.effPost_congr hwrote.params hwrote.cfg
  have hlen : (h ++ [pack s.cfg.groups p]).length = h.length + 1 := by simp
  by_cases hlast : s.ring.countdown.toNat = 1
  · rw [if_pos hlast] at hctl
    exact (State.recorded_captured (by rw [hctl])).2 ⟨hh.append hwrote, hslot, by omega⟩
  · rw [if_neg hlast] at hctl
    exact (State.recorded_postTrigger (by rw [hctl, hs])).2
      ⟨hh.append hwrote, hslot, by omega, by omega, by omega⟩

end

/-- Settles O46, by what the chain tells the controller: the stall ends in `Fault`, and the quiet tick, the firing tick and
the tick after the trigger are each one store. -/
theorem tickExtendsTheRecord : Obligations.TickExtendsTheRecord := by
  unfold Obligations.TickExtendsTheRecord
  intro s t p h K hk hrec hpost ht hok
  by_cases hs : s.ctl.state = .postTrigger
  · rw [if_pos hs]
    obtain ⟨hh, htrig, hK, hpos, hcount⟩ := (State.recorded_postTrigger hs).1 hrec
    exact hh.storeSample_postTrigger hs htrig hK.le hpos hcount ((tick_postTrigger p hk hs).symm.trans ht)
  · rw [if_neg hs]
    obtain ⟨hh, -⟩ := hrec
    obtain ⟨u, q, -, rfl, -, ⟨-, rfl⟩ | ⟨-, -, hstore⟩ | ⟨-, hstore⟩⟩ := captureTick_cases hk hs ht
    · exact absurd (by simp) hok
    · have hcd := State.fire_countdown_toNat { s.setCtl .capturing with seq := q }
      have hfired : (State.fire { s.setCtl .capturing with seq := q }).Holds h := hh.congr rfl rfl rfl rfl rfl rfl
      exact hfired.storeSample_postTrigger rfl hh.1 le_rfl (hcd ▸ s.effPost_pos hpost) (by rw [hcd]; rfl) hstore
    · rw [State.chainDecide_frame] at hstore
      have hheld : State.Holds { s.setCtl .capturing with
          seq := q, chain := (State.chainDecide { s.setCtl .capturing with seq := q }).1.chain } h :=
        hh.congr rfl rfl rfl rfl rfl rfl
      exact hheld.storeSample_capturing rfl hstore

end Sys2Proof.Machine
end

section
/-! SUPPORT. O47, O49 and O50: the read port. `BeginRead` in `Captured` is one equation whose window is arithmetic modulo
`CAP_SAMPLES`; `ReadNext` in `Streaming` is one equation too, and the readback is an induction on the samples still to be
delivered (`State.Delivers`). What a written slot reads as does not depend on the unspecified contents of the store. -/

namespace Sys2Proof.Machine

/-! ### `BeginRead` (R176, R177, R201) -/

section
variable {s : State}

theorem beginRead_elsewhere (hs : s.ctl.state ≠ .captured) : beginRead s = .next s := if_neg hs

/-- What `BeginRead` does in `Captured`: the window of R176 is opened and flagged, and the pair of R201 returned. -/
theorem beginRead_captured (hs : s.ctl.state = .captured) (hcap : 1 ≤ s.cap) :
    beginRead s = .next { s with
      ring := s.openWindow.ring
      ctl :=
        (if s.openWindow.ring.remain < s.cfg.total.toNat then
          { s.ctl with state := .streaming, trunc := true, err := .insufficientHistory }
        else { s.ctl with state := .streaming, trunc := false })
      ports := { s.ports with
        events := s.ports.events ++ (if s.openWindow.ring.remain < s.cfg.total.toNat then [.err] else [])
        reply := some (.window s.openWindow.ring.remain (decide (s.openWindow.ring.remain < s.cfg.total.toNat))) } } := by
  rw [beginRead, if_pos hs, if_neg (by omega)]
  simp only [State.flagTruncation_eq, State.openWindow_cfg]
  by_cases hshort : s.openWindow.ring.remain < s.cfg.total.toNat
  · simp [hshort, State.setCtl, State.respond]
  · simp [hshort, State.setCtl, State.respond]

/-- The window starts at a slot of the buffer. -/
theorem State.openWindow_rd_lt (hcap : 1 ≤ s.cap) : s.openWindow.ring.rd < s.cap := by
  have hpos : (0 : Int) < s.cap := by omega
  have hlt := Int.emod_lt_of_pos ((s.ring.trig : Int) - s.historyCount) hpos
  simp only [State.openWindow]
  omega

/-- The window starts `d` slots before the trigger, around the buffer (R176). -/
theorem State.openWindow_rd_add (hcap : 1 ≤ s.cap) :
    (s.openWindow.ring.rd + s.historyCount) % s.cap = s.ring.trig % s.cap := by
  have hnonneg := Int.emod_nonneg ((s.ring.trig : Int) - s.historyCount) (b := s.cap) (by omega)
  have hrd : (s.openWindow.ring.rd : Int) = ((s.ring.trig : Int) - s.historyCount) % s.cap :=
    Int.toNat_of_nonneg hnonneg
  zify
  rw [hrd, Int.emod_add_emod, sub_add_cancel]

/-- `d` when `POST` is at most `TOTAL` and the samples from the trigger on are all kept (R176). -/
theorem State.historyCount_of_le (hle : s.cfg.post.toNat ≤ s.cfg.total.toNat) (hfill : s.effPost ≤ s.ring.fill) :
    s.historyCount = min (s.cfg.total.toNat - s.cfg.post.toNat) (s.ring.fill - s.effPost) := by
  rw [State.historyCount, s.pre_of_le hle, minus_of_le hfill]

end

/-- Settles O47: `BeginRead` outside `Captured` is discarded; in `Captured` p is `effPost`, d is `historyCount`, and the
window is that of `State.openWindow`. -/
theorem beginReadOpensTheWindow : Obligations.BeginReadOpensTheWindow := by
  unfold Obligations.BeginReadOpensTheWindow
  refine ⟨fun s rest hin hs => (step_of_input hin).trans (beginRead_elsewhere hs), ?_⟩
  intro s rest p d hin hs hcap hle hp hfill hd
  rw [← s.effPost_of_le hle] at hp
  subst hp
  rw [← State.historyCount_of_le hle hfill] at hd
  subst hd
  have hstep := (step_of_input hin).trans
    (beginRead_captured (s := { s with ports := { inbox := rest, events := [], reply := none } }) hs hcap)
  exact ⟨_, hstep, State.openWindow_rd_lt hcap, State.openWindow_rd_add hcap, rfl, rfl⟩

/-! ### `ReadNext` (R178, R202) -/

/-- What a slot reads as does not depend on the ports. -/
theorem State.sampleAt_withPorts (s : State) (ports : Ports) (slot : Nat) :
    State.sampleAt { s with ports := ports } slot = s.sampleAt slot :=
  State.sampleAt_congr (s := s) (t := { s with ports := ports }) rfl rfl rfl slot

/-- What `ReadNext` does in `Streaming`: the sample at `RD` is returned, and the last one ends the session. -/
theorem readNext_streaming {s : State} (hs : s.ctl.state = .streaming) (hrd : s.ring.rd < s.cap) :
    readNext s = .next
      ((if s.stepCursor.ring.remain = 0 then s.stepCursor.discardSession else s.stepCursor).respond
        (.sample (sampleWidth s.cfg.groups) (s.sampleAt s.ring.rd))) := by
  rw [readNext, if_pos hs, if_pos hrd]

/-- The read port has `vs` still to deliver: `REMAIN` counts them, and they stand in the slots from `RD` on, around the
buffer. -/
structure State.Delivers (s : State) (vs : List Word) : Prop where
  streaming : s.ctl.state = .streaming
  cursor : s.ring.rd < s.cap
  remain : s.ring.remain = vs.length
  samples : ∀ i v, vs[i]? = some v → s.sampleAt ((s.ring.rd + i) % s.cap) = v

section
variable {s : State} {v : Word} {vs : List Word} {rest : List Input}

/-- The sample at `RD` is the first one to deliver. -/
theorem State.Delivers.first (h : s.Delivers (v :: vs)) : s.sampleAt s.ring.rd = v := by
  have hfirst := h.samples 0 v rfl
  rwa [Nat.add_zero, Nat.mod_eq_of_lt h.cursor] at hfirst

/-- The cursor's step leaves the others to deliver. -/
theorem State.Delivers.stepCursor (h : s.Delivers (v :: vs)) : s.stepCursor.Delivers vs := by
  have hremain : s.ring.remain = vs.length + 1 := h.remain
  refine ⟨h.streaming, Nat.mod_lt _ (Nat.zero_lt_of_lt h.cursor), ?_, fun i w hw => ?_⟩
  · exact (minus_of_le (by omega)).trans (by omega)
  · have hslot : (s.stepCursor.ring.rd + i) % s.stepCursor.cap = (s.ring.rd + (i + 1)) % s.cap := by
      rw [State.stepCursor_ring, State.cap_congr s.stepCursor_params s.stepCursor_cfg, Nat.mod_add_mod,
        Nat.add_assoc, Nat.add_comm 1]
    rw [hslot, State.sampleAt_congr s.stepCursor_buf s.stepCursor_epoch s.stepCursor_cfg]
    exact h.samples (i + 1) w hw

/-- What is to be delivered does not depend on the ports. -/
theorem State.Delivers.withPorts (h : s.Delivers vs) (ports : Ports) : State.Delivers { s with ports := ports } vs :=
  ⟨h.streaming, h.cursor, h.remain, fun i w hw => (s.sampleAt_withPorts ports _).trans (h.samples i w hw)⟩

/-- `ReadNext` returns the first sample to deliver, and steps the cursor or, with the last one, ends the session. -/
theorem State.Delivers.readNext (h : s.Delivers (v :: vs)) :
    readNext s = .next ((if vs = [] then s.stepCursor.discardSession else s.stepCursor).respond
      (.sample (sampleWidth s.cfg.groups) v)) := by
  have hend : s.stepCursor.ring.remain = 0 ↔ vs = [] := by rw [h.stepCursor.remain, List.length_eq_zero_iff]
  rw [readNext_streaming h.streaming h.cursor, h.first, if_congr hend rfl rfl]

/-- The step that takes a `ReadNext`: the reply, and either the others to deliver or the end of the session. -/
theorem State.Delivers.step (h : s.Delivers (v :: vs)) (hin : s.ports.inbox = .readNext :: rest) :
    ∃ t, step s = .next t ∧ t.ports.reply = some (.sample (sampleWidth s.cfg.groups) v) ∧ t.ports.inbox = rest ∧
      (vs = [] → t.ctl = Controller.reset ∧ t.cfg = Session.reset ∧ t.ring = Ring.reset) ∧
      (vs ≠ [] → t.Delivers vs ∧ t.cfg = s.cfg) := by
  have hu := h.withPorts { inbox := rest, events := [], reply := none }
  refine ⟨_, (step_of_input hin).trans hu.readNext, rfl, ?_, fun hlast => ?_, fun hmore => ?_⟩
  · split <;> rfl
  · rw [if_pos hlast]; exact ⟨rfl, rfl, rfl⟩
  · rw [if_neg hmore]; exact ⟨hu.stepCursor.withPorts _, rfl⟩

end

/-! ### The readback (R176, R178, R181, R202) -/

theorem runReplies_succ {s t : State} {r : Reply} (h : step s = .next t) (hr : t.ports.reply = some r) (n : Nat) :
    runReplies (n + 1) s = (runReplies n t).map fun x => (r :: x.1, x.2) := by
  simp [runReplies, h, hr]

/-- As many `ReadNext` as there are samples to deliver deliver them in order and end the session. -/
theorem State.Delivers.runReplies {rest : List Input} (vs : List Word) : ∀ {s : State}, vs ≠ [] → s.Delivers vs →
    s.ports.inbox = List.replicate vs.length .readNext ++ rest →
    ∃ t, runReplies vs.length s = some (vs.map fun v => Reply.sample (sampleWidth s.cfg.groups) v, t) ∧
      t.ctl = Controller.reset ∧ t.cfg = Session.reset ∧ t.ring = Ring.reset ∧ t.ports.inbox = rest := by
  induction vs with
  | nil => intro s hne; exact absurd rfl hne
  | cons v vs ih =>
    intro s _ h hin
    obtain ⟨t, hstep, hreply, hinbox, hlast, hmore⟩ := h.step hin
    have hsucc := runReplies_succ hstep hreply vs.length
    by_cases hvs : vs = []
    · obtain ⟨hctl, hcfg, hring⟩ := hlast hvs
      subst hvs
      exact ⟨t, hsucc, hctl, hcfg, hring, hinbox⟩
    · obtain ⟨hdelivers, hcfg⟩ := hmore hvs
      obtain ⟨t', hrun, hreset⟩ := ih hvs hdelivers hinbox
      rw [hrun, hcfg] at hsucc
      exact ⟨t', hsucc, hreset⟩

/-- A window that starts `d` slots before that of sample K, and holds all samples of the record from K-d on, delivers
them: none of them has been overwritten (R176, R181). -/
theorem State.Holds.delivers {s : State} {h : List Word} {K d : Nat} (hh : s.Holds h) (hs : s.ctl.state = .streaming)
    (hrd : s.ring.rd < s.cap) (hstart : (s.ring.rd + d) % s.cap = K % s.cap) (hdK : d ≤ K)
    (hremain : s.ring.remain = h.length - (K - d)) (hfit : s.ring.remain ≤ s.cap) : s.Delivers (h.drop (K - d)) := by
  obtain ⟨-, -, hsamples⟩ := hh
  have hslot : s.ring.rd = (K - d) % s.cap := by
    have hmod : s.ring.rd + d ≡ (K - d) + d [MOD s.cap] := by rwa [Nat.sub_add_cancel hdK]
    rw [← Nat.mod_eq_of_lt hrd]
    exact hmod.add_right_cancel' d
  refine ⟨hs, hrd, by rw [hremain, List.length_drop], fun i v hv => ?_⟩
  rw [List.getElem?_drop] at hv
  rw [hslot, Nat.mod_add_mod]
  exact hsamples (K - d + i) v (by omega) hv

/-- Settles O49: `BeginRead` opens the window (O47) on the samples of `h` from K-d on, all of which are still in the
buffer; the `ReadNext`s then deliver them. -/
theorem readbackDeliversTheWindow : Obligations.ReadbackDeliversTheWindow := by
  unfold Obligations.ReadbackDeliversTheWindow
  intro s h K p d rest hs hrec hcap hpost hle hp hd hin
  obtain ⟨hh, htrig, hlen⟩ := (State.recorded_captured hs).1 hrec
  have hfill : s.ring.fill = min h.length s.cap := hh.2.1
  have heff : p = s.effPost := hp.trans (s.effPost_of_le hle).symm
  have hpos := s.effPost_pos hpost
  have hpcap := s.effPost_le_cap hcap
  have hdK : d ≤ K := by omega
  refine ⟨hdK, ?_⟩
  obtain ⟨u, hstep, hrd, hstart, hremain, hu⟩ :=
    beginReadOpensTheWindow.2 s _ p d hin hs hcap hle hp (by omega) (hfill ▸ hd)
  have hcfg : u.cfg = s.cfg := by rw [hu]
  have hucap : u.cap = s.cap := State.cap_congr (by rw [hu]) hcfg
  have hstreaming : u.ctl.state = .streaming := by rw [hu]; dsimp only; split <;> rfl
  have hreply : u.ports.reply = some (.window (d + p) (decide (d + p < s.cfg.total.toNat))) := by rw [hu]
  have hinbox : u.ports.inbox = List.replicate (d + p) .readNext ++ rest := by rw [hu]
  have hheld : u.Holds h := hh.congr (by rw [hu]) hcfg (by rw [hu]) (by rw [hu]) (by rw [hu]) (by rw [hu])
  rw [htrig, Nat.mod_mod, ← hucap] at hstart
  have hwindow := hheld.delivers hstreaming (hucap ▸ hrd) hstart hdK (by omega) (by omega)
  have hcount : (h.drop (K - d)).length = d + p := by rw [List.length_drop]; omega
  have hnonempty : h.drop (K - d) ≠ [] := List.ne_nil_of_length_pos (by omega)
  obtain ⟨t, hrun, hreset⟩ := hwindow.runReplies _ hnonempty (by rw [hcount, hinbox])
  rw [hcount, hcfg] at hrun
  refine ⟨t, ?_, hreset⟩
  rw [runReplies_succ hstep hreply, hrun, List.take_of_length_le hcount.le, Option.map_some]

/-! ### Written cells (R183, R282) -/

section
variable {s : State}

/-- A cell that has been written holds its value, whatever the unwritten ones hold. -/
theorem State.read?_eq_nibble {q : Nat} (hq : (Memory.read? s.buf q).isSome) :
    Memory.read? s.buf q = some (s.nibble q) := by
  obtain ⟨n, hn⟩ := Option.isSome_iff_exists.1 hq
  rw [State.nibble, hn, Option.getD_some]

/-- A slot whose cells have all been written reads the same with any other unspecified contents. -/
theorem State.sampleAt_withEpoch {slot : Nat} (e : Nat)
    (hw : ∀ j, j < s.groupCount → (Memory.read? s.buf (slot * s.groupCount + j)).isSome) :
    State.sampleAt { s with epoch := e } slot = s.sampleAt slot := by
  refine congrArg joinNibbles (State.nibbles_of_same s.groupCount (slot * s.groupCount) fun j hj => ?_)
  have hread := State.read?_eq_nibble (hw j hj)
  rw [State.nibble, hread, Option.getD_some]

/-- A sample is `SW` bits wide (R47). -/
theorem State.sampleAt_lt (slot : Nat) : (s.sampleAt slot).toNat < 2 ^ sampleWidth s.cfg.groups := by
  have hlt := joinNibbles_lt (s.nibbles (slot * s.groupCount) s.groupCount)
  rwa [State.nibbles_length] at hlt

/-- In a run's streaming state the cursor is in the buffer, on one of the `FILL` slots that have been written. -/
theorem State.Inv.rd_filled (h : s.Inv) (hs : s.ctl.state = .streaming) : s.ring.rd < s.cap ∧ s.ring.rd < s.ring.fill := by
  obtain ⟨-, -, hpos, -, hrd, hexact⟩ := (State.phaseOk_streaming hs).1 h.phase
  refine ⟨hrd, ?_⟩
  by_cases hfull : s.ring.fill < s.cap
  · have := hexact hfull
    omega
  · omega

/-- The step that takes a `ReadNext` in `Streaming` returns the sample at `RD` (R202). -/
theorem step_readNext_reply {rest : List Input} (hs : s.ctl.state = .streaming) (hrd : s.ring.rd < s.cap)
    (hin : s.ports.inbox = .readNext :: rest) :
    ∃ t, step s = .next t ∧ t.ports.reply = some (.sample (sampleWidth s.cfg.groups) (s.sampleAt s.ring.rd)) := by
  refine ⟨_, (step_of_input hin).trans (readNext_streaming hs hrd), ?_⟩
  rw [State.respond_ports, s.sampleAt_withPorts]

end

/-- Settles O50: the cells of the slot at `RD` have been written, so the reply is made of them alone. -/
theorem readbackNeverTouchesUnwrittenCells : Obligations.ReadbackNeverTouchesUnwrittenCells := by
  unfold Obligations.ReadbackNeverTouchesUnwrittenCells
  intro s rest hinv hs hin
  obtain ⟨hrd, hfilled⟩ := hinv.rd_filled hs
  have hwritten := fun j => (hinv.session (by simp [hs])).written s.ring.rd j hfilled
  obtain ⟨t, hstep, hreply⟩ := step_readNext_reply hs hrd hin
  refine ⟨t, _, hstep, hreply, s.sampleAt_lt _, hfilled, fun j hj => ?_, fun e => ?_⟩
  · rw [s.sampleAt_nibble _ hj]
    exact State.read?_eq_nibble (hwritten j hj)
  · obtain ⟨u, hstep', hreply'⟩ := step_readNext_reply (s := { s with epoch := e }) hs hrd hin
    refine ⟨u, hstep', ?_⟩
    rw [hreply', hreply, State.sampleAt_withEpoch e hwritten]

end Sys2Proof.Machine
end

section
/-! SUPPORT. O21, O55, O43, O37, O38 and O48: the controller. The checks of `Validate` are each said once, the walk of
R192 (d) by its round; a step moves `STATE` along an arc of R209, rule by rule; and an input that a state discards changes
nothing. -/

namespace Sys2Proof.Machine

/-! ### The checks of `Validate` (R192) -/

/-- No group is enabled exactly when the mask is 0 (R192 a). -/
theorem groupCount_eq_zero_iff : ∀ groups : BitVec 4, groupCount groups = 0 ↔ groups = 0#4 := by decide

/-- The low n of four bits are set and no other exactly when n counts the set bits and their number is 2^n - 1. -/
theorem lowBits_iff : ∀ (v : BitVec 4) (n : Fin 5),
    (∀ i : StageIx, v.getLsbD i.val = decide (i.val < n.val)) ↔
      popcount4 v = n.val ∧ v.toNat = 2 ^ n.val - 1 := by
  decide

/-- Four bits joined with the first in the lowest place, bit by bit. -/
theorem fourBits_getLsbD : ∀ (b0 b1 b2 b3 : Bool) (i : StageIx),
    (BitVec.ofBool b3 ++ BitVec.ofBool b2 ++ BitVec.ofBool b1 ++ BitVec.ofBool b0).getLsbD i.val =
      (Four.mk b0 b1 b2 b3).get i := by
  decide

theorem State.cfgvBits_getLsbD (s : State) (i : StageIx) : s.cfgvBits.getLsbD i.val = (s.cfg.stages.get i).cfgv := by
  refine (fourBits_getLsbD _ _ _ _ i).trans ?_
  fin_cases i <;> rfl

/-- The configured stages are 0..n-1 exactly when `N` = n and `CFGV` passes the check of R192 (b). -/
theorem State.configured_iff (s : State) {n : Nat} (hn : n ≤ 4) :
    (∀ i : StageIx, (s.cfg.stages.get i).cfgv = decide (i.val < n)) ↔
      s.stageCount = n ∧ s.cfgvBits.toNat = 2 ^ n - 1 := by
  simp only [← s.cfgvBits_getLsbD]
  exact lowBits_iff s.cfgvBits ⟨n, by omega⟩

theorem parallelBelow_iff (c : Session) (n : Nat) :
    parallelBelow c n = true ↔ ∀ i : StageIx, i.val < n → (c.stages.get i).mode = .parallel := by
  simp only [parallelBelow, List.all_eq_true, mem_allStages, forall_const, Bool.or_eq_true, decide_eq_true_eq,
    or_iff_not_imp_left, not_le]

/-- Stage i does not start capture and hands over to stage i + 1 (R192 d). -/
def Session.HandsOver (c : Session) (i : StageIx) : Prop :=
  (c.stages.get i).starts = false ∧ (c.stages.get i).nextv = true ∧ (c.stages.get i).next.val = i.val + 1

/-- From stage i the stages hand over one by one to a stage below n that starts capture (R192 d). -/
def Session.CapturesFrom (c : Session) (n : Nat) (i : StageIx) : Prop :=
  ∃ k : StageIx, i.val ≤ k.val ∧ k.val < n ∧ (c.stages.get k).starts = true ∧
    ∀ j : StageIx, i.val ≤ j.val → j.val < k.val → c.HandsOver j

section
variable {c : Session} {n : Nat} {i : StageIx}

/-- One round of the walk. -/
theorem captureReachable_succ (fuel : Nat) :
    captureReachable c n (fuel + 1) i = true ↔
      (c.stages.get i).starts = true ∨
        (c.HandsOver i ∧ (c.stages.get i).next.val < n ∧
          captureReachable c n fuel (c.stages.get i).next = true) := by
  simp only [captureReachable, Session.HandsOver]
  cases hstarts : (c.stages.get i).starts
  · cases hnext : (c.stages.get i).nextv
    · simp
    · simp only [Bool.false_eq_true, Bool.not_true, if_false, true_and, false_or]
      split_ifs with hrefused
      · exact iff_of_false not_false fun ⟨hchain, hlt, _⟩ => by omega
      · exact (and_iff_right (by omega)).symm.trans (and_congr_right fun _ => (and_iff_right (by omega)).symm)
  · simp

/-- `Session.CapturesFrom` unfolds by the same round. -/
theorem Session.capturesFrom_iff (hi : i.val < n) :
    c.CapturesFrom n i ↔
      (c.stages.get i).starts = true ∨
        (c.HandsOver i ∧ (c.stages.get i).next.val < n ∧ c.CapturesFrom n (c.stages.get i).next) := by
  constructor
  · rintro ⟨k, hik, hkn, hstarts, hover⟩
    obtain rfl | hlt : i = k ∨ i.val < k.val := (Fin.le_def.2 hik).eq_or_lt
    · exact .inl hstarts
    · have hover_i : c.HandsOver i := hover i le_rfl hlt
      have hnext := hover_i.2.2
      exact .inr ⟨hover_i, by omega, k, by omega, hkn, hstarts, fun j hj => hover j (by omega)⟩
  · rintro (hstarts | ⟨hover_i, -, k, hk, hkn, hstarts, hover⟩)
    · exact ⟨i, le_rfl, hi, hstarts, fun j _ _ => by omega⟩
    · have hnext := hover_i.2.2
      refine ⟨k, by omega, hkn, hstarts, fun j hij hjk => ?_⟩
      obtain rfl | hlt : i = j ∨ i.val < j.val := (Fin.le_def.2 hij).eq_or_lt
      · exact hover_i
      · exact hover j (by omega) hjk

/-- With fuel for the stages from i on, the walk succeeds exactly when they hand over to a capture stage. -/
theorem captureReachable_iff (fuel : Nat) : ∀ {i : StageIx}, i.val < n → 4 ≤ i.val + fuel →
    (captureReachable c n fuel i = true ↔ c.CapturesFrom n i) := by
  induction fuel with
  | zero => intro i _ hfuel; omega
  | succ fuel ih =>
    intro i hi hfuel
    rw [captureReachable_succ, Session.capturesFrom_iff hi]
    refine or_congr_right (and_congr_right fun hover => and_congr_right fun hnext => ih hnext ?_)
    have := hover.2.2
    omega

end

/-- A check that refuses on C lets the others decide where C fails. -/
theorem refuses_iff {C : Prop} [Decidable C] {b : Bool} : (if C then false else b) = true ↔ ¬ C ∧ b = true := by
  split <;> simp [*]

/-- `Validate` answers true exactly when each of its checks passes. -/
theorem State.validate_iff (s : State) :
    s.validate = true ↔
      s.groupCount ≠ 0 ∧ s.stageCount ≠ 0 ∧ s.cfgvBits.toNat = 2 ^ s.stageCount - 1 ∧
        parallelBelow s.cfg s.stageCount = true ∧ captureReachable s.cfg s.stageCount 4 0 = true ∧
        1 ≤ s.cfg.total.toNat ∧ 1 ≤ s.cfg.post.toNat ∧ s.cfg.post.toNat ≤ s.cfg.total.toNat ∧
        s.cfg.post.toNat ≤ s.cap := by
  simp only [State.validate, refuses_iff, not_or, not_lt, Bool.not_eq_true', Bool.not_eq_false, ne_eq, not_not,
    and_true, and_assoc, Nat.one_le_iff_ne_zero]

/-- Settles O21: the checks of `Validate` one by one; n is `N`, and the walk from stage 0 gives the capture stage. -/
theorem validationAcceptsExactly : Obligations.ValidationAcceptsExactly := by
  unfold Obligations.ValidationAcceptsExactly
  intro s
  rw [s.validate_iff]
  refine and_congr (groupCount_eq_zero_iff _).not ?_
  constructor
  · rintro ⟨hcount, hlow, hmode, hreach, hcounts⟩
    have hpos : 1 ≤ s.stageCount := by omega
    obtain ⟨k, -, hk, hstarts, hover⟩ := (captureReachable_iff 4 hpos le_rfl).1 hreach
    exact ⟨⟨s.stageCount, hpos, s.stageCount_le, (s.configured_iff s.stageCount_le).2 ⟨rfl, hlow⟩,
      (parallelBelow_iff _ _).1 hmode, k, hk, hstarts, fun i => hover i (Nat.zero_le _)⟩, hcounts⟩
  · rintro ⟨⟨n, hpos, hn, hcfgv, hmode, k, hk, hstarts, hover⟩, hcounts⟩
    obtain ⟨rfl, hlow⟩ := (s.configured_iff hn).1 hcfgv
    exact ⟨by omega, hlow, (parallelBelow_iff _ _).2 hmode,
      (captureReachable_iff 4 hpos le_rfl).2 ⟨k, Nat.zero_le _, hk, hstarts, fun i _ => hover i⟩, hcounts⟩

/-! ### The transition table (R195, R209) -/

/-- The ways `STATE` can go in a step (R209); a tick in `Armed` passes through `Capturing` and may go on (R195). -/
inductive CtlState.Arc (q r : CtlState) : Prop where
  | stays (same : r = q)
  | ends (is : r = .idle)
  | arms (was : q = .idle) (is : r = .armed)
  | samples (was : q = .armed) (is : r = .capturing)
  | triggers (was : q = .armed ∨ q = .capturing) (is : r = .postTrigger ∨ r = .captured)
  | faults (was : q = .armed ∨ q = .capturing) (is : r = .fault)
  | completes (was : q = .postTrigger) (is : r = .captured)
  | streams (was : q = .captured) (is : r = .streaming)

/-- A store keeps `STATE`, or enters `Captured` from `PostTrigger` (R198). -/
theorem storeSample_state {s t : State} {p : Word} (ht : storeSample p s = .next t) :
    t.ctl.state = s.ctl.state ∨ s.ctl.state = .postTrigger ∧ t.ctl.state = .captured := by
  obtain ⟨-, -, -, -, -, -, -, e | ⟨hs, e⟩⟩ := storeSample_frame ht <;> rw [e]
  · exact .inl rfl
  · exact .inr ⟨hs, rfl⟩

/-- A tick goes along an arc: after the trigger it may complete the capture, before it the chain is quiet, fires or
stalls (R195, R196). -/
theorem tick_arc {s t : State} {p : Word} (ht : tick p s = .next t) : s.ctl.state.Arc t.ctl.state := by
  by_cases hk : s.sampling = true
  · by_cases hs : s.ctl.state = .postTrigger
    · rcases storeSample_state ((tick_postTrigger p hk hs).symm.trans ht) with e | ⟨-, e⟩
      · exact .stays e
      · exact .completes hs e
    · have hbefore : s.ctl.state = .armed ∨ s.ctl.state = .capturing :=
        (s.sampling_iff.1 hk).2.imp_right fun h => h.resolve_right hs
      obtain ⟨u, q, -, rfl, -, ⟨-, rfl⟩ | ⟨-, -, hstore⟩ | ⟨-, hstore⟩⟩ := captureTick_cases hk hs ht
      · exact .faults hbefore (by simp)
      · exact .triggers hbefore ((storeSample_state hstore).imp id And.right)
      · rw [State.chainDecide_frame] at hstore
        obtain e | ⟨e, -⟩ := storeSample_state hstore
        · exact hbefore.elim (fun h => .samples h e) fun h => .stays (e.trans h.symm)
        · simp at e
  · obtain rfl : s = t := Host.Outcome.next.inj ((tick_discarded p hk).symm.trans ht)
    exact .stays rfl

/-- A frame goes along an arc: `Reset` ends the session, and a `Run` in `Idle` arms or stays (R192 to R194, R204). -/
theorem command_arc {s t : State} {bytes : List Byte} (ht : command bytes s = .next t) :
    s.ctl.state.Arc t.ctl.state := by
  rcases command_cases ht with rfl | ⟨-, -, rfl⟩ | ⟨-, hs, rfl⟩ | ⟨-, c, rfl⟩
  · exact .stays rfl
  · exact .ends rfl
  · rcases s.runSession_cases with ⟨-, e⟩ | ⟨-, -, e⟩ | ⟨-, -, e⟩ <;> rw [e]
    · exact .stays (by rw [State.raiseError_ctl _ _ (by decide)])
    · exact .stays (by rw [State.raiseError_ctl _ _ (by decide)])
    · exact .arms hs rfl
  · exact .stays rfl

/-- The rule of an input goes along an arc. -/
theorem receive_arc {i : Input} {s t : State} (ht : receive i s = .next t) : s.ctl.state.Arc t.ctl.state := by
  cases i with
  | tick p => exact tick_arc ht
  | frame bytes => exact command_arc ht
  | beginRead =>
    rcases beginRead_cases ht with rfl | ⟨hs, -, rfl⟩
    · exact .stays rfl
    · exact .streams hs rfl
  | readNext =>
    rcases readNext_cases ht with rfl | ⟨-, -, r, rfl⟩
    · exact .stays rfl
    · split
      · exact .ends rfl
      · exact .stays rfl
  | powerOn => cases ht; exact .ends rfl

/-- A step goes along an arc: taking the input leaves `STATE` alone. -/
theorem step_arc {s t : State} (ht : step s = .next t) : s.ctl.state.Arc t.ctl.state := by
  rcases step_cases ht with ⟨-, rfl⟩ | ⟨i, rest, -, hrec⟩
  · exact .stays rfl
  · exact receive_arc (s := s.takeInput) hrec

/-- Settles O55: each arc of a step is a row of the table. -/
theorem controllerFollowsTheTransitionTable : Obligations.ControllerFollowsTheTransitionTable := by
  unfold Obligations.ControllerFollowsTheTransitionTable
  intro s t ht
  cases step_arc ht with
  | stays same => exact .inl same
  | ends is => exact .inr (.inl is)
  | arms was is => simp [was, is]
  | samples was is => simp [was, is]
  | triggers was is => rcases was with was | was <;> rcases is with is | is <;> simp [was, is]
  | faults was is => rcases was with was | was <;> simp [was, is]
  | completes was is => simp [was, is]
  | streams was is => simp [was, is]

/-! ### Ticks after the trigger, and ticks without the clock (R196, R198, R205) -/

/-- Settles O43: such a tick is taken, and after the trigger it is the store of its sample with the countdown. -/
theorem postTriggerTickCountsDown : Obligations.PostTriggerTickCountsDown := by
  unfold Obligations.PostTriggerTickCountsDown
  intro s p hclk hs hwr hc
  rw [tick_postTrigger p (s.sampling_iff.2 ⟨hclk, .inr (.inr hs)⟩) hs]
  exact storeSample_postTrigger p hs hwr hc

/-- With the clock off a tick is discarded (R205). -/
theorem tick_of_clock_off {s : State} (p : Word) (hclk : s.ctl.clken = false) : tick p s = .next s :=
  tick_discarded p fun hk => by simp [(s.sampling_iff.1 hk).1] at hclk

/-- Settles O38: in the four states named a consistent controller has the clock off (R34). -/
theorem tickWithoutClockIsDiscarded : Obligations.TickWithoutClockIsDiscarded := by
  unfold Obligations.TickWithoutClockIsDiscarded
  refine ⟨fun s p => tick_of_clock_off p, fun s p hcons hs => tick_of_clock_off p ?_⟩
  rw [hcons.clock]
  rcases hs with h | h | h | h <;> rw [h] <;> rfl

/-! ### `Fault` (R206, R266) -/

/-- In `Fault` every frame is discarded, `Reset` included (R204, R206). -/
theorem command_in_fault {s : State} (bytes : List Byte) (hs : s.ctl.state = .fault) : command bytes s = .next s := by
  by_cases hreset : decodeFrame s.params bytes = .ok .reset
  · rw [command, hreset]
    exact if_pos hs
  · exact command_outside_idle (by simp [hs]) hreset

theorem readNext_elsewhere {s : State} (hs : s.ctl.state ≠ .streaming) : readNext s = .next s := if_neg hs

/-- In `Fault` every input but power-on reset is discarded (R206). -/
theorem receive_in_fault {i : Input} {s : State} (hs : s.ctl.state = .fault) (hi : i ≠ .powerOn) :
    receive i s = .next s := by
  cases i with
  | tick p => exact tick_discarded p fun hk => by simpa [hs, CtlState.clocked] using State.sampling_clocked hk
  | frame bytes => exact command_in_fault bytes hs
  | beginRead => exact beginRead_elsewhere (by simp [hs])
  | readNext => exact readNext_elsewhere (by simp [hs])
  | powerOn => exact absurd rfl hi

/-- Settles O37: taking the input leaves `STATE` alone, and in `Fault` the input is discarded. -/
theorem faultAbsorbsEverythingButPowerOn : Obligations.FaultAbsorbsEverythingButPowerOn := by
  unfold Obligations.FaultAbsorbsEverythingButPowerOn
  intro s i rest hs hin hi
  exact (step_of_input hin).trans (receive_in_fault hs hi)

/-! ### `ReadNext`, step by step (R178, R202) -/

section
variable {s : State}

/-- With more than one sample to deliver, `ReadNext` returns the one at `RD` and steps the cursor. -/
theorem readNext_more (hs : s.ctl.state = .streaming) (hrd : s.ring.rd < s.cap) (hmore : 1 < s.ring.remain) :
    readNext s = .next { s with
      ring := { s.ring with rd := (s.ring.rd + 1) % s.cap, remain := s.ring.remain - 1 }
      ports := { s.ports with reply := some (.sample (sampleWidth s.cfg.groups) (s.sampleAt s.ring.rd)) } } := by
  have hremain : minus s.ring.remain 1 = s.ring.remain - 1 := minus_of_le hmore.le
  rw [readNext_streaming hs hrd, State.stepCursor_ring, if_neg (by dsimp only; omega), State.stepCursor, hremain]
  rfl

/-- With one sample to deliver, `ReadNext` returns it and ends the session. -/
theorem readNext_last (hs : s.ctl.state = .streaming) (hrd : s.ring.rd < s.cap) (hlast : s.ring.remain = 1) :
    readNext s = .next { s.resetRegisters with
      ports := { s.ports with reply := some (.sample (sampleWidth s.cfg.groups) (s.sampleAt s.ring.rd)) } } := by
  have hremain : minus s.ring.remain 1 = 0 := by rw [hlast]; rfl
  rw [readNext_streaming hs hrd, State.stepCursor_ring, if_pos hremain]
  rfl

/-- What erasing leaves reads as free values (R282). -/
theorem State.Erases.imemSlot {t : State} (h : s.Erases t) (k : StageIx) (a : Nat) :
    t.imemSlot k a = Config.unwrittenSlot t.epoch k.val a := by
  rw [State.imemSlot, h.imem, Four.get_all]
  rfl

theorem State.Erases.nibble {t : State} (h : s.Erases t) (q : Nat) :
    t.nibble q = Config.unwrittenNibble t.epoch q := by
  rw [State.nibble, h.buf]
  rfl

end

/-- Settles O48: outside `Streaming`, with more than one sample left, and with one. -/
theorem readNextDeliversOneSample : Obligations.ReadNextDeliversOneSample := by
  unfold Obligations.ReadNextDeliversOneSample
  refine ⟨fun s rest hin hs => (step_of_input hin).trans (readNext_elsewhere hs), ?_, ?_⟩
  · intro s rest hin hs hrd hmore
    rw [← s.sampleAt_withPorts { inbox := rest, events := [], reply := none }]
    exact (step_of_input hin).trans (readNext_more hs hrd hmore)
  · intro s rest hin hs hrd hlast
    rw [← s.sampleAt_withPorts { inbox := rest, events := [], reply := none }]
    have herases := s.erases_resetRegisters
    exact ⟨_, (step_of_input hin).trans (readNext_last hs hrd hlast), rfl, herases.imemSlot, herases.nibble,
      Nat.succ_ne_self _⟩

end Sys2Proof.Machine
end

section
/-! SUPPORT. O6, O7 and O27 to O34: the command port. A frame goes by its decoding to one instruction or is discarded, and
the fields of its parameter are read off its bytes; a configuration command then changes the configuration in `Idle`
alone, in one register or in the registers of one stage. -/

namespace Sys2Proof

/-! ### What the decoder refuses (R93, R231, R254) -/

theorem decodeC1_unknown {P : Params} {op : Byte} (h : op ∉ P.opcodes.c1) : decodeC1 P op = .error .unknownOpcode := by
  simp only [OpcodeTable.c1, List.mem_cons, List.not_mem_nil, or_false, not_or] at h
  simp [decodeC1, h]

theorem decodeC5_unknown {P : Params} {op : Byte} (p : Param) (h : op ∉ P.opcodes.c5) :
    decodeC5 P op p = .error .unknownOpcode := by
  simp only [OpcodeTable.c5, List.mem_cons, List.not_mem_nil, or_false, not_or] at h
  simp [decodeC5, h]

/-- An opcode that the table has not is refused in a frame of any length. -/
theorem decodeFrame_unknown {P : Params} {op : Byte} (ps : List Byte) (h1 : op ∉ P.opcodes.c1) (h5 : op ∉ P.opcodes.c5) :
    ∃ e, decodeFrame P (op :: ps) = .error e := by
  unfold decodeFrame
  split
  next heq =>
    obtain ⟨rfl, -⟩ := List.cons.inj heq
    rw [decodeC1_unknown h1]
    split <;> exact ⟨_, rfl⟩
  next heq =>
    obtain ⟨rfl, -⟩ := List.cons.inj heq
    rw [decodeC5_unknown _ h5]
    split <;> exact ⟨_, rfl⟩
  next => exact ⟨_, rfl⟩

/-- So is a frame whose length is not the one that bit 7 of its opcode tells (R90). -/
theorem decodeFrame_malformed (P : Params) (op : Byte) {ps : List Byte}
    (h : ps.length ≠ if op.getLsbD 7 then 4 else 0) : decodeFrame P (op :: ps) = .error .malformedFrame := by
  unfold decodeFrame
  split
  next heq =>
    obtain ⟨rfl, rfl⟩ := List.cons.inj heq
    exact if_pos (by simpa using h)
  next heq =>
    obtain ⟨rfl, rfl⟩ := List.cons.inj heq
    exact if_neg (by simpa using h)
  next => rfl

/-! ### What the frames of a legal table decode to (R91) -/

/-- The frame of each one-byte command. -/
theorem decodeFrame_c1_opcodes {P : Params} (hP : P.legal = true) :
    decodeFrame P [P.opcodes.reset] = .ok .reset ∧ decodeFrame P [P.opcodes.run] = .ok .run ∧
      decodeFrame P [P.opcodes.identify] = .ok .identify ∧
      decodeFrame P [P.opcodes.queryMetadata] = .ok .queryMetadata := by
  have hframe : ∀ op ∈ P.opcodes.c1, decodeFrame P [op] = decodeC1 P op := fun _ => decodeFrame_c1 hP
  simp only [OpcodeTable.c1, List.forall_mem_cons] at hframe
  obtain ⟨hreset, hrun, hidentify, hmetadata, -⟩ := hframe
  rw [hreset, hrun, hidentify, hmetadata]
  exact decodeC1_opcodes hP

/-- The frame of each five-byte command, its parameter assembled. -/
theorem decodeFrame_c5_opcodes {P : Params} (hP : P.legal = true) (b1 b2 b3 b4 : Byte) :
    let p := assembleParam b1 b2 b3 b4
    decodeFrame P [P.opcodes.setClockDivisor, b1, b2, b3, b4] = .ok (.setClockDivisor p) ∧
    decodeFrame P [P.opcodes.setSampleCounts, b1, b2, b3, b4] =
      .ok (.setSampleCounts ((p.extractLsb' 0 16).setWidth 32) ((p.extractLsb' 16 16).setWidth 32)) ∧
    decodeFrame P [P.opcodes.setFlags, b1, b2, b3, b4] = .ok (.setFlags (p.extractLsb' 0 4) (p.getLsbD 4)) ∧
    decodeFrame P [P.opcodes.setTriggerMask, b1, b2, b3, b4] =
      .ok (.setTriggerMask (stageField p) (p.extractLsb' 0 16)) ∧
    decodeFrame P [P.opcodes.setTriggerValue, b1, b2, b3, b4] =
      .ok (.setTriggerValue (stageField p) (p.extractLsb' 0 16)) ∧
    decodeFrame P [P.opcodes.setTriggerConfig, b1, b2, b3, b4] =
      .ok (.setTriggerConfig (stageField p) (stageFields p)) := by
  intro p
  have hframe : ∀ op ∈ P.opcodes.c5, decodeFrame P [op, b1, b2, b3, b4] = decodeC5 P op p :=
    fun _ hop => decodeFrame_c5 hP hop b1 b2 b3 b4
  simp only [OpcodeTable.c5, List.forall_mem_cons] at hframe
  obtain ⟨hdivisor, hcounts, hflags, hmask, hvalue, hconfig, -⟩ := hframe
  rw [hdivisor, hcounts, hflags, hmask, hvalue, hconfig]
  exact decodeC5_opcodes hP p

/-! ### The parameter's fields in its bytes (R66, R92) -/

section
variable (b1 b2 b3 b4 : Byte)

/-- `P[3:0]` and `P[4]` lie in the first parameter byte. -/
theorem assembleParam_flags :
    (assembleParam b1 b2 b3 b4).extractLsb' 0 4 = b1.extractLsb' 0 4 ∧
      (assembleParam b1 b2 b3 b4).getLsbD 4 = b1.getLsbD 4 := by
  refine ⟨BitVec.eq_of_getLsbD_eq fun i hi => ?_, assembleParam_getLsbD b1 b2 b3 b4 4⟩
  simp [assembleParam_getLsbD, hi, show i < 8 by omega]

/-- The stage index is the third parameter byte's bits [1:0]. -/
theorem stageField_assembleParam_val : (stageField (assembleParam b1 b2 b3 b4)).val = b3.toNat % 4 :=
  (assembleParam_stages b1 b2 b3 b4).1

/-- The next stage's index is its bits [3:2]. -/
theorem stageFields_assembleParam_next_val :
    (stageFields (assembleParam b1 b2 b3 b4)).next.val = b3.toNat / 4 % 4 :=
  (assembleParam_stages b1 b2 b3 b4).2

/-- The delay is the first two bytes, and the three flags of `SetTriggerConfig` are bits [6:4] of the third. -/
theorem stageFields_assembleParam :
    stageFields (assembleParam b1 b2 b3 b4) =
      { delay := b2 ++ b1, next := (stageFields (assembleParam b1 b2 b3 b4)).next, nextv := b3.getLsbD 4,
        starts := b3.getLsbD 5, mode := if b3.getLsbD 6 then .serial else .parallel } := by
  obtain ⟨hdelay, -⟩ := assembleParam_halves b1 b2 b3 b4
  simp only [stageFields, hdelay, assembleParam_getLsbD]
  rfl

end

end Sys2Proof

namespace Sys2Proof.Machine

/-! ### The command port (R220) -/

/-- A frame that decodes runs its instruction. -/
theorem command_decoded {s : State} {bytes : List Byte} {i : Instr} (h : decodeFrame s.params bytes = .ok i) :
    command bytes s = exec i s := by
  rw [command, h]

/-- A frame that the decoder refuses is discarded. -/
theorem command_refused {s : State} {bytes : List Byte} {e : DecodeError} (h : decodeFrame s.params bytes = .error e) :
    command bytes s = .next s := by
  rw [command, h]

/-- A step on a frame that the decoder refuses only takes it. -/
theorem step_refused {s : State} {bytes : List Byte} {rest : List Input} {e : DecodeError}
    (hin : s.ports.inbox = .frame bytes :: rest) (hd : decodeFrame s.params bytes = .error e) :
    step s = .next { s with ports := { inbox := rest, events := [], reply := none } } :=
  (step_of_input hin).trans (command_refused (s := { s with ports := _ }) hd)

/-- A step on a frame with an opcode that the table has not only takes it. -/
theorem step_unknown {s : State} {op : Byte} {ps : List Byte} {rest : List Input}
    (hin : s.ports.inbox = .frame (op :: ps) :: rest) (h1 : op ∉ s.params.opcodes.c1) (h5 : op ∉ s.params.opcodes.c5) :
    step s = .next { s with ports := { inbox := rest, events := [], reply := none } } := by
  obtain ⟨e, hd⟩ := decodeFrame_unknown ps h1 h5
  exact step_refused hin hd

/-- Settles O6: a refused frame is only taken; 05 and 83 are not in the default table. -/
theorem unknownOpcodeIsDiscarded : Obligations.UnknownOpcodeIsDiscarded := by
  unfold Obligations.UnknownOpcodeIsDiscarded
  refine ⟨fun s bytes rest e => step_refused, fun s op ps rest => step_unknown,
    fun P op ps => decodeFrame_malformed P op, fun P => rfl, fun s rest hstd hin => ?_⟩
  rcases hin with hin | hin <;> exact step_unknown hin (by rw [hstd]; decide) (by rw [hstd]; decide)

/-- Settles O7: the step is the command port's rule, and the frame decodes. -/
theorem stepRunsTheDecodedCommand : Obligations.StepRunsTheDecodedCommand := by
  unfold Obligations.StepRunsTheDecodedCommand
  intro s bytes rest i hin hd
  exact (step_of_input hin).trans (command_decoded (s := { s with ports := _ }) hd)

/-! ### Commands on the whole configuration (R225 to R227) -/

/-- Settles O27: the parameter is the divisor. -/
theorem setClockDivisorWritesDivisor : Obligations.SetClockDivisorWritesDivisor := by
  unfold Obligations.SetClockDivisorWritesDivisor
  refine ⟨fun P b1 b2 b3 b4 hP => ?_, fun s d hs => congrArg _ (s.configure_idle hs),
    fun s d hs => exec_command_outside_idle hs rfl (by simp), by decide⟩
  obtain ⟨hdivisor, -⟩ := decodeFrame_c5_opcodes hP b1 b2 b3 b4
  exact hdivisor

/-- Settles O28: the two counts are the halves of the parameter. -/
theorem setSampleCountsWritesBothCounts : Obligations.SetSampleCountsWritesBothCounts := by
  unfold Obligations.SetSampleCountsWritesBothCounts
  refine ⟨fun P b1 b2 b3 b4 hP => ?_, fun s total post hs => congrArg _ (s.configure_idle hs),
    fun s total post hs => exec_command_outside_idle hs rfl (by simp), by decide⟩
  obtain ⟨-, hcounts, -⟩ := decodeFrame_c5_opcodes hP b1 b2 b3 b4
  obtain ⟨htotal, hpost⟩ := assembleParam_halves b1 b2 b3 b4
  rw [hcounts, htotal, hpost]

/-- With no group enabled the validation fails (R192 a). -/
theorem State.validate_no_groups {s : State} (h : s.cfg.groups = 0#4) : s.validate = false := by
  rw [← Bool.not_eq_true, s.validate_iff]
  rintro ⟨hgroups, -⟩
  exact hgroups ((groupCount_eq_zero_iff s.cfg.groups).2 h)

/-- Settles O29: both fields lie in the first parameter byte, and `Validate` refuses an empty set of groups first. -/
theorem setFlagsWritesGroupsAndRle : Obligations.SetFlagsWritesGroupsAndRle := by
  unfold Obligations.SetFlagsWritesGroupsAndRle
  refine ⟨fun P b1 b2 b3 b4 hP => ?_, fun s groups rle hs => congrArg _ (s.configure_idle hs),
    fun s groups rle hs => exec_command_outside_idle hs rfl (by simp), fun s => State.validate_no_groups,
    by decide, by decide⟩
  obtain ⟨-, -, hflags, -⟩ := decodeFrame_c5_opcodes hP b1 b2 b3 b4
  obtain ⟨hgroups, hrle⟩ := assembleParam_flags b1 b2 b3 b4
  rw [hflags, hgroups, hrle]

/-! ### Commands on one stage (R228 to R230) -/

/-- In `Idle` a configuration write on one stage changes that stage's registers and nothing else. -/
theorem State.configure_updateStage {s : State} (i : StageIx) (f : StageCfg → StageCfg) (hs : s.ctl.state = .idle) :
    ∃ t, Host.Outcome.next (s.configure fun c => c.updateStage i f) = (.next t : Host.Outcome State Fault Refusal) ∧
      { t with cfg := s.cfg } = s ∧ { t.cfg with stages := s.cfg.stages } = s.cfg ∧
      t.cfg.stages.get i = f (s.cfg.stages.get i) ∧ ∀ j, j ≠ i → t.cfg.stages.get j = s.cfg.stages.get j :=
  ⟨_, congrArg _ (s.configure_idle hs), rfl, rfl, s.cfg.updateStage_get_same i f,
    fun _ hj => s.cfg.updateStage_get_ne f hj⟩

/-- Settles O30: the mask is the low half of the parameter, and the command writes one stage. -/
theorem setTriggerMaskWritesOneMask : Obligations.SetTriggerMaskWritesOneMask := by
  unfold Obligations.SetTriggerMaskWritesOneMask
  refine ⟨fun P b1 b2 b3 b4 hP => ⟨_, stageField_assembleParam_val b1 b2 b3 b4, ?_⟩,
    fun s i mask => State.configure_updateStage i _,
    fun s i mask hs => exec_command_outside_idle hs rfl (by simp), by decide, by decide⟩
  obtain ⟨-, -, -, hmask, -⟩ := decodeFrame_c5_opcodes hP b1 b2 b3 b4
  obtain ⟨hlow, -⟩ := assembleParam_halves b1 b2 b3 b4
  rw [hmask, hlow]

/-- Settles O31: the value is the low half of the parameter, and the command writes one stage. -/
theorem setTriggerValueWritesOneValue : Obligations.SetTriggerValueWritesOneValue := by
  unfold Obligations.SetTriggerValueWritesOneValue
  refine ⟨fun P b1 b2 b3 b4 hP => ⟨_, stageField_assembleParam_val b1 b2 b3 b4, ?_⟩,
    fun s i value => State.configure_updateStage i _,
    fun s i value hs => exec_command_outside_idle hs rfl (by simp), by decide⟩
  obtain ⟨-, -, -, -, hvalue, -⟩ := decodeFrame_c5_opcodes hP b1 b2 b3 b4
  obtain ⟨hlow, -⟩ := assembleParam_halves b1 b2 b3 b4
  rw [hvalue, hlow]

/-- A configuration write on one stage that keeps `CFGV` of that stage keeps every `CFGV`. -/
theorem Session.updateStage_keeps_cfgv (c : Session) (j : StageIx) {f : StageCfg → StageCfg}
    (hf : ∀ st, st.cfgv = true → (f st).cfgv = true) {i : StageIx} (h : (c.stages.get i).cfgv = true) :
    ((c.updateStage j f).stages.get i).cfgv = true := by
  by_cases hij : i = j
  · subst hij
    rw [Session.updateStage_get_same]
    exact hf _ h
  · rwa [Session.updateStage_get_ne c f hij]

/-- A configuration command keeps `CFGV` where its write does. -/
theorem State.configure_keeps_cfgv {s : State} {f : Session → Session} {i : StageIx}
    (h : (s.cfg.stages.get i).cfgv = true) (hf : ((f s.cfg).stages.get i).cfgv = true) :
    ((s.configure f).cfg.stages.get i).cfgv = true := by
  by_cases hs : s.ctl.state = .idle
  · rwa [s.configure_idle hs]
  · rwa [s.configure_not_idle hs]

/-- No instruction but `Reset` clears `CFGV` (R230). -/
theorem exec_keeps_cfgv {s t : State} {c : Instr} {i : StageIx} (hc : c ≠ .reset) (ht : exec c s = .next t)
    (h : (s.cfg.stages.get i).cfgv = true) : (t.cfg.stages.get i).cfgv = true := by
  have micro : c.isMicro = true → (t.cfg.stages.get i).cfgv = true := fun hm => by
    obtain ⟨q, hq⟩ := exec_micro hm s
    obtain rfl := Host.Outcome.next.inj (hq.symm.trans ht)
    exact h
  have conf : ∀ f : Session → Session, exec c s = .next (s.configure f) →
      ((f s.cfg).stages.get i).cfgv = true → (t.cfg.stages.get i).cfgv = true := fun f he hf => by
    obtain rfl := Host.Outcome.next.inj (he.symm.trans ht)
    exact State.configure_keeps_cfgv h hf
  cases c with
  | skip | matchSingleBit | matchRun => exact micro rfl
  | reset => exact absurd rfl hc
  | run =>
    obtain ⟨-, hcfg, -⟩ := s.runSession_frame
    rcases ite_eq_iff.1 ht with ⟨-, ht⟩ | ⟨-, ht⟩ <;> cases ht
    · rwa [hcfg]
    · exact h
  | identify | queryMetadata => cases ht; exact h
  | setClockDivisor | setSampleCounts | setFlags => exact conf _ rfl h
  | setTriggerMask j | setTriggerValue j =>
    refine conf _ rfl (s.cfg.updateStage_keeps_cfgv j ?_ h)
    exact fun _ hst => hst
  | setTriggerConfig j => exact conf _ rfl (s.cfg.updateStage_keeps_cfgv j (fun _ _ => rfl) h)

/-- Settles O32: the five fields stand in their places in the parameter, the command writes one stage and sets its
`CFGV`, and each of the other instructions but `Reset` keeps every `CFGV`. -/
theorem setTriggerConfigWritesOneStage : Obligations.SetTriggerConfigWritesOneStage := by
  unfold Obligations.SetTriggerConfigWritesOneStage
  refine ⟨fun P b1 b2 b3 b4 hP => ⟨_, _, stageField_assembleParam_val b1 b2 b3 b4,
      stageFields_assembleParam_next_val b1 b2 b3 b4, ?_⟩,
    fun s i f => State.configure_updateStage i _,
    fun s i f hs => exec_command_outside_idle hs rfl (by simp), fun s t c i => exec_keeps_cfgv,
    by decide, by decide, by decide⟩
  obtain ⟨-, -, -, -, -, hconfig⟩ := decodeFrame_c5_opcodes hP b1 b2 b3 b4
  rw [hconfig, ← stageFields_assembleParam]

/-! ### The one-byte commands (R221, R223, R224) -/

/-- Settles O33: the block has no register that either command reaches. -/
theorem identifyAndMetadataChangeNothing : Obligations.IdentifyAndMetadataChangeNothing := by
  unfold Obligations.IdentifyAndMetadataChangeNothing
  refine ⟨fun P hP => ?_, by decide, by decide, fun s => ⟨rfl, rfl⟩⟩
  obtain ⟨-, -, hidentify, hmetadata⟩ := decodeFrame_c1_opcodes hP
  exact ⟨hidentify, hmetadata⟩

/-- In `Fault` a `Reset` is discarded (R204). -/
theorem exec_reset_in_fault {s : State} (hs : s.ctl.state = .fault) : exec .reset s = .next s := if_pos hs

/-- In every other state it discards the session. -/
theorem exec_reset_elsewhere {s : State} (hs : s.ctl.state ≠ .fault) : exec .reset s = .next s.discardSession :=
  if_neg hs

/-- Settles O34: outside `Fault` it is `Discard()`, which erases both memories and ends in `Idle`, where there is nothing
to read. -/
theorem resetDiscardsTheSession : Obligations.ResetDiscardsTheSession := by
  unfold Obligations.ResetDiscardsTheSession
  refine ⟨fun P hP => ?_, by decide, fun s hs => ?_, fun s => exec_reset_in_fault⟩
  · obtain ⟨hreset, -⟩ := decodeFrame_c1_opcodes hP
    exact hreset
  · have herases : s.Erases s.discardSession := s.erases_resetRegisters
    exact ⟨_, exec_reset_elsewhere hs, rfl, herases.imemSlot, herases.nibble, Nat.succ_ne_self _,
      readNext_elsewhere (by simp [Controller.reset])⟩

end Sys2Proof.Machine
end

section
/-! SUPPORT. O22, O23 and O58: errors and pulses. A refused `Run` is one `raiseError`; the pulses of a step are said once,
by what the step was: silent, an error, or a sample stored. -/

namespace Sys2Proof.Machine

/-! ### The `Run` that is refused (R193, R251, R252) -/

section
variable {s : State}

theorem exec_run_idle (hidle : s.ctl.state = .idle) : exec .run s = .next s.runSession := if_pos hidle

theorem State.runSession_invalid (hinvalid : s.validate = false) :
    s.runSession = s.raiseError .invalidConfiguration := by
  rw [State.runSession, hinvalid]
  rfl

theorem State.runSession_overBudget (hvalid : s.validate = true) (hover : s.overBudget = true) :
    s.runSession = s.raiseError .compileOverflow := by
  rw [State.runSession, hvalid, hover]
  rfl

/-- One configured stage over budget is enough to refuse the session (R193). -/
theorem State.overBudget_of_stage {i : StageIx} (hi : i.val < s.stageCount)
    (hcost : s.params.budget < cost (s.stageProgram i)) : s.overBudget = true := by
  by_contra hfits
  exact hcost.not_ge (s.overBudget_eq_false.1 (Bool.eq_false_iff.2 hfits) i hi)

end

/-- Settles O22: validation is the first check of `Run`, and the error is recorded in `Idle`. -/
theorem runRefusesAnInvalidConfiguration : Obligations.RunRefusesAnInvalidConfiguration := by
  unfold Obligations.RunRefusesAnInvalidConfiguration
  intro s hidle hinvalid
  rw [exec_run_idle hidle, State.runSession_invalid hinvalid, s.raiseError_eq _ (by decide)]

/-- Settles O23: a compiled program costs at most 16 slots, of which the default budget has 32; where the budget is
smaller, the stage that exceeds it refuses the session after validation. -/
theorem runRefusesAnOverBudgetProgram : Obligations.RunRefusesAnOverBudgetProgram := by
  unfold Obligations.RunRefusesAnOverBudgetProgram
  refine ⟨fun mask value => ?_, fun s i hidle hvalid hi hcost => ?_⟩
  · obtain ⟨-, hcost, -⟩ := compiledProgramsKeepTheirBounds Params.standard mask value (by decide) (by decide)
    exact hcost.trans (by decide)
  · rw [exec_run_idle hidle, State.runSession_overBudget hvalid (State.overBudget_of_stage hi hcost),
      s.raiseError_eq _ (by decide)]

/-! ### The pulses of a step (R257 to R261, R263) -/

/-- The ways a step from `s` to `t` can pulse: not at all, with an error alone, or with the pulses of a stored sample, in
the order of R196. -/
inductive State.Pulses (s t : State) : Prop where
  | silent (nothing : t.ports.events = []) (uncaptured : s.sampling = true → t.ctl.state ≠ .captured)
  | error (alone : t.ports.events = [.err]) (code : t.ctl.err ≠ .none ∧ t.ctl.err ≠ .malformedCommand)
      (stopped : t.ctl.state ≠ .captured)
  | stored (taken : s.sampling = true) (trigs : List Event)
      (ordered : t.ports.events = trigs ++ s.wrapEvents ++ if t.ctl.state = .captured then [.done] else [])
      (fired : trigs = [] ∨ trigs = [.trig] ∧ (s.ctl.state = .armed ∨ s.ctl.state = .capturing) ∧
        (t.ctl.state = .postTrigger ∨ t.ctl.state = .captured))
      (cursor : t.ring.wr = (s.ring.wr + 1) % s.cap)

section
variable {s t : State} {p : Word}

theorem State.sampling_not_captured (hk : s.sampling = true) : s.ctl.state ≠ .captured :=
  CtlState.ne_of_clocked (State.sampling_clocked hk) rfl

/-- A step that keeps `STATE` and pulses nothing. -/
theorem State.Pulses.of_same_state (hnone : t.ports.events = []) (hsame : t.ctl.state = s.ctl.state) : s.Pulses t :=
  .silent hnone fun hk => hsame ▸ State.sampling_not_captured hk

/-- A step that pulses nothing and ends in another state than `Captured`. -/
theorem State.Pulses.of_not_captured (hnone : t.ports.events = []) (hstate : t.ctl.state ≠ .captured) : s.Pulses t :=
  .silent hnone fun _ => hstate

/-- Raising a code that means an error is an error step, when it does not end in `Captured` (R250). -/
theorem State.Pulses.of_raiseError {u : State} {e : ErrCode} (hevents : u.ports.events = [])
    (hcode : e ≠ .none ∧ e ≠ .malformedCommand) (hstate : (u.raiseError e).ctl.state ≠ .captured) :
    s.Pulses (u.raiseError e) :=
  .error (by rw [State.raiseError_ports, hevents]; rfl) (by rwa [State.raiseError_err]) hstate

/-- `EVT_WRAP` is among the pulses of a write exactly when it brings the cursor back to 0 (R172). -/
theorem State.mem_wrapEvents {e : Event} : e ∈ s.wrapEvents ↔ e = .wrap ∧ (s.ring.wr + 1) % s.cap = 0 := by
  unfold State.wrapEvents
  split <;> simp [*]

theorem State.wrapEvents_sublist : s.wrapEvents.Sublist [.wrap] := by
  unfold State.wrapEvents
  split
  · exact List.Sublist.refl _
  · exact List.nil_sublist _

/-- The countdown emits `EVT_DONE` exactly where it enters `Captured` (R198). -/
theorem State.countDown_events (hs : s.ctl.state ≠ .captured) :
    s.countDown.ports.events =
      s.ports.events ++ if s.countDown.ctl.state = .captured then [.done] else [] := by
  unfold State.countDown
  split
  · dsimp only
    split <;> simp
  · simp

/-- The pulses of a stored sample: `EVT_WRAP` with the write, then `EVT_DONE` with the entry to `Captured` (R196). -/
theorem storeSample_events (ht : storeSample p s = .next t) (hs : s.ctl.state ≠ .captured) :
    t.ports.events = s.ports.events ++ s.wrapEvents ++ if t.ctl.state = .captured then [.done] else [] := by
  obtain ⟨-, rfl⟩ := storeSample_eq_next.1 ht
  rw [State.countDown_events (by simpa using hs), State.writeSample_events]
  rfl

/-- A tick stores its sample with its pulses, or stalls into HardwareFault without any other (R195 to R198, R255). -/
theorem tick_pulses (hevents : s.ports.events = []) (ht : tick p s = .next t) : s.Pulses t := by
  by_cases hk : s.sampling = true
  · by_cases hs : s.ctl.state = .postTrigger
    · have hstore := (tick_postTrigger p hk hs).symm.trans ht
      have hpulses := storeSample_events hstore (State.sampling_not_captured hk)
      rw [hevents] at hpulses
      exact .stored hk [] hpulses (.inl rfl) (storeSample_wrote hstore).cursor
    · have hbefore : s.ctl.state = .armed ∨ s.ctl.state = .capturing :=
        (s.sampling_iff.1 hk).2.imp_right fun h => h.resolve_right hs
      obtain ⟨u, q, -, rfl, -, ⟨-, rfl⟩ | ⟨-, -, hstore⟩ | ⟨-, hstore⟩⟩ := captureTick_cases hk hs ht
      · exact .of_raiseError (by rw [State.chainDecide_frame]; exact hevents) (by decide) (by simp)
      · have hpulses := storeSample_events hstore (by simp)
        rw [State.fire_ports] at hpulses
        refine .stored hk [.trig] (hpulses.trans ?_) (.inr ⟨rfl, hbefore, ?_⟩) (storeSample_wrote hstore).cursor
        · dsimp only [State.setCtl_ports]
          rw [hevents]
          rfl
        · exact (storeSample_state hstore).imp id And.right
      · rw [State.chainDecide_frame] at hstore
        have hpulses := storeSample_events hstore (by simp)
        refine .stored hk [] (hpulses.trans ?_) (.inl rfl) (storeSample_wrote hstore).cursor
        dsimp only [State.setCtl_ports]
        rw [hevents]
        rfl
  · obtain rfl : s = t := Host.Outcome.next.inj ((tick_discarded p hk).symm.trans ht)
    exact .of_same_state hevents rfl

/-- A frame pulses nothing, but for the `Run` that is refused (R251, R252). -/
theorem command_pulses {bytes : List Byte} (hevents : s.ports.events = []) (ht : command bytes s = .next t) :
    s.Pulses t := by
  rcases command_cases ht with rfl | ⟨-, -, rfl⟩ | ⟨-, hidle, rfl⟩ | ⟨-, c, rfl⟩
  · exact .of_same_state hevents rfl
  · exact .of_not_captured hevents (by simp [Controller.reset])
  · have refuse : ∀ e, e ≠ .none ∧ e ≠ .malformedCommand → e ≠ .hardwareFault → s.Pulses (s.raiseError e) :=
      fun e hcode hh => .of_raiseError hevents hcode (by rw [State.raiseError_ctl s e hh]; simp [hidle])
    rcases s.runSession_cases with ⟨-, e⟩ | ⟨-, -, e⟩ | ⟨-, -, e⟩ <;> rw [e]
    · exact refuse _ (by decide) (by decide)
    · exact refuse _ (by decide) (by decide)
    · obtain ⟨im, pl, hload⟩ := State.loadStages_frame [0, 1, 2, 3] s
      exact .of_not_captured (by rw [State.arm_ports, hload]; exact hevents) (by simp)
  · exact .of_same_state hevents rfl

/-- `BeginRead` pulses nothing, but for the error of a truncated window (R253). -/
theorem beginRead_pulses (hevents : s.ports.events = []) (ht : beginRead s = .next t) : s.Pulses t := by
  rcases beginRead_cases ht with rfl | ⟨-, -, rfl⟩
  · exact .of_same_state hevents rfl
  · rw [State.flagTruncation_eq]
    split
    · exact .error (by simp [hevents]) (by simp) (by simp)
    · exact .of_not_captured (by simp [hevents]) (by simp)

/-- `ReadNext` pulses nothing, whether or not it ends the session (R203). -/
theorem readNext_pulses (hevents : s.ports.events = []) (ht : readNext s = .next t) : s.Pulses t := by
  rcases readNext_cases ht with rfl | ⟨-, -, r, rfl⟩
  · exact .of_same_state hevents rfl
  · split
    · exact .of_not_captured hevents (by simp [Controller.reset])
    · exact .of_same_state hevents rfl

/-- The rule of an input, from a state whose pulses have been cleared. -/
theorem receive_pulses {i : Input} (hevents : s.ports.events = []) (ht : receive i s = .next t) : s.Pulses t := by
  cases i with
  | tick p => exact tick_pulses hevents ht
  | frame bytes => exact command_pulses hevents ht
  | beginRead => exact beginRead_pulses hevents ht
  | readNext => exact readNext_pulses hevents ht
  | powerOn => cases ht; exact .of_not_captured hevents (by simp [Controller.reset])

/-- A step: the pulses of the step before are gone, and `Pulses` does not speak of the ports of the state before. -/
theorem step_pulses (ht : step s = .next t) : s.Pulses t := by
  rcases step_cases ht with ⟨-, rfl⟩ | ⟨i, rest, -, hrec⟩
  · exact .of_same_state rfl rfl
  · cases receive_pulses (s := s.takeInput) rfl hrec with
    | silent nothing uncaptured => exact .silent nothing uncaptured
    | error alone code stopped => exact .error alone code stopped
    | stored taken trigs ordered fired cursor => exact .stored taken trigs ordered fired cursor

/-! ### What the pulses tell -/

/-- R263: an error pulse stands alone, the others in R196's order. -/
theorem State.Pulses.order (h : s.Pulses t) :
    t.ports.events = [.err] ∨ t.ports.events.Sublist [.trig, .wrap, .done] := by
  cases h with
  | silent nothing _ => exact .inr (nothing ▸ List.nil_sublist _)
  | error alone _ _ => exact .inl alone
  | stored _ trigs ordered fired _ =>
    have htrigs : trigs.Sublist [.trig] := by
      rcases fired with rfl | ⟨rfl, -⟩
      · exact List.nil_sublist _
      · exact List.Sublist.refl _
    have hdone : (if t.ctl.state = .captured then [Event.done] else []).Sublist [.done] := by
      split
      · exact List.Sublist.refl _
      · exact List.nil_sublist _
    exact .inr (ordered ▸ (htrigs.append State.wrapEvents_sublist).append hdone)

end

/-- Settles O58: each way to pulse gives each clause; when a sample is stored, a pulse is the trigger's, the wrap's or the
completion's. -/
theorem eventsTellWhatTheStepDid : Obligations.EventsTellWhatTheStepDid := by
  unfold Obligations.EventsTellWhatTheStepDid
  intro s t ht
  have hpulses := step_pulses ht
  refine ⟨hpulses.order, ?_⟩
  cases hpulses with
  | silent nothing uncaptured => simpa [nothing] using uncaptured
  | error alone code stopped => simp [alone, code, stopped]
  | stored taken trigs ordered fired cursor =>
    have harc : Event.trig ∈ trigs → (s.ctl.state = .armed ∨ s.ctl.state = .capturing) ∧
        (t.ctl.state = .postTrigger ∨ t.ctl.state = .captured) := by
      rcases fired with rfl | ⟨rfl, harc⟩
      · simp
      · exact fun _ => harc
    have hother : ∀ e, e ≠ .trig → e ∉ trigs := by
      rcases fired with rfl | ⟨rfl, -⟩ <;> simp
    have hmem : ∀ e, e ∈ t.ports.events ↔
        e ∈ trigs ∨ (e = .wrap ∧ t.ring.wr = 0) ∨ (e = .done ∧ t.ctl.state = .captured) := by
      intro e
      rw [ordered, List.mem_append, List.mem_append, State.mem_wrapEvents, cursor, or_assoc]
      split
      next hcaptured => simp [hcaptured]
      next hopen => simp [hopen]
    simpa [hmem, hother, taken] using harc

end Sys2Proof.Machine
end

section
/-! SUPPORT. O35, O36 and O52: reset. What a cell of a reset block reads as, power-on reset as one step, and the invariant
of the reset state, which is that of `Idle`. -/

namespace Sys2Proof.Machine

/-! ### The reset state (R281, R282) -/

/-- At reset nothing is listed in either memory, so a cell reads as a free value (R282). -/
theorem State.resetWith_imemSlot (P : Params) (k : StageIx) (a : Nat) :
    (State.resetWith P).imemSlot k a = Config.unwrittenSlot (State.resetWith P).epoch k.val a := by
  have hbank : (State.resetWith P).imem.get k = [] := Four.get_all [] k
  rw [State.imemSlot, hbank]
  rfl

theorem State.resetWith_nibble (P : Params) (q : Nat) :
    (State.resetWith P).nibble q = Config.unwrittenNibble (State.resetWith P).epoch q := rfl

/-- Settles O35, the table's registers in the order of the configuration, the controller and the chain, the program
lengths, the ring buffer; then the memories and the outputs. -/
theorem resetStateHasTheResetValues : Obligations.ResetStateHasTheResetValues := by
  unfold Obligations.ResetStateHasTheResetValues
  have hstage (i : StageIx) : State.reset.cfg.stages.get i = StageCfg.reset := Four.get_all StageCfg.reset i
  have hplen (k : StageIx) : State.reset.plen.get k = 0 := Four.get_all 0 k
  exact ⟨rfl, rfl, rfl, rfl, rfl, hstage,
    rfl, rfl, rfl, rfl, rfl, rfl, hplen,
    rfl, rfl, rfl, rfl, rfl, rfl, rfl,
    State.resetWith_imemSlot _, State.resetWith_nibble _, rfl⟩

/-! ### Power-on reset (R280) -/

/-- Power-on reset is taken in every state, `Fault` included, and keeps the later inputs. -/
theorem step_powerOn {s : State} {rest : List Input} (hin : s.ports.inbox = .powerOn :: rest) :
    step s = .next { s.resetRegisters with ports := { inbox := rest, events := [], reply := none } } :=
  step_of_input hin

/-- Settles O36: the step erases both memories under a new epoch and gives every register its reset value. -/
theorem powerOnResetsEveryState : Obligations.PowerOnResetsEveryState := by
  unfold Obligations.PowerOnResetsEveryState
  intro s rest hin
  have herases := s.erases_resetRegisters
  exact ⟨_, step_powerOn hin, rfl, herases.imemSlot, herases.nibble, Nat.succ_ne_self _⟩

/-! ### The invariant at reset -/

/-- With legal parameters the reset state is consistent: the memories are as after an erasure, the controller at reset. -/
theorem State.Consistent.resetWith {P : Params} (hP : P.legal = true) : (State.resetWith P).Consistent :=
  State.consistent_iff.2 ⟨hP, (State.MemoryOk.erased (State.resetWith P)).congr rfl rfl rfl, .reset⟩

theorem State.Inv.resetWith {P : Params} (hP : P.legal = true) : (State.resetWith P).Inv :=
  .of_idle (.resetWith hP) rfl rfl rfl rfl

/-- Settles O52: the reset state is consistent and in `Idle`; the default parameters are legal. -/
theorem resetSatisfiesTheInvariant : Obligations.ResetSatisfiesTheInvariant := by
  unfold Obligations.ResetSatisfiesTheInvariant
  have hstandard : Params.standard.legal = true := by decide
  exact ⟨fun _ hP => .resetWith hP, .resetWith hstandard⟩

end Sys2Proof.Machine
end
